-- ==== Sys2Proof/Word.lean ====
section
/-! DEFINITION. The word types of BCME (spec/00_scope.md R9, R10): what the manual treats as bits. -/

namespace Sys2Proof

/-- A byte, 0..255 (R9). -/
abbrev Byte := BitVec 8

/-- A 32-bit register value, command word or buffer address (10_state.md R21, 20_memory.md R60). -/
abbrev Word := BitVec 32

/-- A 64-bit cipher word (R10). -/
abbrev Word64 := BitVec 64

/-- A 16-byte block `b`, held as the integer `be(b)` (R9, R10): byte 0 is bits 127:120 (DEDUCED,
log 18). -/
abbrev Block := BitVec 128

end Sys2Proof
end

