-- ==== Sys2Proof/Syntax.lean ====
section
/-! DEFINITION. The 25 commands of spec/30_encoding.md R92, one constructor a row of spec/opcode_table.json. -/

namespace Sys2Proof

/-- A legal command. Only OMAC.INITNEXT carries an operand in its word, the domain tag `t` (R96); every other operand
is an argument register (R93). -/
inductive Instr where
  /-- CIPH.KEYSIZE (40_cipher.md R133) -/
  | ciphKeysize
  /-- CIPH.BLOCKSIZE (40_cipher.md R134) -/
  | ciphBlocksize
  /-- CIPH.SETKEY (40_cipher.md R132) -/
  | ciphSetkey
  /-- CIPH.ENCRYPT (40_cipher.md R135) -/
  | ciphEncrypt
  /-- CIPH.DECRYPT (40_cipher.md R136) -/
  | ciphDecrypt
  /-- CIPH.CLEAR (40_cipher.md R137) -/
  | ciphClear
  /-- OMAC.INITFIRST (41_omac.md R169) -/
  | omacInitfirst
  /-- OMAC.INITNEXT #t (41_omac.md R170) -/
  | omacInitnext (t : Byte)
  /-- OMAC.UPDATE (41_omac.md R171) -/
  | omacUpdate
  /-- OMAC.FINALIZE (41_omac.md R172) -/
  | omacFinalize
  /-- OMAC.CLEAR (41_omac.md R173) -/
  | omacClear
  /-- EAX.SETKEY (42_eax.md R193) -/
  | eaxSetkey
  /-- EAX.SETIV (42_eax.md R194) -/
  | eaxSetiv
  /-- EAX.ADDAUTH (42_eax.md R195) -/
  | eaxAddauth
  /-- EAX.ENCRYPT (42_eax.md R197) -/
  | eaxEncrypt
  /-- EAX.DECRYPT (42_eax.md R198) -/
  | eaxDecrypt
  /-- EAX.COMPUTETAG (42_eax.md R200) -/
  | eaxComputetag
  /-- EAX.CHECKTAG (42_eax.md R201) -/
  | eaxChecktag
  /-- EAX.CLEAR (42_eax.md R202) -/
  | eaxClear
  /-- XTS.SETSECTORSIZE (43_xts.md R240) -/
  | xtsSetsectorsize
  /-- XTS.SETKEY (43_xts.md R241) -/
  | xtsSetkey
  /-- XTS.SETTWEAK (43_xts.md R242) -/
  | xtsSettweak
  /-- XTS.ENCSECTOR (43_xts.md R243) -/
  | xtsEncsector
  /-- XTS.DECSECTOR (43_xts.md R244) -/
  | xtsDecsector
  /-- XTS.CLEAR (43_xts.md R246) -/
  | xtsClear
  deriving DecidableEq, Repr

end Sys2Proof
end

