-- ==== Sys2Proof/Decode.lean ====
section
/-! DEFINITION. Decoding a command word and encoding a command (spec/30_encoding.md R90 to R96). -/

namespace Sys2Proof

/-- OPC, bits 7:0 of a command word (R90). -/
def opcField (w : Word) : Byte := w.extractLsb' 0 8

/-- IMM8, bits 15:8 of a command word (R90). -/
def immField (w : Word) : Byte := w.extractLsb' 8 8

/-- RSVD, bits 31:16 of a command word (R90). -/
def rsvdField (w : Word) : BitVec 16 := w.extractLsb' 16 16

/-- Why a word is no legal command: steps 1 to 3 of R94, in their order. -/
inductive DecodeError where
  | reservedBits
  | unassignedOpcode
  | immediateNotZero
  deriving DecidableEq, Repr

/-- The opcode map R92: the command of an opcode, given the immediate; none for an unassigned opcode (R95). -/
def instrOfOpcode (opc imm : Byte) : Option Instr :=
  match opc with
  | 0x10#8 => some .ciphKeysize
  | 0x11#8 => some .ciphBlocksize
  | 0x12#8 => some .ciphSetkey
  | 0x13#8 => some .ciphEncrypt
  | 0x14#8 => some .ciphDecrypt
  | 0x15#8 => some .ciphClear
  | 0x20#8 => some .omacInitfirst
  | 0x21#8 => some (.omacInitnext imm)
  | 0x22#8 => some .omacUpdate
  | 0x23#8 => some .omacFinalize
  | 0x24#8 => some .omacClear
  | 0x30#8 => some .eaxSetkey
  | 0x31#8 => some .eaxSetiv
  | 0x32#8 => some .eaxAddauth
  | 0x33#8 => some .eaxEncrypt
  | 0x34#8 => some .eaxDecrypt
  | 0x35#8 => some .eaxComputetag
  | 0x36#8 => some .eaxChecktag
  | 0x37#8 => some .eaxClear
  | 0x40#8 => some .xtsSetsectorsize
  | 0x41#8 => some .xtsSetkey
  | 0x42#8 => some .xtsSettweak
  | 0x43#8 => some .xtsEncsector
  | 0x44#8 => some .xtsDecsector
  | 0x45#8 => some .xtsClear
  | _ => none

/-- R94, steps 1 to 3. Step 4 (a decrypt on a TINY slot) needs the parameters and stands first in the two meanings
it concerns (log 12). -/
def decode (w : Word) : Except DecodeError Instr :=
  if rsvdField w ≠ 0 then .error .reservedBits
  else
    match instrOfOpcode (opcField w) (immField w) with
    | none => .error .unassignedOpcode
    | some i => if immField w ≠ 0 ∧ opcField w ≠ 0x21#8 then .error .immediateNotZero else .ok i

/-- The opcode of a command (R92). -/
def Instr.opcode : Instr → Byte
  | .ciphKeysize => 0x10#8
  | .ciphBlocksize => 0x11#8
  | .ciphSetkey => 0x12#8
  | .ciphEncrypt => 0x13#8
  | .ciphDecrypt => 0x14#8
  | .ciphClear => 0x15#8
  | .omacInitfirst => 0x20#8
  | .omacInitnext _ => 0x21#8
  | .omacUpdate => 0x22#8
  | .omacFinalize => 0x23#8
  | .omacClear => 0x24#8
  | .eaxSetkey => 0x30#8
  | .eaxSetiv => 0x31#8
  | .eaxAddauth => 0x32#8
  | .eaxEncrypt => 0x33#8
  | .eaxDecrypt => 0x34#8
  | .eaxComputetag => 0x35#8
  | .eaxChecktag => 0x36#8
  | .eaxClear => 0x37#8
  | .xtsSetsectorsize => 0x40#8
  | .xtsSetkey => 0x41#8
  | .xtsSettweak => 0x42#8
  | .xtsEncsector => 0x43#8
  | .xtsDecsector => 0x44#8
  | .xtsClear => 0x45#8

/-- The immediate of a command: OMAC.INITNEXT's domain tag, 0 for every other (R90, R96). -/
def Instr.immediate : Instr → Byte
  | .omacInitnext t => t
  | .ciphKeysize | .ciphBlocksize | .ciphSetkey | .ciphEncrypt | .ciphDecrypt | .ciphClear => 0
  | .omacInitfirst | .omacUpdate | .omacFinalize | .omacClear => 0
  | .eaxSetkey | .eaxSetiv | .eaxAddauth | .eaxEncrypt | .eaxDecrypt | .eaxComputetag | .eaxChecktag | .eaxClear => 0
  | .xtsSetsectorsize | .xtsSetkey | .xtsSettweak | .xtsEncsector | .xtsDecsector | .xtsClear => 0

/-- The word of a command: RSVD = 0, then IMM8, then OPC (R90, R99). -/
def encode (i : Instr) : Word := i.immediate.setWidth 32 <<< 8 ||| i.opcode.setWidth 32

/-- The command the decoder reads from a table row's bits, bit 0 the least significant bit of the word; the bits from
`nbits` up are 0. -/
def decodeTableWord (nbits w : Nat) : Option Instr :=
  match decode (BitVec.ofNat 32 (w % 2 ^ nbits)) with
  | .ok i => some i
  | .error _ => none

end Sys2Proof
end

