-- ==== Sys2Proof/Machine/Bytes.lean ====
section
/-! DEFINITION. Byte strings and blocks (spec/00_scope.md R9, R10), and doubling in GF(2^128) in its two byte orders
(41_omac.md R160, 43_xts.md R231). -/

namespace Sys2Proof.Machine

/-- `be(b)`: the integer whose most significant byte is `b[0]` (R10). -/
def be : List Byte → Nat
  | [] => 0
  | b :: bs => b.toNat * 256 ^ bs.length + be bs

/-- `BE_n(v)` (R10). -/
def toBE : Nat → Nat → List Byte
  | 0, _ => []
  | n + 1, v => BitVec.ofNat 8 (v / 256 ^ n) :: toBE n v

/-- `le(b)`: the integer whose least significant byte is `b[0]` (R10). -/
def le : List Byte → Nat
  | [] => 0
  | b :: bs => b.toNat + 256 * le bs

/-- `LE_n(v)` (R10). -/
def toLE : Nat → Nat → List Byte
  | 0, _ => []
  | n + 1, v => BitVec.ofNat 8 v :: toLE n (v / 256)

/-- The block of 16 bytes (R9). -/
def blockOfBytes (bs : List Byte) : Block := BitVec.ofNat 128 (be bs)

/-- The 16 bytes of a block, byte 0 first (R9). -/
def blockBytes (b : Block) : List Byte := toBE 16 b.toNat

/-- Byte `b[i]` of a block, `i` in 0..15 (R9). -/
def blockByte (b : Block) (i : Nat) : Byte := b.extractLsb' (8 * (15 - i)) 8

/-- `b[i] <- b[i] xor v`, the other bytes unchanged, `i` in 0..15. -/
def xorByteAt (b : Block) (i : Nat) (v : Byte) : Block := b ^^^ (v.setWidth 128 <<< (8 * (15 - i)))

/-- Byte-wise exclusive or of two byte strings of one length (R9). -/
def xorBytes (a b : List Byte) : List Byte := List.zipWith (· ^^^ ·) a b

/-- `0^n` (R9). -/
def zeroBytes (n : Nat) : List Byte := List.replicate n 0

/-- `Dbl_BE(b)`, byte 0 most significant (41_omac.md R160). -/
def dblBE (b : Block) : Block :=
  if b.getLsbD 127 then (b <<< 1) ^^^ 0x87#128 else b <<< 1

/-- `Dbl_LE(b)`, byte 0 least significant (43_xts.md R231): the same step on the integer `le(b)`. -/
def dblLE (b : Block) : Block :=
  blockOfBytes (toLE 16 (dblBE (BitVec.ofNat 128 (le (blockBytes b)))).toNat)

/-- `Dbl_LE^n(b)` (43_xts.md R233). -/
def dblLEpow : Nat → Block → Block
  | 0, b => b
  | n + 1, b => dblLEpow n (dblLE b)

end Sys2Proof.Machine
end

