-- ==== Sys2Proof/Config.lean ====
section
/-! DEFINITION. What an implementation of BCME fixes: the parameters of spec/00_scope.md R8.
They are an argument of the model, held as plain data in the state and changed by no step (10_state.md R29). -/

namespace Sys2Proof

/-- The variant of a cipher slot (00_scope.md R8, 10_state.md R34). -/
inductive Variant where
  | full
  | small
  | tiny
  deriving DecidableEq, Repr

/-- A stretch of buffer memory, `size` bytes from address `base` (20_memory.md R71). -/
structure Region where
  base : Nat
  size : Nat
  deriving DecidableEq, Repr

/-- The parameters of R8. `regions`, `refusedRanges`, `base` and `windowMapped` are the platform predicate
`Admit(a, n)` as plain data (DESIGN CHOICE, log 3, log 4): a range is admitted when some region holds all of it, it is
not one of the exact ranges refused, and it does not overlap a window mapped into the buffer space (20_memory.md R61).
Every predicate on 32-bit ranges has this form (`Sys2Proof.Laws.admits_expresses_any_predicate`). -/
structure Params where
  varC0 : Variant
  varE : Variant
  varX1 : Variant
  varX2 : Variant
  xtsSingleKey : Bool
  regions : List Region
  refusedRanges : List (Nat × Nat)
  base : Word
  windowMapped : Bool
  deriving DecidableEq, Repr

/-- The parameters State.reset holds: R8's defaults for the variants and the key binding; for the platform, all of
the 32-bit buffer space admitted and a window of its own (DESIGN CHOICE, log 3, log 4). -/
def Params.standard : Params where
  varC0 := .full
  varE := .full
  varX1 := .full
  varX2 := .full
  xtsSingleKey := false
  regions := [{ base := 0, size := 2 ^ 32 }]
  refusedRanges := []
  base := 0
  windowMapped := false

end Sys2Proof
end

