-- ==== Sys2Proof/Machine/HostOp.lean ====
section
/-! DEFINITION. The host's accesses (spec/60_exceptions.md R288, 30_encoding.md R97): what the outside world can do to
BCME, one access at a time. -/

namespace Sys2Proof.Machine

/-- The width of a host access to the register window (10_state.md R31). -/
inductive AccessWidth where
  | byte
  | half
  | word
  deriving DecidableEq, Repr

/-- One access. A window access names its byte offset from BASE (R21); a buffer-memory access moves one byte, a wider
one being several accesses in a row (log 8), and is defined only outside a mapped window (log 19). `platformReset` is the platform's reset, which falls between commands
(70_reset_and_hazards.md R300; log 10). -/
inductive HostOp where
  | writeReg (offset : Byte) (width : AccessWidth) (value : Word)
  | readReg (offset : Byte) (width : AccessWidth)
  | storeByte (addr : Word) (value : Byte)
  | loadByte (addr : Word)
  | platformReset
  deriving DecidableEq, Repr

/-- A value the host has read (70_reset_and_hazards.md R319). -/
inductive Reading where
  | reg (offset : Byte) (value : Word)
  | byte (addr : Word) (value : Byte)
  deriving DecidableEq, Repr

/-- R31: a register access is a 32-bit access at an offset that is a multiple of 4. -/
def regAccessIsWord (offset : Byte) (width : AccessWidth) : Bool :=
  width == .word && offset.toNat % 4 == 0

end Sys2Proof.Machine
end

