-- ==== Sys2Proof/Machine/State.lean ====
section
/-! DEFINITION. The state of BCME as plain data (spec/10_state.md), the state after reset, and how a step can stop. -/

namespace Sys2Proof.Machine

/-- A cipher slot (10_state.md R32): `ks` is `ks[0..33]`, of which `ks[0..rounds-1]` is used. -/
structure Slot where
  keyed : Bool
  rounds : Nat
  ks : Vector Word64 34
  deriving DecidableEq, Repr

/-- An OMAC context (R35, 41_omac.md R162): the subkey, the accumulator and the fill position 0..16. -/
structure OmacCtx where
  B : Block
  acc : Block
  posn : Nat
  deriving DecidableEq, Repr

/-- The phase of the OMAC unit (R36). -/
inductive OmacPhase where
  | unset
  | ready
  | final
  deriving DecidableEq, Repr

/-- The OMAC unit O (R35), which uses slot C0. -/
structure Omac where
  phase : OmacPhase
  ctx : OmacCtx
  deriving DecidableEq, Repr

/-- The phase of the EAX unit (R38). -/
inductive EaxPhase where
  | uninit
  | keyed
  | aad
  | enc
  | tagged
  deriving DecidableEq, Repr

/-- The EAX unit (R37), which uses slot E. -/
structure Eax where
  phase : EaxPhase
  ctr : Block
  stream : Block
  tag : Block
  o : OmacCtx
  encPosn : Nat
  deriving DecidableEq, Repr

/-- The phase of the XTS unit (R40). -/
inductive XtsPhase where
  | unkeyed
  | keyed
  | tweaked
  deriving DecidableEq, Repr

/-- The XTS unit (R39), which uses slots X1 (payload) and X2 (tweak). -/
structure Xts where
  phase : XtsPhase
  T : Block
  sectSize : Word
  deriving DecidableEq, Repr

/-- Buffer memory (20_memory.md R60): the listed bytes, by rising address, none equal to what an unlisted address
reads as (log 5). -/
abbrev Memory := List Host.Cell

/-- The whole machine. The window's CMD, STATE, SECTSIZE and CONFIG hold no state of their own (R22, R27 to R29).
`pending` is the rest of the host's program, `pos` the index of its next access (R24) and `readings` the values it has
read, newest first (70_reset_and_hazards.md R319; log 1, log 9). -/
structure State where
  params : Params
  status : Word
  src : Word
  dst : Word
  len : Word
  result : Word
  c0 : Slot
  e : Slot
  x1 : Slot
  x2 : Slot
  omac : Omac
  eax : Eax
  xts : Xts
  mem : Memory
  pending : List HostOp
  pos : Nat
  readings : List Reading
  deriving DecidableEq, Repr

/-- The machine never faults: every error is a status code, after which it goes on, and the only stop of R289 is a
refusal (60_exceptions.md R275, R289; log 16). -/
inductive Fault where
  deriving DecidableEq, Repr

/-- Why the model gives an access no meaning. -/
inductive Refusal where
  /-- Raised by exec's arm of an instruction whose meaning is not written; no arm raises it. Safe. -/
  | notModelled (mnemonic : String)
  /-- Raised by a host access to the window that is narrower than 32 bits or misaligned, a byte access by address inside
  a mapped window included: the platform parameter HostSubwordAccess is open and a model refuses it (10_state.md R31,
  60_exceptions.md R289(a); log 7, log 19). Safe. -/
  | hostSubwordAccess
  deriving DecidableEq, Repr

/-- The outcome of one step of this machine. -/
abbrev Outcome := Host.Outcome State Fault Refusal

/-- A slot after reset or CLEAR: unkeyed, no rounds, a schedule of zeros (R45, 40_cipher.md R137). -/
def Slot.zero : Slot := { keyed := false, rounds := 0, ks := Vector.replicate 34 0 }

/-- An OMAC context of zeros (R45). -/
def OmacCtx.zero : OmacCtx := { B := 0, acc := 0, posn := 0 }

/-- The OMAC unit after reset or CLEAR (R45, 41_omac.md R173). -/
def Omac.zero : Omac := { phase := .unset, ctx := OmacCtx.zero }

/-- The EAX unit after reset or CLEAR (R45, 42_eax.md R202). -/
def Eax.zero : Eax := { phase := .uninit, ctr := 0, stream := 0, tag := 0, o := OmacCtx.zero, encPosn := 0 }

/-- The XTS unit after reset (R45): no tweak, sectors of 512 bytes. -/
def Xts.initial : Xts := { phase := .unkeyed, T := 0, sectSize := 512 }

/-- The machine right after reset (R21, R45, 70_reset_and_hazards.md R301), with nothing in memory (log 5) and no host
access pending (log 1). -/
def State.reset : State where
  params := Params.standard
  status := 0
  src := 0
  dst := 0
  len := 0
  result := 0
  c0 := Slot.zero
  e := Slot.zero
  x1 := Slot.zero
  x2 := Slot.zero
  omac := Omac.zero
  eax := Eax.zero
  xts := Xts.initial
  mem := []
  pending := []
  pos := 0
  readings := []

end Sys2Proof.Machine
end

