-- ==== Sys2Proof/Machine/Flags.lean ====
section
/-! DEFINITION. The status codes and the words of STATUS, STATE and CONFIG (spec/60_exceptions.md R272,
10_state.md R23, R27, R29). -/

namespace Sys2Proof.Machine

/-- The error of `raise CmdError(code)` (60_exceptions.md R272, in the order of priority R274). -/
inductive CmdError where
  | illegal
  | unsupported
  | seq
  | keylen
  | len
  | overlap
  | bus
  deriving DecidableEq, Repr

/-- CODE of a command that completed (R272). -/
def codeOk : Byte := 0x00

/-- CODE of a failed command (R272). -/
def errorCode : CmdError → Byte
  | .illegal => 0x01
  | .unsupported => 0x02
  | .seq => 0x03
  | .keylen => 0x04
  | .len => 0x05
  | .overlap => 0x06
  | .bus => 0x07

/-- STATUS: CODE in bits 7:0, OPC in bits 15:8, zeros above (10_state.md R23). -/
def statusWord (opc code : Byte) : Word := opc.setWidth 32 <<< 8 ||| code.setWidth 32

/-- CODE of a STATUS value (10_state.md R23). -/
def statusCode (v : Word) : Byte := v.extractLsb' 0 8

/-- OPC of a STATUS value (10_state.md R23). -/
def statusOpc (v : Word) : Byte := v.extractLsb' 8 8

/-- OMAC_PHASE (10_state.md R27). -/
def omacPhaseCode : OmacPhase → Nat
  | .unset => 0
  | .ready => 1
  | .final => 2

/-- EAX_PHASE (10_state.md R27). -/
def eaxPhaseCode : EaxPhase → Nat
  | .uninit => 0
  | .keyed => 1
  | .aad => 2
  | .enc => 3
  | .tagged => 4

/-- XTS_PHASE (10_state.md R27). -/
def xtsPhaseCode : XtsPhase → Nat
  | .unkeyed => 0
  | .keyed => 1
  | .tweaked => 2

/-- STATE: C0_KEYED in bit 0, OMAC_PHASE in bits 2:1, EAX_PHASE in bits 6:4, XTS_PHASE in bits 9:8 (10_state.md R27). -/
def stateWord (s : State) : Word :=
  BitVec.ofNat 32 (s.c0.keyed.toNat + omacPhaseCode s.omac.phase <<< 1 + eaxPhaseCode s.eax.phase <<< 4
    + xtsPhaseCode s.xts.phase <<< 8)

/-- The two-bit code of a variant (10_state.md R29). -/
def variantCode : Variant → Nat
  | .full => 0
  | .small => 1
  | .tiny => 2

/-- CONFIG: the variants of C0, E, X1 and X2 in two bits each from bit 0, XTS_SINGLE in bit 8 (10_state.md R29). -/
def configWord (p : Params) : Word :=
  BitVec.ofNat 32 (variantCode p.varC0 + variantCode p.varE <<< 2 + variantCode p.varX1 <<< 4
    + variantCode p.varX2 <<< 6 + p.xtsSingleKey.toNat <<< 8)

end Sys2Proof.Machine
end

