-- ==== Sys2Proof/Machine/Ops.lean ====
section
/-! DEFINITION. The named operations over memory and state: byte and range accesses, the platform predicate and the
range checks (spec/20_memory.md), the updates of each field, and the completion of a command (60_exceptions.md R270,
R273), which stands where other machines take an exception: BCME has none (R275, R278). -/

namespace Sys2Proof.Machine

/-! ## Buffer memory -/

/-- What an unlisted address reads as (DESIGN CHOICE, log 5). -/
def unlistedByte : Byte := 0

/-- The byte at an address. -/
def readByte (m : Memory) (a : Nat) : Byte :=
  match m.find? (fun c => c.1 == a) with
  | some c => c.2
  | none => unlistedByte

/-- The list with a cell put in its place by address. -/
def insertCell (a : Nat) (v : Byte) : Memory → Memory
  | [] => [(a, v)]
  | c :: m => if a < c.1 then (a, v) :: c :: m else c :: insertCell a v m

/-- One byte written; writing what an unlisted address reads as removes the entry. -/
def writeByte (m : Memory) (a : Nat) (v : Byte) : Memory :=
  let others := m.filter fun c => c.1 != a
  if v = unlistedByte then others else insertCell a v others

/-- `MemRead(a, n)` (00_scope.md R11). -/
def memRead (m : Memory) (a n : Nat) : List Byte :=
  (List.range n).map fun i => readByte m (a + i)

/-- `MemWrite(a, n, v)` for the `n` bytes of `v` (00_scope.md R11). -/
def memWrite (m : Memory) (a : Nat) : List Byte → Memory
  | [] => m
  | v :: vs => memWrite (writeByte m a v) (a + 1) vs

/-- The canonical form: addresses strictly rising, no entry equal to what an unlisted address reads as. -/
def Memory.wf : Memory → Bool
  | [] => true
  | [c] => c.2 != unlistedByte
  | c :: d :: m => c.2 != unlistedByte && decide (c.1 < d.1) && Memory.wf (d :: m)

/-- Every listed address is an address of the 32-bit buffer space (20_memory.md R60). -/
def Memory.inSpace (m : Memory) : Bool := m.all fun c => decide (c.1 < 2 ^ 32)

/-! ## Ranges -/

/-- The range lies wholly inside the region. -/
def regionHolds (r : Region) (a n : Nat) : Bool := decide (r.base ≤ a ∧ a + n ≤ r.base + r.size)

/-- The range overlaps `[BASE, BASE + 256)` (20_memory.md R61). -/
def overlapsWindow (p : Params) (a n : Nat) : Bool :=
  decide (0 < n ∧ a < p.base.toNat + 256 ∧ p.base.toNat < a + n)

/-- The range overlaps a window that the platform maps into the buffer address space (20_memory.md R61). -/
def hitsMappedWindow (p : Params) (a n : Nat) : Bool := p.windowMapped && overlapsWindow p a n

/-- `Admit(a, n)` (00_scope.md R8, 20_memory.md R61; log 3). -/
def admits (p : Params) (a n : Nat) : Bool :=
  p.regions.any (fun r => regionHolds r a n) && !p.refusedRanges.contains (a, n)
    && !hitsMappedWindow p a n

/-- A valid range (20_memory.md R65): empty, or inside the 32-bit space without wrapping and admitted. -/
def rangeValid (p : Params) (a : Word) (n : Nat) : Bool :=
  n == 0 || (decide (a.toNat + n ≤ 2 ^ 32) && admits p a.toNat n)

/-- The ranges `(a, n)` and `(b, n)` partly overlap (20_memory.md R69(b)). -/
def partlyOverlap (a b : Word) (n : Nat) : Bool :=
  decide (0 < n ∧ a ≠ b ∧ a.toNat < b.toNat + n ∧ b.toNat < a.toNat + n)

/-! ## Updates of one field -/

/-- A host write of SRC. -/
def State.setSrc (s : State) (v : Word) : State := { s with src := v }
/-- A host write of DST. -/
def State.setDst (s : State) (v : Word) : State := { s with dst := v }
/-- A host write of LEN. -/
def State.setLen (s : State) (v : Word) : State := { s with len := v }
/-- Slot C0 replaced. -/
def State.setC0 (s : State) (v : Slot) : State := { s with c0 := v }
/-- Slot E replaced. -/
def State.setE (s : State) (v : Slot) : State := { s with e := v }
/-- Slot X1 replaced. -/
def State.setX1 (s : State) (v : Slot) : State := { s with x1 := v }
/-- Slot X2 replaced. -/
def State.setX2 (s : State) (v : Slot) : State := { s with x2 := v }
/-- The OMAC unit replaced. -/
def State.setOmac (s : State) (v : Omac) : State := { s with omac := v }
/-- The EAX unit replaced. -/
def State.setEax (s : State) (v : Eax) : State := { s with eax := v }
/-- The XTS unit replaced. -/
def State.setXts (s : State) (v : Xts) : State := { s with xts := v }
/-- Buffer memory replaced. -/
def State.setMem (s : State) (v : Memory) : State := { s with mem := v }
/-- The host's next access taken off its program, and the position advanced by one (10_state.md R24). -/
def State.advance (s : State) (rest : List HostOp) : State := { s with pending := rest, pos := s.pos + 1 }
/-- A value the host has read (70_reset_and_hazards.md R319). -/
def State.record (s : State) (r : Reading) : State := { s with readings := r :: s.readings }
/-- STATUS and RESULT, written once at the end of every command (10_state.md R23, R26). -/
def State.finish (s : State) (opc code : Byte) (r : Word) : State :=
  { s with status := statusWord opc code, result := r }

/-! ## Completion of a command -/

/-- `raise CmdError(code)` (60_exceptions.md R273): STATUS and RESULT, and nothing else. -/
def State.failed (s : State) (opc : Byte) (c : CmdError) : State := s.finish opc (errorCode c) 0

/-- R270 step 4: an error has the effects of R273; otherwise the command's writes take effect, STATUS is OK and RESULT
the command's result. -/
def complete (opc : Byte) (s : State) : Except CmdError (State × Word) → Outcome
  | .error c => .next (s.failed opc c)
  | .ok (s', r) => .next (s'.finish opc codeOk r)

end Sys2Proof.Machine
end

