-- ==== Sys2Proof/Machine/Operands.lean ====
section
/-! DEFINITION. The operand forms of spec/30_encoding.md R93: ranges at SRC and DST, with the length in LEN, fixed at
16, or the sector size. -/

namespace Sys2Proof.Machine

/-- LEN as a number (10_state.md R25). -/
def State.lenNat (s : State) : Nat := s.len.toNat

/-- The sector size as a number (30_encoding.md R93, `s`). -/
def State.sectorNat (s : State) : Nat := s.xts.sectSize.toNat

/-- `check range (R[SRC], n)` passes (00_scope.md R11). -/
def State.srcValid (s : State) (n : Nat) : Bool := rangeValid s.params s.src n

/-- `check range (R[DST], n)` passes (00_scope.md R11). -/
def State.dstValid (s : State) (n : Nat) : Bool := rangeValid s.params s.dst n

/-- Ranges `(R[SRC], n)` and `(R[DST], n)` partly overlap (20_memory.md R69(b)). -/
def State.srcDstOverlap (s : State) (n : Nat) : Bool := partlyOverlap s.src s.dst n

/-- `MemRead(R[SRC], n)`. -/
def State.srcBytes (s : State) (n : Nat) : List Byte := memRead s.mem s.src.toNat n

/-- The block at SRC: `MemRead(R[SRC], 16)`. -/
def State.srcBlock (s : State) : Block := blockOfBytes (s.srcBytes 16)

/-- `MemWrite(R[DST], n, v)` for the `n` bytes of `v`. -/
def State.storeDst (s : State) (v : List Byte) : State := s.setMem (memWrite s.mem s.dst.toNat v)

end Sys2Proof.Machine
end

