-- ==== Sys2Proof/Machine/Cipher.lean ====
section
/-! DEFINITION. The lightweight cipher family and the six CIPH commands on slot C0 (spec/40_cipher.md). -/

namespace Sys2Proof.Machine

/-! ## The cipher -/

/-- The 64-bit halves `x` (bytes 0..7) and `y` (bytes 8..15) of a block (R124). -/
def unpackBlock (b : Block) : Word64 × Word64 := (b.extractLsb' 64 64, b.extractLsb' 0 64)

/-- The block of two halves (R124). -/
def packBlock (p : Word64 × Word64) : Block := p.1.setWidth 128 <<< 64 ||| p.2.setWidth 128

/-- One round of encryption with a subkey (R123). -/
def encRound (p : Word64 × Word64) (k : Word64) : Word64 × Word64 :=
  let x := (p.1.rotateRight 8 + p.2) ^^^ k
  (x, p.2.rotateLeft 3 ^^^ x)

/-- One round of decryption with a subkey (R125). -/
def decRound (p : Word64 × Word64) (k : Word64) : Word64 × Word64 :=
  let y := (p.1 ^^^ p.2).rotateRight 3
  (((p.1 ^^^ k) - y).rotateLeft 8, y)

/-- `Encrypt(ks, b)` (R123). -/
def encryptWith (ks : List Word64) (b : Block) : Block := packBlock (ks.foldl encRound (unpackBlock b))

/-- `Decrypt(ks, b)` (R125): the subkeys in reverse order. -/
def decryptWith (ks : List Word64) (b : Block) : Block := packBlock (ks.reverse.foldl decRound (unpackBlock b))

/-! ## The key schedule -/

/-- The accepted key lengths (R122). -/
def keyLenOk (n : Nat) : Bool := n == 16 || n == 24 || n == 32

/-- The round count `30 + m`, `m = n / 8` (R122). -/
def roundsOf (key : List Byte) : Nat := 30 + key.length / 8

/-- The big-endian key words `w[0..m-1]` (R126). -/
def keyWords (key : List Byte) : List Word64 :=
  (List.range (key.length / 8)).map fun j => BitVec.ofNat 64 (be ((key.drop (8 * j)).take 8))

/-- The first subkey `k[0]` and the rotating register `l[0..m-2]` (R126). -/
def keyInit (key : List Byte) : Word64 × List Word64 :=
  ((keyWords key).getLastD 0, (keyWords key).dropLast.reverse)

/-- One step of the generator, from `(k[i], l[i..i+m-2])` to `(k[i+1], l[i+1..i+m-1])` (R127). -/
def keyStep (i : Nat) (r : Word64 × List Word64) : Word64 × List Word64 :=
  let l := (r.1 + (r.2.headD 0).rotateRight 8) ^^^ BitVec.ofNat 64 i
  (r.1.rotateLeft 3 ^^^ l, r.2.tail ++ [l])

/-- `n` subkeys from step `i` on (R127). -/
def expandKey : Nat → Nat → Word64 × List Word64 → List Word64
  | 0, _, _ => []
  | n + 1, i, r => r.1 :: expandKey n (i + 1) (keyStep i r)

/-- `KeySchedule(key)`: the subkeys `ks[0..R-1]` (R127). -/
def keySchedule (key : List Byte) : List Word64 := expandKey (roundsOf key) 0 (keyInit key)

/-! ## The SMALL and TINY ways to the same subkeys (R129, R130)

No state holds what a variant stores (10_state.md R34; log 13). These definitions are the two variants' own
computations; the commands use the schedule of R127, to which R129 and R130 make them equal. -/

/-- The generator after `n` steps from step `i`. -/
def keyAfter : Nat → Nat → Word64 × List Word64 → Word64 × List Word64
  | 0, _, r => r
  | n + 1, i, r => keyAfter n (i + 1) (keyStep i r)

/-- SMALL's tail state `(k[R-1], l[R-1..R+m-3])` (R129). -/
def keyTail (key : List Byte) : Word64 × List Word64 := keyAfter (roundsOf key - 1) 0 (keyInit key)

/-- SMALL's step backward, from the words of step `i + 1` to those of step `i` (R129). -/
def keyStepBack (i : Nat) (r : Word64 × List Word64) : Word64 × List Word64 :=
  let l := r.2.getLastD 0
  let k := (r.1 ^^^ l).rotateRight 3
  (k, ((l ^^^ BitVec.ofNat 64 i) - k).rotateLeft 8 :: r.2.dropLast)

/-- The subkeys from `k[i]` down to `k[0]`, from the words of step `i` (R129). -/
def expandBack : Nat → Word64 × List Word64 → List Word64
  | 0, r => [r.1]
  | i + 1, r => r.1 :: expandBack i (keyStepBack i r)

/-- SMALL's decryption: every subkey regenerated backward from the tail state (R129). -/
def decryptSmall (key : List Byte) (b : Block) : Block :=
  packBlock ((expandBack (roundsOf key - 1) (keyTail key)).foldl decRound (unpackBlock b))

/-- `n` rounds from round `i`, each subkey made when it is used (R130). -/
def encryptFly : Nat → Nat → Word64 × List Word64 → Word64 × Word64 → Word64 × Word64
  | 0, _, _, p => p
  | n + 1, i, r, p => encryptFly n (i + 1) (keyStep i r) (encRound p r.1)

/-- TINY's encryption: every subkey regenerated from the key (R130). -/
def encryptTiny (key : List Byte) (b : Block) : Block :=
  packBlock (encryptFly (roundsOf key) 0 (keyInit key) (unpackBlock b))

/-! ## Slots -/

/-- The subkeys a slot uses, `ks[0..rounds-1]` (10_state.md R32). -/
def Slot.subkeys (s : Slot) : List Word64 := s.ks.toList.take s.rounds

/-- `(s.rounds, s.ks) <- KeySchedule(key); s.keyed <- true`: the whole schedule is replaced, whatever the slot held
(R132, 10_state.md R32). The words from `ks[R]` on, which no round uses, are zero (DEDUCED, log 6). -/
def Slot.ofKey (key : List Byte) : Slot :=
  { keyed := true
    rounds := roundsOf key
    ks := Vector.ofFn fun i => (keySchedule key).getD i.val 0 }

/-- `BlockEncrypt(s, b)` (R121). -/
def blockEncrypt (s : Slot) (b : Block) : Block := encryptWith s.subkeys b

/-- `BlockDecrypt(s, b)` (R121). A TINY slot has none; the two commands that would call it there end before they do
(R130, 30_encoding.md R94). -/
def blockDecrypt (s : Slot) (b : Block) : Block := decryptWith s.subkeys b

/-! ## The commands -/

/-- CIPH.KEYSIZE (R133). -/
def execCiphKeysize (s : State) : Outcome := complete 0x10 s (.ok (s, 32))

/-- CIPH.BLOCKSIZE (R134). -/
def execCiphBlocksize (s : State) : Outcome := complete 0x11 s (.ok (s, 16))

/-- CIPH.SETKEY (R132). -/
def execCiphSetkey (s : State) : Outcome :=
  complete 0x12 s <|
    if !keyLenOk s.lenNat then .error .keylen
    else if !s.srcValid s.lenNat then .error .bus
    else .ok ((s.setC0 (Slot.ofKey (s.srcBytes s.lenNat))).setOmac { s.omac with phase := .unset }, 0)

/-- CIPH.ENCRYPT (R135). -/
def execCiphEncrypt (s : State) : Outcome :=
  complete 0x13 s <|
    if !s.c0.keyed then .error .seq
    else if !(s.srcValid 16 && s.dstValid 16) then .error .bus
    else .ok (s.storeDst (blockBytes (blockEncrypt s.c0 s.srcBlock)), 0)

/-- CIPH.DECRYPT (R136); the first check is step 4 of decoding (30_encoding.md R94). -/
def execCiphDecrypt (s : State) : Outcome :=
  complete 0x14 s <|
    if s.params.varC0 = .tiny then .error .unsupported
    else if !s.c0.keyed then .error .seq
    else if !(s.srcValid 16 && s.dstValid 16) then .error .bus
    else .ok (s.storeDst (blockBytes (blockDecrypt s.c0 s.srcBlock)), 0)

/-- CIPH.CLEAR (R137). -/
def execCiphClear (s : State) : Outcome :=
  complete 0x15 s (.ok ((s.setC0 Slot.zero).setOmac Omac.zero, 0))

end Sys2Proof.Machine
end

