-- ==== Sys2Proof/Machine/Omac.lean ====
section
/-! DEFINITION. The OMAC primitives and the five OMAC commands on context O and slot C0 (spec/41_omac.md). A primitive
reaches the cipher only as a function on blocks (40_cipher.md R121). -/

namespace Sys2Proof.Machine

/-- `OmacInitFirst(c, s)` (R163). -/
def omacInitFirst (enc : Block → Block) : OmacCtx := { B := dblBE (enc 0), acc := 0, posn := 0 }

/-- `OmacInitNext(c, t)` (R164): the accumulator is `0^15 || t`. -/
def omacInitNext (c : OmacCtx) (t : Byte) : OmacCtx := { c with acc := t.setWidth 128, posn := 16 }

/-- The loop body of `OmacUpdate` (R165): a full accumulator is encrypted when another byte arrives. -/
def omacAbsorb (enc : Block → Block) (c : OmacCtx) (d : Byte) : OmacCtx :=
  let c := if c.posn = 16 then { c with acc := enc c.acc, posn := 0 } else c
  { c with acc := xorByteAt c.acc c.posn d, posn := c.posn + 1 }

/-- `OmacUpdate(c, s, d)` (R165). -/
def omacUpdate (enc : Block → Block) (c : OmacCtx) (d : List Byte) : OmacCtx := d.foldl (omacAbsorb enc) c

/-- The last block of `OmacFinalize` before it is encrypted (R166). -/
def omacLastBlock (c : OmacCtx) : Block :=
  if c.posn = 16 then c.acc ^^^ c.B else xorByteAt c.acc c.posn 0x80 ^^^ dblBE c.B

/-- `OmacFinalize(c, s)` (R166): the tag is the accumulator left behind. -/
def omacFinalize (enc : Block → Block) (c : OmacCtx) : OmacCtx := { c with acc := enc (omacLastBlock c) }

/-- OMAC.INITFIRST (R169). -/
def execOmacInitfirst (s : State) : Outcome :=
  complete 0x20 s <|
    if !s.c0.keyed then .error .seq
    else .ok (s.setOmac { phase := .ready, ctx := omacInitFirst (blockEncrypt s.c0) }, 0)

/-- OMAC.INITNEXT #t (R170). -/
def execOmacInitnext (t : Byte) (s : State) : Outcome :=
  complete 0x21 s <|
    if s.omac.phase = .unset then .error .seq
    else .ok (s.setOmac { phase := .ready, ctx := omacInitNext s.omac.ctx t }, 0)

/-- OMAC.UPDATE (R171). -/
def execOmacUpdate (s : State) : Outcome :=
  complete 0x22 s <|
    if s.omac.phase ≠ .ready then .error .seq
    else if !s.srcValid s.lenNat then .error .bus
    else .ok (s.setOmac { s.omac with ctx := omacUpdate (blockEncrypt s.c0) s.omac.ctx (s.srcBytes s.lenNat) }, 0)

/-- OMAC.FINALIZE (R172). -/
def execOmacFinalize (s : State) : Outcome :=
  complete 0x23 s <|
    if s.omac.phase ≠ .ready then .error .seq
    else if !s.dstValid 16 then .error .bus
    else
      let c := omacFinalize (blockEncrypt s.c0) s.omac.ctx
      .ok ((s.storeDst (blockBytes c.acc)).setOmac { phase := .final, ctx := c }, 0)

/-- OMAC.CLEAR (R173). -/
def execOmacClear (s : State) : Outcome := complete 0x24 s (.ok (s.setOmac Omac.zero, 0))

end Sys2Proof.Machine
end

