-- ==== Sys2Proof/Machine/Eax.lean ====
section
/-! DEFINITION. The EAX controller and the eight EAX commands on slot E (spec/42_eax.md). -/

namespace Sys2Proof.Machine

/-- One more in a big-endian byte string, with the carry out of it; every byte is passed whatever the carry (R191). -/
def incBytes : List Byte → List Byte × Nat
  | [] => ([], 1)
  | b :: bs =>
    let r := incBytes bs
    let t := b.toNat + r.2
    (BitVec.ofNat 8 (t % 256) :: r.1, t / 256)

/-- `CtrIncrement(ctr)` (R191): the carry out of byte 0 is discarded. -/
def ctrIncrement (ctr : Block) : Block := blockOfBytes (incBytes (blockBytes ctr)).1

/-- The refill of `CtrXor`: a keystream block when the last is used up, and the counter advanced (R192). -/
def refillStream (enc : Block → Block) (x : Eax) : Eax :=
  if x.encPosn = 16 then { x with stream := enc x.ctr, encPosn := 0, ctr := ctrIncrement x.ctr } else x

/-- `CtrXor(d)` (R192): the output bytes and the unit left behind. -/
def ctrXor (enc : Block → Block) : Eax → List Byte → List Byte × Eax
  | x, [] => ([], x)
  | x, d :: ds =>
    let x := refillStream enc x
    let r := ctrXor enc { x with encPosn := x.encPosn + 1 } ds
    ((d ^^^ blockByte x.stream x.encPosn) :: r.1, r.2)

/-- `CloseAAD()` (R196). -/
def closeAad (enc : Block → Block) (x : Eax) : Eax :=
  let c := omacFinalize enc x.o
  { x with tag := x.tag ^^^ c.acc, o := omacInitNext c 0x02, phase := .enc }

/-- `if EAX.phase = AAD: CloseAAD()` (R197, R198, R199). -/
def endAad (enc : Block → Block) (x : Eax) : Eax := if x.phase = .aad then closeAad enc x else x

/-- `CloseTag()` (R199). -/
def closeTag (enc : Block → Block) (x : Eax) : Eax :=
  let x := endAad enc x
  let c := omacFinalize enc x.o
  { x with tag := x.tag ^^^ c.acc, o := c, phase := .tagged }

/-- The unit after SETIV (R194). -/
def startMessage (enc : Block → Block) (x : Eax) (iv : List Byte) : Eax :=
  let c := omacFinalize enc (omacUpdate enc (omacInitNext (omacInitFirst enc) 0x00) iv)
  { x with ctr := c.acc, tag := c.acc, o := omacInitNext c 0x01, encPosn := 16, phase := .aad }

/-- The phases in which data and tag commands are legal (R190). -/
def inMessage (x : Eax) : Bool := x.phase == .aad || x.phase == .enc

/-- The comparison of CHECKTAG (R201): all differences gathered, no early exit. -/
def tagDifference : List Byte → List Byte → Byte
  | a :: as, b :: bs => (a ^^^ b) ||| tagDifference as bs
  | _, _ => 0

/-- EAX.SETKEY (R193). -/
def execEaxSetkey (s : State) : Outcome :=
  complete 0x30 s <|
    if !keyLenOk s.lenNat then .error .keylen
    else if !s.srcValid s.lenNat then .error .bus
    else .ok ((s.setE (Slot.ofKey (s.srcBytes s.lenNat))).setEax { s.eax with phase := .keyed }, 0)

/-- EAX.SETIV (R194). -/
def execEaxSetiv (s : State) : Outcome :=
  complete 0x31 s <|
    if s.eax.phase = .uninit then .error .seq
    else if s.lenNat < 1 ∨ 16 < s.lenNat then .error .len
    else if !s.srcValid s.lenNat then .error .bus
    else .ok (s.setEax (startMessage (blockEncrypt s.e) s.eax (s.srcBytes s.lenNat)), 0)

/-- EAX.ADDAUTH (R195). -/
def execEaxAddauth (s : State) : Outcome :=
  complete 0x32 s <|
    if s.eax.phase ≠ .aad then .error .seq
    else if !s.srcValid s.lenNat then .error .bus
    else .ok (s.setEax { s.eax with o := omacUpdate (blockEncrypt s.e) s.eax.o (s.srcBytes s.lenNat) }, 0)

/-- EAX.ENCRYPT (R197). -/
def execEaxEncrypt (s : State) : Outcome :=
  complete 0x33 s <|
    if !inMessage s.eax then .error .seq
    else if s.srcDstOverlap s.lenNat then .error .overlap
    else if !(s.srcValid s.lenNat && s.dstValid s.lenNat) then .error .bus
    else
      let r := ctrXor (blockEncrypt s.e) (endAad (blockEncrypt s.e) s.eax) (s.srcBytes s.lenNat)
      .ok ((s.storeDst r.1).setEax { r.2 with o := omacUpdate (blockEncrypt s.e) r.2.o r.1 }, 0)

/-- EAX.DECRYPT (R198). -/
def execEaxDecrypt (s : State) : Outcome :=
  complete 0x34 s <|
    if !inMessage s.eax then .error .seq
    else if s.srcDstOverlap s.lenNat then .error .overlap
    else if !(s.srcValid s.lenNat && s.dstValid s.lenNat) then .error .bus
    else
      let x := endAad (blockEncrypt s.e) s.eax
      let x := { x with o := omacUpdate (blockEncrypt s.e) x.o (s.srcBytes s.lenNat) }
      let r := ctrXor (blockEncrypt s.e) x (s.srcBytes s.lenNat)
      .ok ((s.storeDst r.1).setEax r.2, 0)

/-- EAX.COMPUTETAG (R200). -/
def execEaxComputetag (s : State) : Outcome :=
  complete 0x35 s <|
    if !inMessage s.eax then .error .seq
    else if 16 < s.lenNat then .error .len
    else if !s.dstValid s.lenNat then .error .bus
    else
      let x := closeTag (blockEncrypt s.e) s.eax
      .ok ((s.storeDst ((blockBytes x.tag).take s.lenNat)).setEax x, 0)

/-- EAX.CHECKTAG (R201). -/
def execEaxChecktag (s : State) : Outcome :=
  complete 0x36 s <|
    if !inMessage s.eax then .error .seq
    else if s.lenNat = 0 ∨ 16 < s.lenNat then .error .len
    else if !s.srcValid s.lenNat then .error .bus
    else
      let x := closeTag (blockEncrypt s.e) s.eax
      let diff := tagDifference ((blockBytes x.tag).take s.lenNat) (s.srcBytes s.lenNat)
      .ok (s.setEax x, if diff = 0 then 1 else 0)

/-- EAX.CLEAR (R202). -/
def execEaxClear (s : State) : Outcome :=
  complete 0x37 s (.ok ((s.setE Slot.zero).setEax Eax.zero, 0))

end Sys2Proof.Machine
end

