-- ==== Sys2Proof/Machine/Xts.lean ====
section
/-! DEFINITION. The XTS controller and the six XTS commands on slots X1 and X2 (spec/43_xts.md). -/

namespace Sys2Proof.Machine

/-- `f(b xor t) xor t`, which is XexEnc for `f` the payload encryption and XexDec for its decryption (R232). -/
def xex (f : Block → Block) (b t : Block) : Block := f (b ^^^ t) ^^^ t

/-- The first `q` complete blocks of a sector (R233). -/
def sectorBlocks : Nat → List Byte → List Block
  | 0, _ => []
  | q + 1, d => blockOfBytes (d.take 16) :: sectorBlocks q (d.drop 16)

/-- The bytes of a list of blocks. -/
def blocksBytes (bs : List Block) : List Byte := bs.flatMap blockBytes

/-- Each block under its tweak, doubled from one block to the next (R233). -/
def xexBlocks (f : Block → Block) : Block → List Block → List Block
  | _, [] => []
  | t, b :: bs => xex f b t :: xexBlocks f (dblLE t) bs

/-- `XtsEncrypt(P)` with payload encryption `enc` and starting tweak `T` (R234). When a tail of `r` bytes is left, the
last full ciphertext block CC gives its first `r` bytes to the tail, and the tail followed by the rest of CC is encrypted
in its place under `T_q`. -/
def xtsEncrypt (enc : Block → Block) (T : Block) (P : List Byte) : List Byte :=
  let q := P.length / 16
  let r := P.length % 16
  let C := xexBlocks enc T (sectorBlocks q P)
  if r = 0 then blocksBytes C
  else
    let CC := blockBytes (C.getLastD 0)
    let PP := blockOfBytes (P.drop (16 * q) ++ CC.drop r)
    blocksBytes C.dropLast ++ blockBytes (xex enc PP (dblLEpow q T)) ++ CC.take r

/-- `XtsDecrypt(C)` with payload decryption `dec` and starting tweak `T` (R235). When a tail of `r` bytes is left, block
`q - 1` is decrypted under the doubled tweak `T_q`, and the tail followed by the stolen bytes under `T_(q-1)`. -/
def xtsDecrypt (dec : Block → Block) (T : Block) (C : List Byte) : List Byte :=
  let q := C.length / 16
  let r := C.length % 16
  if r = 0 then blocksBytes (xexBlocks dec T (sectorBlocks q C))
  else
    let t := dblLEpow (q - 1) T
    let PP := blockBytes (xex dec (blockOfBytes ((C.drop (16 * (q - 1))).take 16)) (dblLE t))
    let CC := blockOfBytes (C.drop (16 * q) ++ PP.drop r)
    blocksBytes (xexBlocks dec T (sectorBlocks (q - 1) C)) ++ blockBytes (xex dec CC t) ++ PP.take r

/-- The key lengths XTS.SETKEY accepts: a cipher key length, or twice one when the key is split (R241). -/
def xtsKeyLenOk (single : Bool) (n : Nat) : Bool :=
  if single then keyLenOk n else n % 2 == 0 && keyLenOk (n / 2)

/-- The bytes that key the payload slot X1: the first half, or the one key (R241). -/
def xtsPayloadKey (single : Bool) (key : List Byte) : List Byte :=
  if single then key else key.take (key.length / 2)

/-- The bytes that key the tweak slot X2: the second half, or the one key (R241). -/
def xtsTweakKey (single : Bool) (key : List Byte) : List Byte :=
  if single then key else key.drop (key.length / 2)

/-- XTS.SETSECTORSIZE (R240). -/
def execXtsSetsectorsize (s : State) : Outcome :=
  complete 0x40 s <|
    if s.lenNat < 16 then .error .len
    else .ok (s.setXts { s.xts with sectSize := s.len }, 0)

/-- XTS.SETKEY (R241). -/
def execXtsSetkey (s : State) : Outcome :=
  complete 0x41 s <|
    if !xtsKeyLenOk s.params.xtsSingleKey s.lenNat then .error .keylen
    else if !s.srcValid s.lenNat then .error .bus
    else
      let key := s.srcBytes s.lenNat
      .ok (((s.setX1 (Slot.ofKey (xtsPayloadKey s.params.xtsSingleKey key))).setX2
        (Slot.ofKey (xtsTweakKey s.params.xtsSingleKey key))).setXts { s.xts with phase := .keyed }, 0)

/-- XTS.SETTWEAK (R242): the tweak is padded with zeros at its end. -/
def execXtsSettweak (s : State) : Outcome :=
  complete 0x42 s <|
    if s.xts.phase = .unkeyed then .error .seq
    else if 16 < s.lenNat then .error .len
    else if !s.srcValid s.lenNat then .error .bus
    else
      let tw := blockOfBytes (s.srcBytes s.lenNat ++ zeroBytes (16 - s.lenNat))
      .ok (s.setXts { s.xts with T := blockEncrypt s.x2 tw, phase := .tweaked }, 0)

/-- XTS.ENCSECTOR (R243); the stored tweak is not changed (R245). -/
def execXtsEncsector (s : State) : Outcome :=
  complete 0x43 s <|
    if s.xts.phase ≠ .tweaked then .error .seq
    else if s.srcDstOverlap s.sectorNat then .error .overlap
    else if !(s.srcValid s.sectorNat && s.dstValid s.sectorNat) then .error .bus
    else .ok (s.storeDst (xtsEncrypt (blockEncrypt s.x1) s.xts.T (s.srcBytes s.sectorNat)), 0)

/-- XTS.DECSECTOR (R244); the first check is step 4 of decoding (30_encoding.md R94). -/
def execXtsDecsector (s : State) : Outcome :=
  complete 0x44 s <|
    if s.params.varX1 = .tiny then .error .unsupported
    else if s.xts.phase ≠ .tweaked then .error .seq
    else if s.srcDstOverlap s.sectorNat then .error .overlap
    else if !(s.srcValid s.sectorNat && s.dstValid s.sectorNat) then .error .bus
    else .ok (s.storeDst (xtsDecrypt (blockDecrypt s.x1) s.xts.T (s.srcBytes s.sectorNat)), 0)

/-- XTS.CLEAR (R246): the sector size is kept. -/
def execXtsClear (s : State) : Outcome :=
  complete 0x45 s
    (.ok (((s.setX1 Slot.zero).setX2 Slot.zero).setXts { s.xts with T := 0, phase := .unkeyed }, 0))

end Sys2Proof.Machine
end

