-- ==== Sys2Proof/Machine/Dispatch.lean ====
section
/-! DEFINITION. The meaning of each command: one arm a constructor (spec/30_encoding.md R92). -/

namespace Sys2Proof.Machine

def exec (i : Instr) (s : State) : Host.Outcome State Fault Refusal :=
  match i with
  | .ciphKeysize => Sys2Proof.Machine.execCiphKeysize s
  | .ciphBlocksize => Sys2Proof.Machine.execCiphBlocksize s
  | .ciphSetkey => Sys2Proof.Machine.execCiphSetkey s
  | .ciphEncrypt => Sys2Proof.Machine.execCiphEncrypt s
  | .ciphDecrypt => Sys2Proof.Machine.execCiphDecrypt s
  | .ciphClear => Sys2Proof.Machine.execCiphClear s
  | .omacInitfirst => Sys2Proof.Machine.execOmacInitfirst s
  | .omacInitnext t => Sys2Proof.Machine.execOmacInitnext t s
  | .omacUpdate => Sys2Proof.Machine.execOmacUpdate s
  | .omacFinalize => Sys2Proof.Machine.execOmacFinalize s
  | .omacClear => Sys2Proof.Machine.execOmacClear s
  | .eaxSetkey => Sys2Proof.Machine.execEaxSetkey s
  | .eaxSetiv => Sys2Proof.Machine.execEaxSetiv s
  | .eaxAddauth => Sys2Proof.Machine.execEaxAddauth s
  | .eaxEncrypt => Sys2Proof.Machine.execEaxEncrypt s
  | .eaxDecrypt => Sys2Proof.Machine.execEaxDecrypt s
  | .eaxComputetag => Sys2Proof.Machine.execEaxComputetag s
  | .eaxChecktag => Sys2Proof.Machine.execEaxChecktag s
  | .eaxClear => Sys2Proof.Machine.execEaxClear s
  | .xtsSetsectorsize => Sys2Proof.Machine.execXtsSetsectorsize s
  | .xtsSetkey => Sys2Proof.Machine.execXtsSetkey s
  | .xtsSettweak => Sys2Proof.Machine.execXtsSettweak s
  | .xtsEncsector => Sys2Proof.Machine.execXtsEncsector s
  | .xtsDecsector => Sys2Proof.Machine.execXtsDecsector s
  | .xtsClear => Sys2Proof.Machine.execXtsClear s

end Sys2Proof.Machine
end

