-- ==== Sys2Proof/Machine/Window.lean ====
section
/-! DEFINITION. The register window as the host reads and writes it, and the platform's reset (spec/10_state.md R21 to
R30, 70_reset_and_hazards.md R300, R301). -/

namespace Sys2Proof.Machine

/-- A 32-bit read at an aligned offset of the window (R21): CMD and reserved offsets read 0 (R22, R30). -/
def readWindow (s : State) (offset : Byte) : Word :=
  match offset with
  | 0x04#8 => s.status
  | 0x08#8 => s.src
  | 0x0C#8 => s.dst
  | 0x10#8 => s.len
  | 0x14#8 => s.result
  | 0x18#8 => stateWord s
  | 0x1C#8 => s.xts.sectSize
  | 0x20#8 => configWord s.params
  | _ => 0

/-- A 32-bit write at an aligned offset other than CMD's: SRC, DST and LEN store it, a read-only register and a
reserved offset ignore it (R25, R30). -/
def writeArgument (s : State) (offset : Byte) (v : Word) : State :=
  match offset with
  | 0x08#8 => s.setSrc v
  | 0x0C#8 => s.setDst v
  | 0x10#8 => s.setLen v
  | _ => s

/-- The platform's reset (70_reset_and_hazards.md R300, R301): every register and every unit to its reset value; the
parameters and buffer memory are kept, and the host's program goes on (log 10). -/
def platformReset (s : State) : State :=
  { State.reset with
    params := s.params
    mem := s.mem
    pending := s.pending
    pos := s.pos
    readings := s.readings }

end Sys2Proof.Machine
end

