-- ==== Sys2Proof/Machine/Command.lean ====
section
/-! DEFINITION. A write of CMD (spec/60_exceptions.md R270), one host access (R288), and the host's program syntax
(30_encoding.md R97, R98). -/

namespace Sys2Proof.Machine

/-- A 32-bit write of `w` to CMD: the word is decoded, and runs or ends with ERR_ILLEGAL (R270, 30_encoding.md R94). -/
def runCommand (w : Word) (s : State) : Outcome :=
  match decode w with
  | .error _ => .next (s.failed (opcField w) .illegal)
  | .ok i => exec i s

/-- A 32-bit aligned write to the window (10_state.md R21, R22). -/
def hostWrite (offset : Byte) (v : Word) (s : State) : Outcome :=
  if offset = 0x00#8 then runCommand v s else .next (writeArgument s offset v)

/-- One access of the host (R288). A window access that is not 32 bits wide and aligned is refused (10_state.md R31;
log 7); a buffer-memory access is ordinary memory (20_memory.md R73; log 8). DESIGN CHOICE, log 19: where the platform
maps the window into the buffer address space, a byte access by address inside `[BASE, BASE + 256)` is taken as a window
access narrower than 32 bits, and refused too. -/
def hostAccess (op : HostOp) (s : State) : Outcome :=
  match op with
  | .writeReg offset width v =>
    if regAccessIsWord offset width then hostWrite offset v s else .refused .hostSubwordAccess
  | .readReg offset width =>
    if regAccessIsWord offset width then .next (s.record (.reg offset (readWindow s offset)))
    else .refused .hostSubwordAccess
  | .storeByte a v =>
    if hitsMappedWindow s.params a.toNat 1 then .refused .hostSubwordAccess
    else .next (s.setMem (writeByte s.mem a.toNat v))
  | .loadByte a =>
    if hitsMappedWindow s.params a.toNat 1 then .refused .hostSubwordAccess
    else .next (s.record (.byte a (readByte s.mem a.toNat)))
  | .platformReset => .next (platformReset s)

/-! ## The host's program syntax (30_encoding.md R97, R98) -/

/-- `wr SRC, v`. -/
def wrSrc (v : Word) : HostOp := .writeReg 0x08 .word v
/-- `wr DST, v`. -/
def wrDst (v : Word) : HostOp := .writeReg 0x0C .word v
/-- `wr LEN, v`. -/
def wrLen (v : Word) : HostOp := .writeReg 0x10 .word v
/-- `wr CMD, w`. -/
def wrCmd (w : Word) : HostOp := .writeReg 0x00 .word w
/-- `cmd MNEMONIC`, short for `wr CMD, w` (R97). -/
def cmd (i : Instr) : HostOp := wrCmd (encode i)

/-- The line `MNEMONIC [src=a] [dst=d] [len=n] [#t]` (R98): the writes of the arguments given, in this order, and then
the command. -/
def programLine (i : Instr) (src dst len : Option Word) : List HostOp :=
  (src.map wrSrc).toList ++ (dst.map wrDst).toList ++ (len.map wrLen).toList ++ [cmd i]

end Sys2Proof.Machine
end

