-- ==== Sys2Proof/Machine/Step.lean ====
section
/-! DEFINITION. One step of the machine: the host's next access (spec/00_scope.md R13, 10_state.md R24). -/

namespace Sys2Proof.Machine

/-- One step: the host's next access is taken off its program, the position advances by one (R24), and the access is
carried out. With no access left, BCME takes no step of its own and its state persists (R13, 60_exceptions.md R286;
log 2). -/
def step (s : State) : Host.Outcome State Fault Refusal :=
  match s.pending with
  | [] => .next s
  | op :: rest => hostAccess op (s.advance rest)

/-- The state in which the host's next access writes the command word `w`, of `nbits` bits, to CMD (log 1). -/
def State.withFetchWord (s : State) (nbits w : Nat) : State :=
  { s with pending := wrCmd (BitVec.ofNat 32 (w % 2 ^ nbits)) :: s.pending }

end Sys2Proof.Machine
end

