-- ==== Sys2Proof/Safety.lean ====
section
/-! DEFINITION. The terms the claims use: the invariants of spec/10_state.md R42 and their companions, the spec's tables of
ranges, errors and phases, what of a state is public, and the closed forms of OMAC and EAX. -/

namespace Sys2Proof.Safety

open Sys2Proof.Machine

/-! ## Invariants -/

/-- A keyed slot has 32, 33 or 34 rounds (10_state.md R32); an unkeyed one holds no key material (R45, 40_cipher.md
R137). -/
abbrev SlotWf (s : Slot) : Prop :=
  (s.keyed = true → s.rounds = 32 ∨ s.rounds = 33 ∨ s.rounds = 34) ∧ (s.keyed = false → s = Slot.zero)

/-- R42(a). -/
abbrev OmacSubkeyValid (s : State) : Prop :=
  s.omac.phase ≠ .unset → s.c0.keyed = true ∧ s.omac.ctx.B = dblBE (blockEncrypt s.c0 0)

/-- R42(b). -/
abbrev EaxKeyed (s : State) : Prop := s.eax.phase ≠ .uninit → s.e.keyed = true

/-- R42(c). -/
abbrev EaxSubkeyValid (s : State) : Prop :=
  s.eax.phase = .aad ∨ s.eax.phase = .enc ∨ s.eax.phase = .tagged → s.eax.o.B = dblBE (blockEncrypt s.e 0)

/-- R42(d). -/
abbrev XtsKeyed (s : State) : Prop := s.xts.phase ≠ .unkeyed → s.x1.keyed = true ∧ s.x2.keyed = true

/-- R42(e). -/
abbrev PositionsInRange (s : State) : Prop :=
  s.omac.ctx.posn ≤ 16 ∧ s.eax.o.posn ≤ 16 ∧ s.eax.encPosn ≤ 16

/-- The five invariants of R42. -/
abbrev ReachableInvariants (s : State) : Prop :=
  OmacSubkeyValid s ∧ EaxKeyed s ∧ EaxSubkeyValid s ∧ XtsKeyed s ∧ PositionsInRange s

/-- STATUS holds a code 0x00..0x07 and zeros above OPC (10_state.md R23); RESULT one of its four values (R26). -/
abbrev StatusWf (s : State) : Prop :=
  (statusCode s.status).toNat ≤ 7 ∧ s.status.extractLsb' 16 16 = 0 ∧
    (s.result = 0 ∨ s.result = 1 ∨ s.result = 16 ∨ s.result = 32)

/-- Buffer memory is in its canonical form, inside the 32-bit space (20_memory.md R60). -/
abbrev MemWf (s : State) : Prop := Memory.wf s.mem = true ∧ Memory.inSpace s.mem = true

/-- Everything that every step keeps; it rules out the values of State that no run reaches (log 17). -/
abbrev Inv (s : State) : Prop :=
  (SlotWf s.c0 ∧ SlotWf s.e ∧ SlotWf s.x1 ∧ SlotWf s.x2) ∧ ReachableInvariants s ∧ 16 ≤ s.xts.sectSize.toNat ∧
    StatusWf s ∧ MemWf s

/-! ## Frames -/

/-- Every byte outside the `n` bytes at `d` is the same in both memories (20_memory.md R70). -/
abbrev SameOutside (m m' : Memory) (d : Word) (n : Nat) : Prop :=
  ∀ a, a < d.toNat ∨ d.toNat + n ≤ a → readByte m' a = readByte m a

/-! ## The spec's tables -/

/-- The source range of a command (30_encoding.md R93). -/
def sourceRange (i : Instr) (s : State) : Option (Word × Nat) :=
  match i with
  | .ciphSetkey | .omacUpdate | .eaxSetkey | .eaxSetiv | .eaxAddauth | .eaxEncrypt | .eaxDecrypt | .eaxChecktag
  | .xtsSetkey | .xtsSettweak => some (s.src, s.len.toNat)
  | .ciphEncrypt | .ciphDecrypt => some (s.src, 16)
  | .xtsEncsector | .xtsDecsector => some (s.src, s.xts.sectSize.toNat)
  | .ciphKeysize | .ciphBlocksize | .ciphClear | .omacInitfirst | .omacInitnext _ | .omacFinalize | .omacClear
  | .eaxComputetag | .eaxClear | .xtsSetsectorsize | .xtsClear => none

/-- The destination range of a command (30_encoding.md R93). -/
def destinationRange (i : Instr) (s : State) : Option (Word × Nat) :=
  match i with
  | .ciphEncrypt | .ciphDecrypt | .omacFinalize => some (s.dst, 16)
  | .eaxEncrypt | .eaxDecrypt | .eaxComputetag => some (s.dst, s.len.toNat)
  | .xtsEncsector | .xtsDecsector => some (s.dst, s.xts.sectSize.toNat)
  | .ciphKeysize | .ciphBlocksize | .ciphSetkey | .ciphClear | .omacInitfirst | .omacInitnext _ | .omacUpdate
  | .omacClear | .eaxSetkey | .eaxSetiv | .eaxAddauth | .eaxChecktag | .eaxClear | .xtsSetsectorsize | .xtsSetkey
  | .xtsSettweak | .xtsClear => none

/-- The phase precondition of a command is false (60_exceptions.md R271). -/
def outOfPhase (i : Instr) (s : State) : Bool :=
  match i with
  | .ciphEncrypt | .ciphDecrypt | .omacInitfirst => s.c0.keyed == false
  | .omacInitnext _ => s.omac.phase == .unset
  | .omacUpdate | .omacFinalize => s.omac.phase != .ready
  | .eaxSetiv => s.eax.phase == .uninit
  | .eaxAddauth => s.eax.phase != .aad
  | .eaxEncrypt | .eaxDecrypt | .eaxComputetag | .eaxChecktag => s.eax.phase != .aad && s.eax.phase != .enc
  | .xtsSettweak => s.xts.phase == .unkeyed
  | .xtsEncsector | .xtsDecsector => s.xts.phase != .tweaked
  | .ciphKeysize | .ciphBlocksize | .ciphSetkey | .ciphClear | .omacClear | .eaxSetkey | .eaxClear | .xtsSetsectorsize
  | .xtsSetkey | .xtsClear => false

/-- The causes of the status codes, for a word that decodes (60_exceptions.md R272). -/
def errorHolds (c : CmdError) (i : Instr) (s : State) : Bool :=
  match c with
  | .illegal => false
  | .unsupported =>
    (i == .ciphDecrypt && s.params.varC0 == .tiny) || (i == .xtsDecsector && s.params.varX1 == .tiny)
  | .seq => outOfPhase i s
  | .keylen =>
    ((i == .ciphSetkey || i == .eaxSetkey || (i == .xtsSetkey && s.params.xtsSingleKey))
        && !([16, 24, 32].contains s.len.toNat))
      || (i == .xtsSetkey && !s.params.xtsSingleKey && !([32, 48, 64].contains s.len.toNat))
  | .len =>
    ((i == .eaxSetiv || i == .eaxChecktag) && (s.len.toNat == 0 || decide (16 < s.len.toNat)))
      || ((i == .eaxComputetag || i == .xtsSettweak) && decide (16 < s.len.toNat))
      || (i == .xtsSetsectorsize && decide (s.len.toNat < 16))
  | .overlap =>
    (i == .eaxEncrypt || i == .eaxDecrypt || i == .xtsEncsector || i == .xtsDecsector)
      && ((destinationRange i s).any fun d => partlyOverlap s.src s.dst d.2)
  | .bus =>
    ((sourceRange i s).any fun r => !rangeValid s.params r.1 r.2)
      || ((destinationRange i s).any fun r => !rangeValid s.params r.1 r.2)

/-- The order of priority (60_exceptions.md R274). -/
def priorityOrder : List CmdError := [.illegal, .unsupported, .seq, .keylen, .len, .overlap, .bus]

/-- CODE of a command: the first error that holds, or OK (60_exceptions.md R274). -/
def expectedCode (i : Instr) (s : State) : Byte :=
  match priorityOrder.find? fun c => errorHolds c i s with
  | some c => errorCode c
  | none => codeOk

/-- The OMAC unit's phase after a command that ends with OK; none where it ends with ERR_SEQ (41_omac.md R168).
INITFIRST's precondition is on slot C0. -/
def omacNextPhase (i : Instr) (c0Keyed : Bool) (p : OmacPhase) : Option OmacPhase :=
  match i, p with
  | .omacInitfirst, _ => if c0Keyed then some .ready else none
  | .omacInitnext _, .ready | .omacInitnext _, .final => some .ready
  | .omacInitnext _, .unset => none
  | .omacUpdate, .ready => some .ready
  | .omacUpdate, .unset | .omacUpdate, .final => none
  | .omacFinalize, .ready => some .final
  | .omacFinalize, .unset | .omacFinalize, .final => none
  | .omacClear, _ | .ciphSetkey, _ | .ciphClear, _ => some .unset
  | _, p => some p

/-- The EAX unit's phase after a command that ends with OK; none where it ends with ERR_SEQ (42_eax.md R190). -/
def eaxNextPhase (i : Instr) (p : EaxPhase) : Option EaxPhase :=
  match i, p with
  | .eaxSetkey, _ => some .keyed
  | .eaxSetiv, .uninit => none
  | .eaxSetiv, _ => some .aad
  | .eaxAddauth, .aad => some .aad
  | .eaxAddauth, _ => none
  | .eaxEncrypt, .aad | .eaxEncrypt, .enc | .eaxDecrypt, .aad | .eaxDecrypt, .enc => some .enc
  | .eaxEncrypt, _ | .eaxDecrypt, _ => none
  | .eaxComputetag, .aad | .eaxComputetag, .enc | .eaxChecktag, .aad | .eaxChecktag, .enc => some .tagged
  | .eaxComputetag, _ | .eaxChecktag, _ => none
  | .eaxClear, _ => some .uninit
  | _, p => some p

/-- The XTS unit's phase after a command that ends with OK; none where it ends with ERR_SEQ (43_xts.md R230). -/
def xtsNextPhase (i : Instr) (p : XtsPhase) : Option XtsPhase :=
  match i, p with
  | .xtsSetsectorsize, p => some p
  | .xtsSetkey, _ => some .keyed
  | .xtsSettweak, .unkeyed => none
  | .xtsSettweak, _ => some .tweaked
  | .xtsEncsector, .tweaked | .xtsDecsector, .tweaked => some .tweaked
  | .xtsEncsector, _ | .xtsDecsector, _ => none
  | .xtsClear, _ => some .unkeyed
  | _, p => some p

/-! ## What is public -/

/-- Two states agree on everything the host can tell without using a key: the parameters, the argument registers, which
slot C0 is keyed, the phases and the sector size. Keys, schedules, accumulators, counters, keystream, tags, tweak and
memory may differ (10_state.md R44). -/
abbrev SamePublic (s t : State) : Prop :=
  s.params = t.params ∧ s.src = t.src ∧ s.dst = t.dst ∧ s.len = t.len ∧ s.c0.keyed = t.c0.keyed ∧
    s.omac.phase = t.omac.phase ∧ s.eax.phase = t.eax.phase ∧ s.xts.phase = t.xts.phase ∧
    s.xts.sectSize = t.xts.sectSize

/-! ## Closed forms -/

/-- The standard CMAC over a block cipher, with `K1` the double of the encrypted zero block and `K2` the double of `K1`:
every block but the last is chained, the last is masked with `K1` when it is full and padded and masked with `K2` when it
is not (41_omac.md R167). -/
def cmac (enc : Block → Block) (M : List Byte) : Block :=
  let q := (M.length - 1) / 16
  let last := M.drop (16 * q)
  let K1 := dblBE (enc 0)
  let X := (sectorBlocks q M).foldl (fun x b => enc (x ^^^ b)) 0
  if last.length = 16 then enc (X ^^^ (blockOfBytes last ^^^ K1))
  else enc (X ^^^ (blockOfBytes (last ++ [0x80] ++ zeroBytes (15 - last.length)) ^^^ dblBE K1))

/-- `OMAC^t(X)`, that is `CMAC(0^15 || t || X)` (41_omac.md R167, 42_eax.md R203). -/
def omacDomain (enc : Block → Block) (t : Byte) (X : List Byte) : Block := cmac enc (zeroBytes 15 ++ [t] ++ X)

/-- Byte `i` of the CTR keystream that starts at counter `N` (42_eax.md R192, R203). -/
def keystreamByte (enc : Block → Block) (N : Block) (i : Nat) : Byte :=
  blockByte (enc (N + BitVec.ofNat 128 (i / 16))) (i % 16)

/-- The bytes of `M` under the CTR keystream that starts at counter `N` (42_eax.md R203). -/
def ctrCrypt (enc : Block → Block) (N : Block) (M : List Byte) : List Byte :=
  M.mapIdx fun i d => d ^^^ keystreamByte enc N i

/-- The EAX tag of nonce, associated data and ciphertext (42_eax.md R203). -/
def eaxTag (enc : Block → Block) (iv A C : List Byte) : Block :=
  omacDomain enc 0 iv ^^^ omacDomain enc 1 A ^^^ omacDomain enc 2 C

end Sys2Proof.Safety
end

