-- ==== Sys2Proof/WellFormed.lean ====
section
/-! DEFINITION. What is well formed: a command, a host access, the parameters. -/

namespace Sys2Proof

/-- Every term of Instr is a legal command: the one operand, IMM8 of OMAC.INITNEXT, is a byte, and all 256 values are
accepted (30_encoding.md R96). There is no ill-formed command for the type to leave out. -/
def Instr.wellFormed : Instr → Bool
  | .ciphKeysize | .ciphBlocksize | .ciphSetkey | .ciphEncrypt | .ciphDecrypt | .ciphClear => true
  | .omacInitfirst | .omacInitnext _ | .omacUpdate | .omacFinalize | .omacClear => true
  | .eaxSetkey | .eaxSetiv | .eaxAddauth | .eaxEncrypt | .eaxDecrypt | .eaxComputetag | .eaxChecktag | .eaxClear => true
  | .xtsSetsectorsize | .xtsSetkey | .xtsSettweak | .xtsEncsector | .xtsDecsector | .xtsClear => true

/-- A host access that BCME defines: a window access is 32 bits wide and aligned (10_state.md R31), and a byte access by
address is outside a mapped window (20_memory.md R61; log 19). -/
def Machine.HostOp.wellFormed (p : Params) : Machine.HostOp → Bool
  | .writeReg offset width _ => Machine.regAccessIsWord offset width
  | .readReg offset width => Machine.regAccessIsWord offset width
  | .storeByte a _ => !Machine.hitsMappedWindow p a.toNat 1
  | .loadByte a => !Machine.hitsMappedWindow p a.toNat 1
  | .platformReset => true

/-- The parameters describe memory inside the 32-bit space (20_memory.md R60). -/
def Params.wellFormed (p : Params) : Bool :=
  p.regions.all fun r => decide (r.base + r.size ≤ 2 ^ 32)

end Sys2Proof
end

