-- ==== Sys2Proof/Certificates/Slice0/Obligations.lean ====
section
/-! DEFINITION. The statements for the provers, from the numbered rules of spec/. Each docstring names the rules. -/

open Sys2Proof Sys2Proof.Machine Sys2Proof.Safety

/-! ## Encoding -/

/-- 30_encoding.md R99: the word of every command is the one the spec lists, and it decodes to that command. -/
def Obligations.SpecWordsDecode : Prop :=
  (∀ p ∈ [(0x00000010#32, Instr.ciphKeysize), (0x00000011#32, .ciphBlocksize), (0x00000012#32, .ciphSetkey),
      (0x00000013#32, .ciphEncrypt), (0x00000014#32, .ciphDecrypt), (0x00000015#32, .ciphClear),
      (0x00000020#32, .omacInitfirst), (0x00000022#32, .omacUpdate), (0x00000023#32, .omacFinalize),
      (0x00000024#32, .omacClear), (0x00000030#32, .eaxSetkey), (0x00000031#32, .eaxSetiv),
      (0x00000032#32, .eaxAddauth), (0x00000033#32, .eaxEncrypt), (0x00000034#32, .eaxDecrypt),
      (0x00000035#32, .eaxComputetag), (0x00000036#32, .eaxChecktag), (0x00000037#32, .eaxClear),
      (0x00000040#32, .xtsSetsectorsize), (0x00000041#32, .xtsSetkey), (0x00000042#32, .xtsSettweak),
      (0x00000043#32, .xtsEncsector), (0x00000044#32, .xtsDecsector), (0x00000045#32, .xtsClear),
      (0x00000221#32, .omacInitnext 2)], encode p.2 = p.1 ∧ decode p.1 = .ok p.2) ∧
  ∀ t : Byte, encode (.omacInitnext t) = 0x00000021#32 ||| (t.setWidth 32 <<< 8) ∧
    decode (0x00000021#32 ||| (t.setWidth 32 <<< 8)) = .ok (.omacInitnext t)

/-- 30_encoding.md R90 to R92, R94: decoding the word of a command gives it back, every operand included, and a word that
decodes to a command is that command's word. -/
def Obligations.CommandWordsRoundTrip : Prop :=
  (∀ i : Instr, i.wellFormed = true → decode (encode i) = .ok i) ∧
  ∀ (w : Word) (i : Instr), decode w = .ok i → w = encode i

/-- 30_encoding.md R94, R95: the illegal words, as the spec lists them by field, end with ERR_ILLEGAL and change nothing
but STATUS and RESULT; every other word is a command, runs as that command, and ends with another code. That step 4 of
R94 (a decrypt on a TINY slot) is part of the command's meaning and not of `decode` is the model's (log 12). -/
def Obligations.IllegalWordsEndWithErrIllegal : Prop :=
  ∀ (w : Word) (s : State),
    let opc := w.toNat % 256
    let imm := w.toNat / 256 % 256
    let illegal := opc ≤ 0x0F ∨ (0x16 ≤ opc ∧ opc ≤ 0x1F) ∨ (0x25 ≤ opc ∧ opc ≤ 0x2F) ∨ (0x38 ≤ opc ∧ opc ≤ 0x3F) ∨
      0x46 ≤ opc ∨ w.toNat / 65536 ≠ 0 ∨ (imm ≠ 0 ∧ opc ≠ 0x21)
    (illegal → runCommand w s = .next { s with status := BitVec.ofNat 32 (opc * 256 + 1), result := 0 }) ∧
    (¬ illegal → ∃ i t, decode w = .ok i ∧ runCommand w s = exec i s ∧ exec i s = .next t ∧ statusCode t.status ≠ 0x01)

/-! ## Steps and host accesses -/

/-- 10_state.md R22, R24; 60_exceptions.md R270: when the host's next access writes `w` to CMD, the step runs the command
`w`, on the state whose program position has moved past that access; when `w` decodes to `i`, that is `exec i`. -/
def Obligations.StepRunsDecodedCommand : Prop :=
  ∀ (s : State) (w : Word) (rest : List HostOp), s.pending = .writeReg 0x00 .word w :: rest →
    let s' : State := { s with pending := rest, pos := s.pos + 1 }
    step s = runCommand w s' ∧ ∀ i, decode w = .ok i → step s = exec i s'

/-- 60_exceptions.md R289, 10_state.md R31: a step is refused exactly when the host's next access is to the window and is
narrower than 32 bits or misaligned (log 7), a byte access by address inside a mapped window among them (the model's
choice, log 19); in every other case it answers a next state. That an idle step leaves the state as it is reads R13 and
R286 so (log 2). -/
def Obligations.OnlySubwordAccessesStop : Prop :=
  ∀ s : State,
    (s.pending = [] → step s = .next s) ∧
    ∀ (op : HostOp) (rest : List HostOp), s.pending = op :: rest →
      (op.wellFormed s.params = false → step s = .refused .hostSubwordAccess) ∧
      (op.wellFormed s.params = true → ∃ t, step s = .next t)

/-- 60_exceptions.md R288, 10_state.md R21, R25: what each access of the host other than a write of CMD does. The
record of what was read and the byte width of a memory access are the model's own (log 8, log 9), as is that a mapped
window is no buffer memory to the host (log 19). -/
def Obligations.HostAccessEffects : Prop :=
  ∀ (s : State) (rest : List HostOp),
    let s' : State := { s with pending := rest, pos := s.pos + 1 }
    let outside : Word → Prop := fun a =>
      s.params.windowMapped = true → a.toNat < s.params.base.toNat ∨ s.params.base.toNat + 256 ≤ a.toNat
    (∀ p ∈ [(0x00#8, 0#32), (0x04#8, s.status), (0x08#8, s.src), (0x0C#8, s.dst), (0x10#8, s.len), (0x14#8, s.result),
        (0x18#8, stateWord s), (0x1C#8, s.xts.sectSize), (0x20#8, configWord s.params)],
      s.pending = .readReg p.1 .word :: rest → step s = .next { s' with readings := .reg p.1 p.2 :: s.readings }) ∧
    (∀ v, s.pending = .writeReg 0x08 .word v :: rest → step s = .next { s' with src := v }) ∧
    (∀ v, s.pending = .writeReg 0x0C .word v :: rest → step s = .next { s' with dst := v }) ∧
    (∀ v, s.pending = .writeReg 0x10 .word v :: rest → step s = .next { s' with len := v }) ∧
    (∀ a, outside a → s.pending = .loadByte a :: rest →
      step s = .next { s' with readings := .byte a (readByte s.mem a.toNat) :: s.readings }) ∧
    ∀ a v, outside a → s.pending = .storeByte a v :: rest →
      ∃ m, step s = .next { s' with mem := m } ∧ readByte m a.toNat = v ∧
        ∀ b, b ≠ a.toNat → readByte m b = readByte s.mem b

/-- 10_state.md R30: a read of a reserved offset returns 0; a write to a reserved offset or to a read-only register is
ignored. -/
def Obligations.ReservedAndReadOnlyOffsets : Prop :=
  ∀ (s : State) (rest : List HostOp) (o : Byte),
    let s' : State := { s with pending := rest, pos := s.pos + 1 }
    (o.toNat % 4 = 0 → 0x24 ≤ o.toNat → s.pending = .readReg o .word :: rest →
      step s = .next { s' with readings := .reg o 0 :: s.readings }) ∧
    ∀ v, o.toNat % 4 = 0 → (o ∈ [0x04#8, 0x14#8, 0x18#8, 0x1C#8, 0x20#8] ∨ 0x24 ≤ o.toNat) →
      s.pending = .writeReg o .word v :: rest → step s = .next s'

/-- 10_state.md R27: the fields of STATE; a host write of it is ignored, and it is 0 at reset. -/
def Obligations.StateRegisterFields : Prop :=
  readWindow State.reset 0x18 = 0 ∧
  ∀ s : State,
    (∀ v rest, s.pending = .writeReg 0x18 .word v :: rest →
      step s = .next { s with pending := rest, pos := s.pos + 1 }) ∧
    let v := (readWindow s 0x18).toNat
    v % 2 = (if s.c0.keyed then 1 else 0) ∧
    v / 2 % 4 = (match s.omac.phase with | .unset => 0 | .ready => 1 | .final => 2) ∧
    v / 8 % 2 = 0 ∧
    v / 16 % 8 = (match s.eax.phase with | .uninit => 0 | .keyed => 1 | .aad => 2 | .enc => 3 | .tagged => 4) ∧
    v / 128 % 2 = 0 ∧
    v / 256 % 4 = (match s.xts.phase with | .unkeyed => 0 | .keyed => 1 | .tweaked => 2) ∧
    v / 1024 = 0

/-- 10_state.md R29: the fields of CONFIG, and that no step changes it, a host write of it and a reset included. -/
def Obligations.ConfigRegisterConstant : Prop :=
  (∀ s : State,
    let code : Variant → Nat := fun x => match x with | .full => 0 | .small => 1 | .tiny => 2
    let p := s.params
    let v := (readWindow s 0x20).toNat
    v % 4 = code p.varC0 ∧ v / 4 % 4 = code p.varE ∧ v / 16 % 4 = code p.varX1 ∧ v / 64 % 4 = code p.varX2 ∧
      v / 256 % 2 = (if p.xtsSingleKey then 1 else 0) ∧ v / 512 = 0) ∧
  ∀ s t : State, step s = .next t → t.params = s.params ∧ readWindow t 0x20 = readWindow s 0x20

/-- 70_reset_and_hazards.md R301; 10_state.md R21, R45: the platform's reset brings every register and every unit to its
reset value and leaves the parameters (which CONFIG reports) and buffer memory as they were; State.reset has those values
too. -/
def Obligations.PlatformResetState : Prop :=
  let slot0 : Slot := { keyed := false, rounds := 0, ks := Vector.replicate 34 0 }
  let ctx0 : OmacCtx := { B := 0, acc := 0, posn := 0 }
  let atReset : State → Prop := fun r =>
    r.status = 0 ∧ r.result = 0 ∧ r.src = 0 ∧ r.dst = 0 ∧ r.len = 0 ∧ readWindow r 0x18 = 0 ∧ readWindow r 0x1C = 512 ∧
      r.c0 = slot0 ∧ r.e = slot0 ∧ r.x1 = slot0 ∧ r.x2 = slot0 ∧ r.omac = { phase := .unset, ctx := ctx0 } ∧
      r.eax = { phase := .uninit, ctr := 0, stream := 0, tag := 0, o := ctx0, encPosn := 0 } ∧
      r.xts = { phase := .unkeyed, T := 0, sectSize := 512 }
  atReset State.reset ∧
  ∀ (s : State) (rest : List HostOp), s.pending = .platformReset :: rest →
    ∃ t, step s = .next t ∧ atReset t ∧ t.mem = s.mem ∧ t.params = s.params

/-- 30_encoding.md R98: a line `MNEMONIC [src=a] [dst=d] [len=n]` writes the arguments given and runs the command; an
argument left out leaves its register unchanged. -/
def Obligations.ProgramLineRuns : Prop :=
  ∀ (s : State) (i : Instr) (a d n : Option Word) (rest : List HostOp),
    s.pending = programLine i a d n ++ rest →
      Host.Core.run Sys2Proof.core (programLine i a d n).length s =
        exec i { s with
          src := a.getD s.src, dst := d.getD s.dst, len := n.getD s.len, pending := rest,
          pos := s.pos + (programLine i a d n).length }

/-- 20_memory.md R61, R65: which ranges are valid. An empty one is, everywhere; one that runs past the end of the 32-bit
space is not; one that ends at or before it and that Admit accepts is; one that Admit refuses is not, among these one that
overlaps a window mapped into the buffer space: CIPH.SETKEY with a 16-byte key there ends with ERR_BUS. Admit is written out
in the model's data for it (log 3). -/
def Obligations.RangesOutsideMemoryRejected : Prop :=
  ∀ (p : Params) (a : Word) (n : Nat),
    rangeValid p a 0 = true ∧
    (2 ^ 32 < a.toNat + n → rangeValid p a n = false) ∧
    (a.toNat + n ≤ 2 ^ 32 → (∃ r ∈ p.regions, r.base ≤ a.toNat ∧ a.toNat + n ≤ r.base + r.size) →
      (a.toNat, n) ∉ p.refusedRanges →
      (p.windowMapped = true → a.toNat + n ≤ p.base.toNat ∨ p.base.toNat + 256 ≤ a.toNat) →
      rangeValid p a n = true) ∧
    (0 < n → (∀ r ∈ p.regions, a.toNat < r.base ∨ r.base + r.size < a.toNat + n) → rangeValid p a n = false) ∧
    (0 < n → (a.toNat, n) ∈ p.refusedRanges → rangeValid p a n = false) ∧
    (p.windowMapped = true → 0 < n → a.toNat < p.base.toNat + 256 → p.base.toNat < a.toNat + n →
      rangeValid p a n = false ∧
      ∀ s : State, s.params = p → s.src = a → s.len.toNat = n → n = 16 →
        exec .ciphSetkey s = .next { s with status := 0x00001207#32, result := 0 })

/-! ## Every command -/

/-- 10_state.md R23, R26; 60_exceptions.md R270, R275: every word written to CMD ends in a next state; STATUS then holds
the word's opcode byte, a code 0x00..0x07 and zeros above, and RESULT the value R26 gives. -/
def Obligations.EveryCommandWritesStatusAndResult : Prop :=
  ∀ (w : Word) (s : State), ∃ t, runCommand w s = .next t ∧
    t.status.extractLsb' 8 8 = w.extractLsb' 0 8 ∧ (t.status.extractLsb' 0 8).toNat ≤ 7 ∧
    t.status.extractLsb' 16 16 = 0 ∧
    (t.status.extractLsb' 0 8 ≠ 0 → t.result = 0) ∧
    (decode w = .ok .ciphKeysize → t.result = 32) ∧
    (decode w = .ok .ciphBlocksize → t.result = 16) ∧
    (decode w = .ok .eaxChecktag → t.result = 0 ∨ t.result = 1) ∧
    (decode w ≠ .ok .ciphKeysize → decode w ≠ .ok .ciphBlocksize → decode w ≠ .ok .eaxChecktag → t.result = 0)

/-- 60_exceptions.md R273: a command that ends with a non-OK status changes STATUS and RESULT and nothing else. -/
def Obligations.FailedCommandChangesNothing : Prop :=
  ∀ (w : Word) (s t : State), runCommand w s = .next t → statusCode t.status ≠ 0 →
    t = { s with status := ((w.extractLsb' 0 8).setWidth 32 <<< 8) ||| (statusCode t.status).setWidth 32, result := 0 }

/-- 60_exceptions.md R271, R272, R274; 30_encoding.md R93: the code of a command is that of the first error, in the order
of priority, whose cause holds. -/
def Obligations.FirstErrorInPriorityOrder : Prop :=
  ∀ (i : Instr) (s : State), ∃ t, exec i s = .next t ∧ statusCode t.status = expectedCode i s

/-- 10_state.md R25, R29: the frame of every command on what the host alone writes: the argument registers, the
parameters, the host's program and its readings are unchanged. -/
def Obligations.ArgumentRegistersUntouched : Prop :=
  ∀ (i : Instr) (s t : State), exec i s = .next t →
    t.params = s.params ∧ t.src = s.src ∧ t.dst = s.dst ∧ t.len = s.len ∧ t.pending = s.pending ∧ t.pos = s.pos ∧
      t.readings = s.readings

/-- 10_state.md R28, R33; 43_xts.md R245: the frame of every command on the slots and the units: a slot is written only by
its owner's SETKEY and CLEAR, a unit only by its own commands (the OMAC unit also by CIPH.SETKEY, which changes its phase
alone, and CIPH.CLEAR), the sector size only by XTS.SETSECTORSIZE, and the stored tweak only by XTS.SETTWEAK and
XTS.CLEAR. -/
def Obligations.UnitOwnership : Prop :=
  ∀ (i : Instr) (s t : State), exec i s = .next t →
    (i ∉ [.ciphSetkey, .ciphClear] → t.c0 = s.c0) ∧
    (i ∉ [.eaxSetkey, .eaxClear] → t.e = s.e) ∧
    (i ∉ [.xtsSetkey, .xtsClear] → t.x1 = s.x1 ∧ t.x2 = s.x2) ∧
    (i ∉ [.ciphSetkey, .ciphClear, .omacInitfirst, .omacUpdate, .omacFinalize, .omacClear] →
      (∀ d, i ≠ .omacInitnext d) → t.omac = s.omac) ∧
    (i = .ciphSetkey → t.omac.ctx = s.omac.ctx) ∧
    (i ∉ [.eaxSetkey, .eaxSetiv, .eaxAddauth, .eaxEncrypt, .eaxDecrypt, .eaxComputetag, .eaxChecktag, .eaxClear] →
      t.eax = s.eax) ∧
    (i ∉ [.xtsSetsectorsize, .xtsSetkey, .xtsSettweak, .xtsClear] → t.xts = s.xts) ∧
    (i ≠ .xtsSetsectorsize → t.xts.sectSize = s.xts.sectSize) ∧
    (i ∉ [.xtsSettweak, .xtsClear] → t.xts.T = s.xts.T)

/-- 20_memory.md R70, 30_encoding.md R93: the frame of every command on buffer memory: a failed command and a command
without a destination range leave all of it unchanged; a command with one leaves unchanged every byte outside
`(R[DST], n)`, with `n` the length the command's row of R93 gives. The premise on the sector size is an invariant
(InvariantKeptByStep). -/
def Obligations.OnlyDestinationBytesChange : Prop :=
  ∀ (i : Instr) (s t : State), 16 ≤ s.xts.sectSize.toNat → exec i s = .next t →
    (statusCode t.status ≠ 0 → t.mem = s.mem) ∧
    (destinationRange i s = none → ∀ a, readByte t.mem a = readByte s.mem a) ∧
    ∀ d n, destinationRange i s = some (d, n) →
      ∀ a, a < d.toNat ∨ d.toNat + n ≤ a → readByte t.mem a = readByte s.mem a

/-- 10_state.md R44 (derived): what the host can read from the window after a command does not depend on a key, a schedule,
an accumulator, a counter, a keystream, a tag, a tweak or on buffer memory, but for the verdict of EAX.CHECKTAG. -/
def Obligations.WindowIndependentOfSecrets : Prop :=
  ∀ (i : Instr) (s s' t t' : State), SamePublic s s' → exec i s = .next t → exec i s' = .next t' →
    SamePublic t t' ∧ (∀ o, o ≠ 0x14#8 → readWindow t o = readWindow t' o) ∧
      (i ≠ .eaxChecktag → readWindow t 0x14 = readWindow t' 0x14)

/-! ## Invariants -/

/-- 10_state.md R42, R32, R39, R23, R26; 20_memory.md R60: every step keeps the invariant. -/
def Obligations.InvariantKeptByStep : Prop :=
  ∀ s t : State, Inv s → step s = .next t → Inv t

/-- 10_state.md R45, 70_reset_and_hazards.md R301: the invariant holds right after reset, for every choice of the
parameters, every program of the host and every canonical memory the platform supplies. -/
def Obligations.InvariantAtReset : Prop :=
  Inv State.reset ∧
  ∀ (p : Params) (m : Memory) (prog : List HostOp), Memory.wf m = true → Memory.inSpace m = true →
    Inv { State.reset with params := p, mem := m, pending := prog }

/-- 10_state.md R42: its five invariants hold in every state that any number of steps reaches from reset, whatever the
parameters, the memory the platform supplies and the host's program. -/
def Obligations.ReachableStatesKeepSubkeysAndPositions : Prop :=
  ∀ (p : Params) (m : Memory) (prog : List HostOp) (n : Nat) (t : State),
    Memory.wf m = true → Memory.inSpace m = true →
    Host.Core.run Sys2Proof.core n { State.reset with params := p, mem := m, pending := prog } = .next t →
      (t.omac.phase ≠ .unset → t.c0.keyed = true ∧ t.omac.ctx.B = dblBE (blockEncrypt t.c0 0)) ∧
      (t.eax.phase ≠ .uninit → t.e.keyed = true) ∧
      (t.eax.phase = .aad ∨ t.eax.phase = .enc ∨ t.eax.phase = .tagged → t.eax.o.B = dblBE (blockEncrypt t.e 0)) ∧
      (t.xts.phase ≠ .unkeyed → t.x1.keyed = true ∧ t.x2.keyed = true) ∧
      t.omac.ctx.posn ≤ 16 ∧ t.eax.o.posn ≤ 16 ∧ t.eax.encPosn ≤ 16

/-! ## Phases -/

/-- 41_omac.md R168: the phases of the OMAC unit: a command the table does not list for the phase ends with ERR_SEQ, one
that ends with OK goes to the phase the table gives, and a failed one leaves the phase. -/
def Obligations.OmacPhaseTransitions : Prop :=
  ∀ (i : Instr) (s : State), ∃ t, exec i s = .next t ∧
    (omacNextPhase i s.c0.keyed s.omac.phase = none → t = { s with status := statusWord i.opcode 0x03, result := 0 }) ∧
    ∀ p, omacNextPhase i s.c0.keyed s.omac.phase = some p →
      t.omac.phase = (if statusCode t.status = 0 then p else s.omac.phase)

/-- 42_eax.md R190: the phases of the EAX unit, likewise. -/
def Obligations.EaxPhaseTransitions : Prop :=
  ∀ (i : Instr) (s : State), ∃ t, exec i s = .next t ∧
    (eaxNextPhase i s.eax.phase = none → t = { s with status := statusWord i.opcode 0x03, result := 0 }) ∧
    ∀ p, eaxNextPhase i s.eax.phase = some p →
      t.eax.phase = (if statusCode t.status = 0 then p else s.eax.phase)

/-- 43_xts.md R230: the phases of the XTS unit, likewise; XTS.DECSECTOR on a TINY payload slot is refused before the phase
is looked at (30_encoding.md R94, 60_exceptions.md R274). -/
def Obligations.XtsPhaseTransitions : Prop :=
  ∀ (i : Instr) (s : State), ∃ t, exec i s = .next t ∧
    (xtsNextPhase i s.xts.phase = none →
      t = { s with
        status := statusWord i.opcode (if i = .xtsDecsector ∧ s.params.varX1 = .tiny then 0x02 else 0x03), result := 0 }) ∧
    ∀ p, xtsNextPhase i s.xts.phase = some p →
      t.xts.phase = (if statusCode t.status = 0 then p else s.xts.phase)

/-! ## The cipher -/

/-- 40_cipher.md R124: a block's bytes 0..7 are the half `x` and bytes 8..15 the half `y`, each big-endian, read and
written the same way. -/
def Obligations.BlockHalvesBigEndian : Prop :=
  (∀ bs : List Byte, bs.length = 16 →
    (unpackBlock (blockOfBytes bs)).1.toNat = be (bs.take 8) ∧ (unpackBlock (blockOfBytes bs)).2.toNat = be (bs.drop 8)) ∧
  ∀ x y : Word64, blockBytes (packBlock (x, y)) = toBE 8 x.toNat ++ toBE 8 y.toNat

/-- 40_cipher.md R125: for every schedule, decryption undoes encryption and encryption undoes decryption. -/
def Obligations.DecryptInvertsEncrypt : Prop :=
  ∀ (ks : List Word64) (b : Block), decryptWith ks (encryptWith ks b) = b ∧ encryptWith ks (decryptWith ks b) = b

/-- 40_cipher.md R122, R126, R127: for every accepted key, the schedule is the sequence `k[0..R-1]` of the rules' two
recurrences over `k` and `l`, from the key words R126 gives. -/
def Obligations.KeyScheduleRecurrence : Prop :=
  ∀ key : List Byte, key.length = 16 ∨ key.length = 24 ∨ key.length = 32 →
    let m := key.length / 8
    let R := 30 + m
    let w : Nat → Word64 := fun j => BitVec.ofNat 64 (be ((key.drop (8 * j)).take 8))
    ∃ k l : Nat → Word64,
      k 0 = w (m - 1) ∧ (∀ i, i ≤ m - 2 → l i = w (m - 2 - i)) ∧
      (∀ i, i < R - 1 → l (i + m - 1) = (k i + (l i).rotateRight 8) ^^^ BitVec.ofNat 64 i ∧
        k (i + 1) = (k i).rotateLeft 3 ^^^ l (i + m - 1)) ∧
      keySchedule key = (List.range R).map k

/-- 40_cipher.md R129: from the tail state, SMALL's backward steps give the schedule of R127 in reverse order, so that
decryption on a SMALL slot equals that on a FULL slot with the same key. -/
def Obligations.SmallVariantRegeneratesBackward : Prop :=
  ∀ key : List Byte, key.length = 16 ∨ key.length = 24 ∨ key.length = 32 →
    expandBack (roundsOf key - 1) (keyTail key) = (keySchedule key).reverse ∧
    ∀ b : Block, decryptSmall key b = blockDecrypt (Slot.ofKey key) b

/-- 40_cipher.md R130: encryption that makes each subkey as it goes equals that of a FULL slot with the same key. -/
def Obligations.TinyVariantSameFunction : Prop :=
  ∀ key : List Byte, key.length = 16 ∨ key.length = 24 ∨ key.length = 32 →
    ∀ b : Block, encryptTiny key b = blockEncrypt (Slot.ofKey key) b

/-- 40_cipher.md R133, R134: in every state CIPH.KEYSIZE leaves RESULT = 32 and CIPH.BLOCKSIZE RESULT = 16. -/
def Obligations.CiphQueryResults : Prop :=
  decode 0x00000010#32 = .ok .ciphKeysize ∧ decode 0x00000011#32 = .ok .ciphBlocksize ∧
  ∀ s : State,
    exec .ciphKeysize s = .next { s with status := 0x00001000#32, result := 32 } ∧
    exec .ciphBlocksize s = .next { s with status := 0x00001100#32, result := 16 }

/-- 40_cipher.md R132: CIPH.SETKEY, with its two errors. The slot it leaves is a function of the key alone, so the whole
schedule and the rounds are replaced. What the unused words from `ks[R]` on are then is the model's own (log 6) and is not
stated. -/
def Obligations.CiphSetkeyResult : Prop :=
  decode 0x00000012#32 = .ok .ciphSetkey ∧
  ∃ slotOf : List Byte → Slot,
  (∀ key, key.length ∈ [16, 24, 32] → (slotOf key).keyed = true ∧ (slotOf key).rounds = 30 + key.length / 8 ∧
    (slotOf key).ks.toList.take (slotOf key).rounds = keySchedule key) ∧
  ∀ s : State,
    let n := s.len.toNat
    (n ∉ [16, 24, 32] → exec .ciphSetkey s = .next { s with status := 0x00001204#32, result := 0 }) ∧
    (n ∈ [16, 24, 32] → rangeValid s.params s.src n = false →
      exec .ciphSetkey s = .next { s with status := 0x00001207#32, result := 0 }) ∧
    (n ∈ [16, 24, 32] → rangeValid s.params s.src n = true →
      exec .ciphSetkey s = .next { s with
        c0 := slotOf (memRead s.mem s.src.toNat n)
        omac := { s.omac with phase := .unset }
        status := 0x00001200#32
        result := 0 })

/-- 40_cipher.md R135: CIPH.ENCRYPT, for every SRC and DST, with its two errors. -/
def Obligations.CiphEncryptResult : Prop :=
  decode 0x00000013#32 = .ok .ciphEncrypt ∧
  ∀ s : State,
    (s.c0.keyed = false → exec .ciphEncrypt s = .next { s with status := 0x00001303#32, result := 0 }) ∧
    (s.c0.keyed = true → rangeValid s.params s.src 16 = false ∨ rangeValid s.params s.dst 16 = false →
      exec .ciphEncrypt s = .next { s with status := 0x00001307#32, result := 0 }) ∧
    (s.c0.keyed = true → rangeValid s.params s.src 16 = true → rangeValid s.params s.dst 16 = true →
      ∃ m, exec .ciphEncrypt s = .next { s with mem := m, status := 0x00001300#32, result := 0 } ∧
        memRead m s.dst.toNat 16 =
          blockBytes (encryptWith (s.c0.ks.toList.take s.c0.rounds) (blockOfBytes (memRead s.mem s.src.toNat 16))) ∧
        SameOutside s.mem m s.dst 16)

/-- 40_cipher.md R136: CIPH.DECRYPT, for every SRC and DST, with its three errors in their order; and it gives back the
block CIPH.ENCRYPT was given. -/
def Obligations.CiphDecryptResult : Prop :=
  decode 0x00000014#32 = .ok .ciphDecrypt ∧
  ∀ s : State,
    (s.params.varC0 = .tiny → exec .ciphDecrypt s = .next { s with status := 0x00001402#32, result := 0 }) ∧
    (s.params.varC0 ≠ .tiny → s.c0.keyed = false →
      exec .ciphDecrypt s = .next { s with status := 0x00001403#32, result := 0 }) ∧
    (s.params.varC0 ≠ .tiny → s.c0.keyed = true →
      rangeValid s.params s.src 16 = false ∨ rangeValid s.params s.dst 16 = false →
      exec .ciphDecrypt s = .next { s with status := 0x00001407#32, result := 0 }) ∧
    (s.params.varC0 ≠ .tiny → s.c0.keyed = true → rangeValid s.params s.src 16 = true →
      rangeValid s.params s.dst 16 = true →
      ∃ m, exec .ciphDecrypt s = .next { s with mem := m, status := 0x00001400#32, result := 0 } ∧
        memRead m s.dst.toNat 16 =
          blockBytes (decryptWith (s.c0.ks.toList.take s.c0.rounds) (blockOfBytes (memRead s.mem s.src.toNat 16))) ∧
        SameOutside s.mem m s.dst 16 ∧
        ∀ b, blockOfBytes (memRead s.mem s.src.toNat 16) = blockEncrypt s.c0 b →
          memRead m s.dst.toNat 16 = blockBytes b)

/-- 40_cipher.md R137, 41_omac.md R173, 42_eax.md R202, 43_xts.md R246: in every state each CLEAR zeroises its unit and the
slots it owns (CIPH.CLEAR the OMAC unit too, OMAC.CLEAR not slot C0, XTS.CLEAR not the sector size). -/
def Obligations.ClearCommandsZeroise : Prop :=
  let slot0 : Slot := { keyed := false, rounds := 0, ks := Vector.replicate 34 0 }
  let ctx0 : OmacCtx := { B := 0, acc := 0, posn := 0 }
  decode 0x00000015#32 = .ok .ciphClear ∧ decode 0x00000024#32 = .ok .omacClear ∧
  decode 0x00000037#32 = .ok .eaxClear ∧ decode 0x00000045#32 = .ok .xtsClear ∧
  ∀ s : State,
    exec .ciphClear s =
      .next { s with c0 := slot0, omac := { phase := .unset, ctx := ctx0 }, status := 0x00001500#32, result := 0 } ∧
    exec .omacClear s = .next { s with omac := { phase := .unset, ctx := ctx0 }, status := 0x00002400#32, result := 0 } ∧
    exec .eaxClear s =
      .next { s with
        e := slot0
        eax := { phase := .uninit, ctr := 0, stream := 0, tag := 0, o := ctx0, encPosn := 0 }
        status := 0x00003700#32
        result := 0 } ∧
    exec .xtsClear s =
      .next { s with
        x1 := slot0
        x2 := slot0
        xts := { phase := .unkeyed, T := 0, sectSize := s.xts.sectSize }
        status := 0x00004500#32
        result := 0 }

/-! ## OMAC -/

/-- 41_omac.md R160, 43_xts.md R231: the two doublings byte by byte. -/
def Obligations.DoublingByteFormulas : Prop :=
  ∀ b : Block,
    (∀ i, i < 15 → blockByte (dblBE b) i = (blockByte b i <<< 1) ||| (blockByte b (i + 1) >>> 7)) ∧
    blockByte (dblBE b) 15 = (blockByte b 15 <<< 1) ^^^ (if (blockByte b 0).getLsbD 7 then 0x87#8 else 0#8) ∧
    blockByte (dblLE b) 0 = (blockByte b 0 <<< 1) ^^^ (if (blockByte b 15).getLsbD 7 then 0x87#8 else 0#8) ∧
    ∀ i, 1 ≤ i → i ≤ 15 → blockByte (dblLE b) i = (blockByte b i <<< 1) ||| (blockByte b (i - 1) >>> 7)

/-- 41_omac.md R165, 42_eax.md R192: splitting the data across several calls gives the same context, the same output and
the same keystream state as one call. -/
def Obligations.SplitDataGivesSameResult : Prop :=
  (∀ (enc : Block → Block) (c : OmacCtx) (d d' : List Byte),
    omacUpdate enc c (d ++ d') = omacUpdate enc (omacUpdate enc c d) d' ∧ omacUpdate enc c [] = c) ∧
  ∀ (enc : Block → Block) (x : Eax) (d d' : List Byte),
    ctrXor enc x (d ++ d') =
      ((ctrXor enc x d).1 ++ (ctrXor enc (ctrXor enc x d).2 d').1, (ctrXor enc (ctrXor enc x d).2 d').2)

/-- 41_omac.md R167: INITFIRST, the message in one piece and FINALIZE compute CMAC; with INITNEXT #t between, the CMAC of
`0^15 || t || M`, which is OMAC^t. -/
def Obligations.OmacComputesCmac : Prop :=
  ∀ (enc : Block → Block) (M : List Byte) (t : Byte),
    (omacFinalize enc (omacUpdate enc (omacInitFirst enc) M)).acc = cmac enc M ∧
    (omacFinalize enc (omacUpdate enc (omacInitNext (omacInitFirst enc) t) M)).acc = omacDomain enc t M

/-- 41_omac.md R169, R170: OMAC.INITFIRST and OMAC.INITNEXT #t, with their error. -/
def Obligations.OmacInitResults : Prop :=
  decode 0x00000020#32 = .ok .omacInitfirst ∧
  ∀ (s : State) (t : Byte), decode (0x00000021#32 ||| (t.setWidth 32 <<< 8)) = .ok (.omacInitnext t) ∧
    (s.c0.keyed = false → exec .omacInitfirst s = .next { s with status := 0x00002003#32, result := 0 }) ∧
    (s.c0.keyed = true → exec .omacInitfirst s =
      .next { s with
        omac := { phase := .ready, ctx := { B := dblBE (blockEncrypt s.c0 0), acc := 0, posn := 0 } }
        status := 0x00002000#32
        result := 0 }) ∧
    (s.omac.phase = .unset → exec (.omacInitnext t) s = .next { s with status := 0x00002103#32, result := 0 }) ∧
    (s.omac.phase ≠ .unset → exec (.omacInitnext t) s =
      .next { s with
        omac := { phase := .ready, ctx := { B := s.omac.ctx.B, acc := blockOfBytes (zeroBytes 15 ++ [t]), posn := 16 } }
        status := 0x00002100#32
        result := 0 })

/-- 41_omac.md R171: OMAC.UPDATE, for every length, with its two errors; a length of 0 changes nothing but STATUS and
RESULT. -/
def Obligations.OmacUpdateResult : Prop :=
  decode 0x00000022#32 = .ok .omacUpdate ∧
  ∀ s : State,
    let n := s.len.toNat
    (s.omac.phase ≠ .ready → exec .omacUpdate s = .next { s with status := 0x00002203#32, result := 0 }) ∧
    (s.omac.phase = .ready → rangeValid s.params s.src n = false →
      exec .omacUpdate s = .next { s with status := 0x00002207#32, result := 0 }) ∧
    (s.omac.phase = .ready → rangeValid s.params s.src n = true →
      exec .omacUpdate s = .next { s with
        omac := { phase := .ready
                  ctx := omacUpdate (blockEncrypt s.c0) s.omac.ctx (memRead s.mem s.src.toNat n) }
        status := 0x00002200#32
        result := 0 }) ∧
    (s.omac.phase = .ready → n = 0 → exec .omacUpdate s = .next { s with status := 0x00002200#32, result := 0 })

/-- 41_omac.md R172, R166: OMAC.FINALIZE, with its two errors: the tag is written to DST and left in the accumulator, the
subkey and the position are kept. -/
def Obligations.OmacFinalizeResult : Prop :=
  decode 0x00000023#32 = .ok .omacFinalize ∧
  ∀ s : State,
    let c := s.omac.ctx
    let last := if c.posn = 16 then c.acc ^^^ c.B else xorByteAt c.acc c.posn 0x80 ^^^ dblBE c.B
    let tag := blockEncrypt s.c0 last
    (s.omac.phase ≠ .ready → exec .omacFinalize s = .next { s with status := 0x00002303#32, result := 0 }) ∧
    (s.omac.phase = .ready → rangeValid s.params s.dst 16 = false →
      exec .omacFinalize s = .next { s with status := 0x00002307#32, result := 0 }) ∧
    (s.omac.phase = .ready → rangeValid s.params s.dst 16 = true →
      ∃ m, exec .omacFinalize s = .next { s with
          mem := m
          omac := { phase := .final, ctx := { B := c.B, acc := tag, posn := c.posn } }
          status := 0x00002300#32
          result := 0 } ∧
        memRead m s.dst.toNat 16 = blockBytes tag ∧ SameOutside s.mem m s.dst 16)

/-! ## EAX -/

/-- 42_eax.md R191: the counter is one more modulo 2^128 as a big-endian integer. -/
def Obligations.CounterIncrementsModulo : Prop :=
  ∀ c : Block, ctrIncrement c = c + 1 ∧
    blockBytes (ctrIncrement c) = toBE 16 ((be (blockBytes c) + 1) % 2 ^ 128)

/-- 42_eax.md R192: right after SETIV the output is the data under the keystream of blocks `BlockEncrypt(ctr + j)`, and
the counter advances once for each block of keystream made. -/
def Obligations.KeystreamClosedForm : Prop :=
  ∀ (enc : Block → Block) (x : Eax) (d : List Byte), x.encPosn = 16 →
    (ctrXor enc x d).1 = ctrCrypt enc x.ctr d ∧
    (ctrXor enc x d).2.ctr = x.ctr + BitVec.ofNat 128 ((d.length + 15) / 16) ∧
    (d ≠ [] → (ctrXor enc x d).2.encPosn = (d.length - 1) % 16 + 1)

/-- 42_eax.md R193: EAX.SETKEY, with its two errors. The slot it leaves is a function of the key alone. -/
def Obligations.EaxSetkeyResult : Prop :=
  decode 0x00000030#32 = .ok .eaxSetkey ∧
  ∃ slotOf : List Byte → Slot,
  (∀ key, key.length ∈ [16, 24, 32] → (slotOf key).keyed = true ∧ (slotOf key).rounds = 30 + key.length / 8 ∧
    (slotOf key).ks.toList.take (slotOf key).rounds = keySchedule key) ∧
  ∀ s : State,
    let n := s.len.toNat
    (n ∉ [16, 24, 32] → exec .eaxSetkey s = .next { s with status := 0x00003004#32, result := 0 }) ∧
    (n ∈ [16, 24, 32] → rangeValid s.params s.src n = false →
      exec .eaxSetkey s = .next { s with status := 0x00003007#32, result := 0 }) ∧
    (n ∈ [16, 24, 32] → rangeValid s.params s.src n = true →
      exec .eaxSetkey s = .next { s with
        e := slotOf (memRead s.mem s.src.toNat n)
        eax := { s.eax with phase := .keyed }
        status := 0x00003000#32
        result := 0 })

/-- 42_eax.md R194: EAX.SETIV, with its three errors: counter and tag are OMAC^0 of the nonce, and the associated-data
hash of domain 1 is open. -/
def Obligations.EaxSetivResult : Prop :=
  decode 0x00000031#32 = .ok .eaxSetiv ∧
  ∀ s : State,
    let n := s.len.toNat
    let enc := blockEncrypt s.e
    let N := omacDomain enc 0 (memRead s.mem s.src.toNat n)
    (s.eax.phase = .uninit → exec .eaxSetiv s = .next { s with status := 0x00003103#32, result := 0 }) ∧
    (s.eax.phase ≠ .uninit → n = 0 ∨ 16 < n →
      exec .eaxSetiv s = .next { s with status := 0x00003105#32, result := 0 }) ∧
    (s.eax.phase ≠ .uninit → 1 ≤ n → n ≤ 16 → rangeValid s.params s.src n = false →
      exec .eaxSetiv s = .next { s with status := 0x00003107#32, result := 0 }) ∧
    (s.eax.phase ≠ .uninit → 1 ≤ n → n ≤ 16 → rangeValid s.params s.src n = true →
      exec .eaxSetiv s = .next { s with
        eax := { phase := .aad, ctr := N, stream := s.eax.stream, tag := N
                 o := { B := dblBE (enc 0), acc := blockOfBytes (zeroBytes 15 ++ [0x01]), posn := 16 }
                 encPosn := 16 }
        status := 0x00003100#32
        result := 0 })

/-- 42_eax.md R195: EAX.ADDAUTH, for every length, with its two errors. -/
def Obligations.EaxAddauthResult : Prop :=
  decode 0x00000032#32 = .ok .eaxAddauth ∧
  ∀ s : State,
    let n := s.len.toNat
    (s.eax.phase ≠ .aad → exec .eaxAddauth s = .next { s with status := 0x00003203#32, result := 0 }) ∧
    (s.eax.phase = .aad → rangeValid s.params s.src n = false →
      exec .eaxAddauth s = .next { s with status := 0x00003207#32, result := 0 }) ∧
    (s.eax.phase = .aad → rangeValid s.params s.src n = true →
      exec .eaxAddauth s = .next { s with
        eax := { s.eax with o := omacUpdate (blockEncrypt s.e) s.eax.o (memRead s.mem s.src.toNat n) }
        status := 0x00003200#32
        result := 0 })

/-- 42_eax.md R196, R197; 20_memory.md R69: EAX.ENCRYPT, for every length and every SRC and DST, with its three errors: the
associated data is closed first when it is open, and the ciphertext is absorbed into domain 2. -/
def Obligations.EaxEncryptResult : Prop :=
  decode 0x00000033#32 = .ok .eaxEncrypt ∧
  ∀ s : State,
    let n := s.len.toNat
    let enc := blockEncrypt s.e
    let H := (omacFinalize enc s.eax.o).acc
    let x : Eax := if s.eax.phase = .aad then
        { s.eax with
          phase := .enc, tag := s.eax.tag ^^^ H
          o := { B := s.eax.o.B, acc := blockOfBytes (zeroBytes 15 ++ [0x02]), posn := 16 } }
      else s.eax
    let inPhase := s.eax.phase = .aad ∨ s.eax.phase = .enc
    let overlap := 0 < n ∧ s.src ≠ s.dst ∧ s.src.toNat < s.dst.toNat + n ∧ s.dst.toNat < s.src.toNat + n
    (¬ inPhase → exec .eaxEncrypt s = .next { s with status := 0x00003303#32, result := 0 }) ∧
    (inPhase → overlap → exec .eaxEncrypt s = .next { s with status := 0x00003306#32, result := 0 }) ∧
    (inPhase → ¬ overlap → rangeValid s.params s.src n = false ∨ rangeValid s.params s.dst n = false →
      exec .eaxEncrypt s = .next { s with status := 0x00003307#32, result := 0 }) ∧
    (inPhase → ¬ overlap → rangeValid s.params s.src n = true → rangeValid s.params s.dst n = true →
      ∃ m, let r := ctrXor enc x (memRead s.mem s.src.toNat n)
        exec .eaxEncrypt s = .next { s with
          mem := m
          eax := { r.2 with o := omacUpdate enc x.o r.1 }
          status := 0x00003300#32
          result := 0 } ∧
        memRead m s.dst.toNat n = r.1 ∧ SameOutside s.mem m s.dst n)

/-- 42_eax.md R196, R198; 20_memory.md R69: EAX.DECRYPT, likewise: the ciphertext is absorbed before it is decrypted. -/
def Obligations.EaxDecryptResult : Prop :=
  decode 0x00000034#32 = .ok .eaxDecrypt ∧
  ∀ s : State,
    let n := s.len.toNat
    let enc := blockEncrypt s.e
    let c := memRead s.mem s.src.toNat n
    let H := (omacFinalize enc s.eax.o).acc
    let x : Eax := if s.eax.phase = .aad then
        { s.eax with
          phase := .enc, tag := s.eax.tag ^^^ H
          o := { B := s.eax.o.B, acc := blockOfBytes (zeroBytes 15 ++ [0x02]), posn := 16 } }
      else s.eax
    let inPhase := s.eax.phase = .aad ∨ s.eax.phase = .enc
    let overlap := 0 < n ∧ s.src ≠ s.dst ∧ s.src.toNat < s.dst.toNat + n ∧ s.dst.toNat < s.src.toNat + n
    (¬ inPhase → exec .eaxDecrypt s = .next { s with status := 0x00003403#32, result := 0 }) ∧
    (inPhase → overlap → exec .eaxDecrypt s = .next { s with status := 0x00003406#32, result := 0 }) ∧
    (inPhase → ¬ overlap → rangeValid s.params s.src n = false ∨ rangeValid s.params s.dst n = false →
      exec .eaxDecrypt s = .next { s with status := 0x00003407#32, result := 0 }) ∧
    (inPhase → ¬ overlap → rangeValid s.params s.src n = true → rangeValid s.params s.dst n = true →
      ∃ m, let r := ctrXor enc x c
        exec .eaxDecrypt s = .next { s with
          mem := m
          eax := { r.2 with o := omacUpdate enc x.o c }
          status := 0x00003400#32
          result := 0 } ∧
        memRead m s.dst.toNat n = r.1 ∧ SameOutside s.mem m s.dst n)

/-- 42_eax.md R196, R199, R200: EAX.COMPUTETAG, with its three errors: the associated data is closed first when it is open
(the spec's own decision D20, R199), the hash of domain 2 is finalised into the tag, the first LEN bytes of the tag are
written, and the unit is TAGGED. -/
def Obligations.EaxComputetagResult : Prop :=
  decode 0x00000035#32 = .ok .eaxComputetag ∧
  ∀ s : State,
    let n := s.len.toNat
    let enc := blockEncrypt s.e
    let H := (omacFinalize enc s.eax.o).acc
    let y : Eax := if s.eax.phase = .aad then
        { s.eax with
          phase := .enc, tag := s.eax.tag ^^^ H
          o := { B := s.eax.o.B, acc := blockOfBytes (zeroBytes 15 ++ [0x02]), posn := 16 } }
      else s.eax
    let C := (omacFinalize enc y.o).acc
    let x : Eax := { y with phase := .tagged, tag := y.tag ^^^ C, o := { B := y.o.B, acc := C, posn := y.o.posn } }
    let inPhase := s.eax.phase = .aad ∨ s.eax.phase = .enc
    (¬ inPhase → exec .eaxComputetag s = .next { s with status := 0x00003503#32, result := 0 }) ∧
    (inPhase → 16 < n → exec .eaxComputetag s = .next { s with status := 0x00003505#32, result := 0 }) ∧
    (inPhase → n ≤ 16 → rangeValid s.params s.dst n = false →
      exec .eaxComputetag s = .next { s with status := 0x00003507#32, result := 0 }) ∧
    (inPhase → n ≤ 16 → rangeValid s.params s.dst n = true →
      ∃ m, exec .eaxComputetag s = .next { s with mem := m, eax := x, status := 0x00003500#32, result := 0 } ∧
        memRead m s.dst.toNat n = (blockBytes x.tag).take n ∧ SameOutside s.mem m s.dst n)

/-- 42_eax.md R196, R199, R201; 60_exceptions.md R276: EAX.CHECKTAG, with its three errors: the tag is completed as
EAX.COMPUTETAG completes it (decision D20 in AAD); RESULT is 1 exactly when the LEN bytes at SRC are the first LEN bytes
of the completed tag; a mismatch ends with OK and leaves the unit TAGGED all the same. -/
def Obligations.EaxChecktagResult : Prop :=
  decode 0x00000036#32 = .ok .eaxChecktag ∧
  ∀ s : State,
    let n := s.len.toNat
    let enc := blockEncrypt s.e
    let H := (omacFinalize enc s.eax.o).acc
    let y : Eax := if s.eax.phase = .aad then
        { s.eax with
          phase := .enc, tag := s.eax.tag ^^^ H
          o := { B := s.eax.o.B, acc := blockOfBytes (zeroBytes 15 ++ [0x02]), posn := 16 } }
      else s.eax
    let C := (omacFinalize enc y.o).acc
    let x : Eax := { y with phase := .tagged, tag := y.tag ^^^ C, o := { B := y.o.B, acc := C, posn := y.o.posn } }
    let inPhase := s.eax.phase = .aad ∨ s.eax.phase = .enc
    (¬ inPhase → exec .eaxChecktag s = .next { s with status := 0x00003603#32, result := 0 }) ∧
    (inPhase → n = 0 ∨ 16 < n → exec .eaxChecktag s = .next { s with status := 0x00003605#32, result := 0 }) ∧
    (inPhase → 1 ≤ n → n ≤ 16 → rangeValid s.params s.src n = false →
      exec .eaxChecktag s = .next { s with status := 0x00003607#32, result := 0 }) ∧
    (inPhase → 1 ≤ n → n ≤ 16 → rangeValid s.params s.src n = true →
      exec .eaxChecktag s = .next { s with
        eax := x
        status := 0x00003600#32
        result := if memRead s.mem s.src.toNat n = (blockBytes x.tag).take n then 1 else 0 })

/-- 42_eax.md R198: from the state EAX.ENCRYPT started in, EAX.DECRYPT of what it wrote gives back the plaintext and leaves
the same session state. -/
def Obligations.EaxDecryptRecoversPlaintext : Prop :=
  ∀ s t s' t' : State,
    exec .eaxEncrypt s = .next t → statusCode t.status = 0 →
    s'.eax = s.eax → s'.e = s.e → s'.len = s.len → s'.src = s.dst → s'.mem = t.mem →
    exec .eaxDecrypt s' = .next t' → statusCode t'.status = 0 →
      memRead t'.mem s'.dst.toNat s'.len.toNat = memRead s.mem s.src.toNat s.len.toNat ∧ t'.eax = t.eax

/-- 42_eax.md R203: SETIV, ADDAUTH, ENCRYPT and COMPUTETAG, each ending with OK and the host setting registers and memory
between them as it likes, write the EAX ciphertext and the first bytes of the EAX tag of the message. -/
def Obligations.EaxMessageClosedForm : Prop :=
  ∀ s1 t1 s2 t2 s3 t3 s4 t4 : State,
    exec .eaxSetiv s1 = .next t1 → statusCode t1.status = 0 →
    s2.eax = t1.eax → s2.e = t1.e → exec .eaxAddauth s2 = .next t2 → statusCode t2.status = 0 →
    s3.eax = t2.eax → s3.e = t2.e → exec .eaxEncrypt s3 = .next t3 → statusCode t3.status = 0 →
    s4.eax = t3.eax → s4.e = t3.e → exec .eaxComputetag s4 = .next t4 → statusCode t4.status = 0 →
      let enc := blockEncrypt s1.e
      let iv := memRead s1.mem s1.src.toNat s1.len.toNat
      let A := memRead s2.mem s2.src.toNat s2.len.toNat
      let M := memRead s3.mem s3.src.toNat s3.len.toNat
      let C := ctrCrypt enc (omacDomain enc 0 iv) M
      memRead t3.mem s3.dst.toNat s3.len.toNat = C ∧
      memRead t4.mem s4.dst.toNat s4.len.toNat = (blockBytes (eaxTag enc iv A C)).take s4.len.toNat

/-! ## XTS -/

/-- 43_xts.md R236: decrypting an encrypted sector gives it back, for every slot, tweak and sector of at least 16 bytes. -/
def Obligations.XtsSectorRoundTrip : Prop :=
  ∀ (x1 : Slot) (T : Block) (P : List Byte), 16 ≤ P.length →
    xtsDecrypt (blockDecrypt x1) T (xtsEncrypt (blockEncrypt x1) T P) = P

/-- 43_xts.md R232 to R234: the sector geometry: the ciphertext is as long as the plaintext; block `j` before the last
complete block, and the last too when no tail is left, is encrypted under `T_j`; with a tail of `r` bytes the tail is the
first `r` bytes of that block's ciphertext, and the block itself the plaintext tail followed by the rest, under `T_q`. -/
def Obligations.XtsCiphertextGeometry : Prop :=
  ∀ (x1 : Slot) (T : Block) (P : List Byte), 16 ≤ P.length →
    let enc := blockEncrypt x1
    let q := P.length / 16
    let r := P.length % 16
    let C := xtsEncrypt enc T P
    let slice := fun (d : List Byte) (i n : Nat) => (d.drop i).take n
    let xexAt := fun (b t : Block) => blockBytes (enc (b ^^^ t) ^^^ t)
    let CC := xexAt (blockOfBytes (slice P (16 * (q - 1)) 16)) (dblLEpow (q - 1) T)
    C.length = P.length ∧
    (∀ j, j < q - 1 → slice C (16 * j) 16 = xexAt (blockOfBytes (slice P (16 * j) 16)) (dblLEpow j T)) ∧
    (r = 0 → slice C (16 * (q - 1)) 16 = CC) ∧
    (0 < r → C.drop (16 * q) = CC.take r ∧
      slice C (16 * (q - 1)) 16 = xexAt (blockOfBytes (P.drop (16 * q) ++ CC.drop r)) (dblLEpow q T))

/-- 43_xts.md R240: XTS.SETSECTORSIZE, in every phase, with its error. -/
def Obligations.XtsSetsectorsizeResult : Prop :=
  decode 0x00000040#32 = .ok .xtsSetsectorsize ∧
  ∀ s : State,
    (s.len.toNat < 16 → exec .xtsSetsectorsize s = .next { s with status := 0x00004005#32, result := 0 }) ∧
    (16 ≤ s.len.toNat → ∃ t,
      exec .xtsSetsectorsize s = .next t ∧ readWindow t 0x1C = s.len ∧
      t = { s with xts := { s.xts with sectSize := s.len }, status := 0x00004000#32, result := 0 })

/-- 43_xts.md R241: XTS.SETKEY in both key bindings, with its two errors: the first half keys X1 and the second X2, or the
one key keys both. The slots it leaves are a function of the key alone. -/
def Obligations.XtsSetkeyResult : Prop :=
  decode 0x00000041#32 = .ok .xtsSetkey ∧
  ∃ slotOf : List Byte → Slot,
  (∀ key, key.length ∈ [16, 24, 32] → (slotOf key).keyed = true ∧ (slotOf key).rounds = 30 + key.length / 8 ∧
    (slotOf key).ks.toList.take (slotOf key).rounds = keySchedule key) ∧
  ∀ s : State,
    let n := s.len.toNat
    let key := memRead s.mem s.src.toNat n
    let lenOk := (s.params.xtsSingleKey = false ∧ n ∈ [32, 48, 64]) ∨ (s.params.xtsSingleKey = true ∧ n ∈ [16, 24, 32])
    let h := if s.params.xtsSingleKey then n else n / 2
    let key2 := if s.params.xtsSingleKey then key else key.drop h
    (¬ lenOk → exec .xtsSetkey s = .next { s with status := 0x00004104#32, result := 0 }) ∧
    (lenOk → rangeValid s.params s.src n = false →
      exec .xtsSetkey s = .next { s with status := 0x00004107#32, result := 0 }) ∧
    (lenOk → rangeValid s.params s.src n = true →
      exec .xtsSetkey s = .next { s with
        x1 := slotOf (key.take h)
        x2 := slotOf key2
        xts := { s.xts with phase := .keyed }
        status := 0x00004100#32
        result := 0 })

/-- 43_xts.md R242: XTS.SETTWEAK, with its three errors: the tweak is padded with zeros at its end and encrypted with X2. -/
def Obligations.XtsSettweakResult : Prop :=
  decode 0x00000042#32 = .ok .xtsSettweak ∧
  ∀ s : State,
    let n := s.len.toNat
    (s.xts.phase = .unkeyed → exec .xtsSettweak s = .next { s with status := 0x00004203#32, result := 0 }) ∧
    (s.xts.phase ≠ .unkeyed → 16 < n → exec .xtsSettweak s = .next { s with status := 0x00004205#32, result := 0 }) ∧
    (s.xts.phase ≠ .unkeyed → n ≤ 16 → rangeValid s.params s.src n = false →
      exec .xtsSettweak s = .next { s with status := 0x00004207#32, result := 0 }) ∧
    (s.xts.phase ≠ .unkeyed → n ≤ 16 → rangeValid s.params s.src n = true →
      exec .xtsSettweak s = .next { s with
        xts := { phase := .tweaked
                 T := blockEncrypt s.x2 (blockOfBytes (memRead s.mem s.src.toNat n ++ List.replicate (16 - n) 0))
                 sectSize := s.xts.sectSize }
        status := 0x00004200#32
        result := 0 })

/-- 43_xts.md R243; 20_memory.md R69: XTS.ENCSECTOR, for every SRC and DST, with its three errors; the stored tweak is
kept. The premise on the sector size is an invariant (InvariantKeptByStep). -/
def Obligations.XtsEncsectorResult : Prop :=
  decode 0x00000043#32 = .ok .xtsEncsector ∧
  ∀ s : State, 16 ≤ s.xts.sectSize.toNat →
    let n := s.xts.sectSize.toNat
    let overlap := 0 < n ∧ s.src ≠ s.dst ∧ s.src.toNat < s.dst.toNat + n ∧ s.dst.toNat < s.src.toNat + n
    (s.xts.phase ≠ .tweaked → exec .xtsEncsector s = .next { s with status := 0x00004303#32, result := 0 }) ∧
    (s.xts.phase = .tweaked → overlap → exec .xtsEncsector s = .next { s with status := 0x00004306#32, result := 0 }) ∧
    (s.xts.phase = .tweaked → ¬ overlap →
      rangeValid s.params s.src n = false ∨ rangeValid s.params s.dst n = false →
      exec .xtsEncsector s = .next { s with status := 0x00004307#32, result := 0 }) ∧
    (s.xts.phase = .tweaked → ¬ overlap → rangeValid s.params s.src n = true → rangeValid s.params s.dst n = true →
      ∃ m, exec .xtsEncsector s = .next { s with mem := m, status := 0x00004300#32, result := 0 } ∧
        memRead m s.dst.toNat n = xtsEncrypt (blockEncrypt s.x1) s.xts.T (memRead s.mem s.src.toNat n) ∧
        SameOutside s.mem m s.dst n)

/-- 43_xts.md R244; 20_memory.md R69: XTS.DECSECTOR, for every SRC and DST, with its four errors in their order. The
premise on the sector size is an invariant (InvariantKeptByStep). -/
def Obligations.XtsDecsectorResult : Prop :=
  decode 0x00000044#32 = .ok .xtsDecsector ∧
  ∀ s : State, 16 ≤ s.xts.sectSize.toNat →
    let n := s.xts.sectSize.toNat
    let overlap := 0 < n ∧ s.src ≠ s.dst ∧ s.src.toNat < s.dst.toNat + n ∧ s.dst.toNat < s.src.toNat + n
    (s.params.varX1 = .tiny → exec .xtsDecsector s = .next { s with status := 0x00004402#32, result := 0 }) ∧
    (s.params.varX1 ≠ .tiny → s.xts.phase ≠ .tweaked →
      exec .xtsDecsector s = .next { s with status := 0x00004403#32, result := 0 }) ∧
    (s.params.varX1 ≠ .tiny → s.xts.phase = .tweaked → overlap →
      exec .xtsDecsector s = .next { s with status := 0x00004406#32, result := 0 }) ∧
    (s.params.varX1 ≠ .tiny → s.xts.phase = .tweaked → ¬ overlap →
      rangeValid s.params s.src n = false ∨ rangeValid s.params s.dst n = false →
      exec .xtsDecsector s = .next { s with status := 0x00004407#32, result := 0 }) ∧
    (s.params.varX1 ≠ .tiny → s.xts.phase = .tweaked → ¬ overlap → rangeValid s.params s.src n = true →
      rangeValid s.params s.dst n = true →
      ∃ m, exec .xtsDecsector s = .next { s with mem := m, status := 0x00004400#32, result := 0 } ∧
        memRead m s.dst.toNat n = xtsDecrypt (blockDecrypt s.x1) s.xts.T (memRead s.mem s.src.toNat n) ∧
        SameOutside s.mem m s.dst n)

/-- 43_xts.md R236, R243 to R245: with the tweak and the key kept, XTS.DECSECTOR of what XTS.ENCSECTOR wrote restores the
sector, with no second SETTWEAK. The premise on the sector size is an invariant (InvariantKeptByStep). -/
def Obligations.XtsDecsectorRestoresSector : Prop :=
  ∀ s t s' t' : State, 16 ≤ s.xts.sectSize.toNat →
    exec .xtsEncsector s = .next t → statusCode t.status = 0 →
    s'.xts = t.xts → s'.x1 = t.x1 → s'.src = s.dst → s'.mem = t.mem →
    exec .xtsDecsector s' = .next t' → statusCode t'.status = 0 →
      memRead t'.mem s'.dst.toNat s.xts.sectSize.toNat = memRead s.mem s.src.toNat s.xts.sectSize.toNat
end

