-- ==== Sys2Proof/Laws/Bytes.lean ====
section
/-! SUPPORT. Byte strings, integers and blocks: the two readings are inverse to one another. -/

namespace Sys2Proof.Laws

open Sys2Proof.Machine

@[simp] theorem length_toBE (n v : Nat) : (toBE n v).length = n := by
  induction n with
  | zero => rfl
  | succ n ih => simp [toBE, ih]

@[simp] theorem length_toLE (n v : Nat) : (toLE n v).length = n := by
  induction n generalizing v with
  | zero => rfl
  | succ n ih => simp [toLE, ih]

theorem be_lt (bs : List Byte) : be bs < 256 ^ bs.length := by
  induction bs with
  | nil => simp [be]
  | cons b bs ih =>
    have hb : b.toNat < 256 := b.isLt
    have h : b.toNat * 256 ^ bs.length + 256 ^ bs.length ≤ 256 * 256 ^ bs.length := by
      rw [← Nat.succ_mul]; exact Nat.mul_le_mul_right _ hb
    simp only [be, List.length_cons, Nat.pow_succ, Nat.mul_comm _ 256]
    omega

theorem be_append (a b : List Byte) : be (a ++ b) = be a * 256 ^ b.length + be b := by
  induction a with
  | nil => simp [be]
  | cons x a ih => simp only [List.cons_append, be, ih, List.length_append, Nat.pow_add]; ring

theorem be_toBE (n v : Nat) : be (toBE n v) = v % 256 ^ n := by
  induction n with
  | zero => simp [be, toBE, Nat.mod_one]
  | succ n ih =>
    have h : (BitVec.ofNat 8 (v / 256 ^ n)).toNat = v / 256 ^ n % 256 := by simp
    rw [toBE, be, ih, length_toBE, h, Nat.pow_succ, Nat.mod_mul, Nat.mul_comm, Nat.add_comm]

theorem toBE_add_mul (n v k : Nat) : toBE n (k * 256 ^ n + v) = toBE n v := by
  induction n generalizing k with
  | zero => rfl
  | succ n ih =>
    have hp : 0 < 256 ^ n := Nat.pow_pos (by decide)
    have e : k * 256 ^ (n + 1) + v = (k * 256) * 256 ^ n + v := by rw [Nat.pow_succ]; ring
    have hd : ((k * 256) * 256 ^ n + v) / 256 ^ n = k * 256 + v / 256 ^ n := by
      rw [Nat.add_comm, Nat.add_mul_div_right _ _ hp, Nat.add_comm]
    rw [e, toBE, toBE, ih, hd]
    congr 1
    apply BitVec.eq_of_toNat_eq
    simp

theorem toBE_be (bs : List Byte) : toBE bs.length (be bs) = bs := by
  induction bs with
  | nil => rfl
  | cons b bs ih =>
    have hp : 0 < 256 ^ bs.length := Nat.pow_pos (by decide)
    have hd : (b.toNat * 256 ^ bs.length + be bs) / 256 ^ bs.length = b.toNat := by
      rw [Nat.add_comm, Nat.add_mul_div_right _ _ hp, Nat.div_eq_of_lt (be_lt bs), Nat.zero_add]
    simp only [be, List.length_cons, toBE, toBE_add_mul, ih, hd, BitVec.ofNat_toNat, BitVec.setWidth_eq]

theorem le_toLE (n v : Nat) : le (toLE n v) = v % 256 ^ n := by
  induction n generalizing v with
  | zero => simp [le, toLE, Nat.mod_one]
  | succ n ih =>
    have h : (BitVec.ofNat 8 v).toNat = v % 256 := by simp
    rw [toLE, le, ih, h, Nat.pow_succ, Nat.mul_comm (256 ^ n), Nat.mod_mul]

theorem toLE_le (bs : List Byte) : toLE bs.length (le bs) = bs := by
  induction bs with
  | nil => rfl
  | cons b bs ih =>
    have hb : b.toNat < 256 := b.isLt
    have hd : (b.toNat + 256 * le bs) / 256 = le bs := by omega
    simp only [le, List.length_cons, toLE, hd, ih]
    congr 1
    apply BitVec.eq_of_toNat_eq
    simp
    omega

theorem le_lt (bs : List Byte) : le bs < 256 ^ bs.length := by
  induction bs with
  | nil => simp [le]
  | cons b bs ih =>
    have hb : b.toNat < 256 := b.isLt
    simp only [le, List.length_cons, Nat.pow_succ]
    omega

@[simp] theorem length_blockBytes (b : Block) : (blockBytes b).length = 16 := by simp [blockBytes]

@[simp] theorem blockOfBytes_blockBytes (b : Block) : blockOfBytes (blockBytes b) = b := by
  apply BitVec.eq_of_toNat_eq
  have hb : b.toNat < 2 ^ 128 := b.isLt
  rw [blockOfBytes, blockBytes, be_toBE, BitVec.toNat_ofNat]
  omega

theorem blockBytes_blockOfBytes {bs : List Byte} (h : bs.length = 16) : blockBytes (blockOfBytes bs) = bs := by
  have hl : be bs < 256 ^ 16 := h ▸ be_lt bs
  have e : (blockOfBytes bs).toNat = be bs := by
    rw [blockOfBytes, BitVec.toNat_ofNat, Nat.mod_eq_of_lt (by omega)]
  rw [blockBytes, e]
  exact h ▸ toBE_be bs

@[simp] theorem length_xorBytes (a b : List Byte) : (xorBytes a b).length = min a.length b.length := by
  simp [xorBytes]

@[simp] theorem length_zeroBytes (n : Nat) : (zeroBytes n).length = n := by simp [zeroBytes]

theorem getElem_toBE (n v i : Nat) (h : i < n) :
    (toBE n v)[i]'(by simpa using h) = BitVec.ofNat 8 (v / 256 ^ (n - 1 - i)) := by
  induction n generalizing i with
  | zero => omega
  | succ n ih =>
    cases i with
    | zero => simp [toBE]
    | succ i =>
      have e : n + 1 - 1 - (i + 1) = n - 1 - i := by omega
      simp only [toBE, List.getElem_cons_succ, e]
      exact ih i (by omega)

/-- Byte `i` of a block is byte `i` of its byte string (00_scope.md R9). -/
theorem getElem_blockBytes (b : Block) (i : Nat) (h : i < 16) :
    (blockBytes b)[i]'(by simpa using h) = blockByte b i := by
  unfold blockBytes
  rw [getElem_toBE 16 b.toNat i h]
  apply BitVec.eq_of_toNat_eq
  have e : (256 : Nat) ^ (16 - 1 - i) = 2 ^ (8 * (15 - i)) := by
    rw [show (256 : Nat) = 2 ^ 8 by decide, ← Nat.pow_mul]
  simp [blockByte, e, Nat.shiftRight_eq_div_pow]

end Sys2Proof.Laws
end

