-- ==== Sys2Proof/Laws/State.lean ====
section
/-! SUPPORT. One lemma a field and an update, each true by rfl: reading a field after an update. -/

namespace Sys2Proof.Machine

variable (s : State)

@[simp] theorem State.setSrc_params (v : Word) : (s.setSrc v).params = s.params := rfl
@[simp] theorem State.setSrc_status (v : Word) : (s.setSrc v).status = s.status := rfl
@[simp] theorem State.setSrc_src (v : Word) : (s.setSrc v).src = v := rfl
@[simp] theorem State.setSrc_dst (v : Word) : (s.setSrc v).dst = s.dst := rfl
@[simp] theorem State.setSrc_len (v : Word) : (s.setSrc v).len = s.len := rfl
@[simp] theorem State.setSrc_result (v : Word) : (s.setSrc v).result = s.result := rfl
@[simp] theorem State.setSrc_c0 (v : Word) : (s.setSrc v).c0 = s.c0 := rfl
@[simp] theorem State.setSrc_e (v : Word) : (s.setSrc v).e = s.e := rfl
@[simp] theorem State.setSrc_x1 (v : Word) : (s.setSrc v).x1 = s.x1 := rfl
@[simp] theorem State.setSrc_x2 (v : Word) : (s.setSrc v).x2 = s.x2 := rfl
@[simp] theorem State.setSrc_omac (v : Word) : (s.setSrc v).omac = s.omac := rfl
@[simp] theorem State.setSrc_eax (v : Word) : (s.setSrc v).eax = s.eax := rfl
@[simp] theorem State.setSrc_xts (v : Word) : (s.setSrc v).xts = s.xts := rfl
@[simp] theorem State.setSrc_mem (v : Word) : (s.setSrc v).mem = s.mem := rfl
@[simp] theorem State.setSrc_pending (v : Word) : (s.setSrc v).pending = s.pending := rfl
@[simp] theorem State.setSrc_pos (v : Word) : (s.setSrc v).pos = s.pos := rfl
@[simp] theorem State.setSrc_readings (v : Word) : (s.setSrc v).readings = s.readings := rfl

@[simp] theorem State.setDst_params (v : Word) : (s.setDst v).params = s.params := rfl
@[simp] theorem State.setDst_status (v : Word) : (s.setDst v).status = s.status := rfl
@[simp] theorem State.setDst_src (v : Word) : (s.setDst v).src = s.src := rfl
@[simp] theorem State.setDst_dst (v : Word) : (s.setDst v).dst = v := rfl
@[simp] theorem State.setDst_len (v : Word) : (s.setDst v).len = s.len := rfl
@[simp] theorem State.setDst_result (v : Word) : (s.setDst v).result = s.result := rfl
@[simp] theorem State.setDst_c0 (v : Word) : (s.setDst v).c0 = s.c0 := rfl
@[simp] theorem State.setDst_e (v : Word) : (s.setDst v).e = s.e := rfl
@[simp] theorem State.setDst_x1 (v : Word) : (s.setDst v).x1 = s.x1 := rfl
@[simp] theorem State.setDst_x2 (v : Word) : (s.setDst v).x2 = s.x2 := rfl
@[simp] theorem State.setDst_omac (v : Word) : (s.setDst v).omac = s.omac := rfl
@[simp] theorem State.setDst_eax (v : Word) : (s.setDst v).eax = s.eax := rfl
@[simp] theorem State.setDst_xts (v : Word) : (s.setDst v).xts = s.xts := rfl
@[simp] theorem State.setDst_mem (v : Word) : (s.setDst v).mem = s.mem := rfl
@[simp] theorem State.setDst_pending (v : Word) : (s.setDst v).pending = s.pending := rfl
@[simp] theorem State.setDst_pos (v : Word) : (s.setDst v).pos = s.pos := rfl
@[simp] theorem State.setDst_readings (v : Word) : (s.setDst v).readings = s.readings := rfl

@[simp] theorem State.setLen_params (v : Word) : (s.setLen v).params = s.params := rfl
@[simp] theorem State.setLen_status (v : Word) : (s.setLen v).status = s.status := rfl
@[simp] theorem State.setLen_src (v : Word) : (s.setLen v).src = s.src := rfl
@[simp] theorem State.setLen_dst (v : Word) : (s.setLen v).dst = s.dst := rfl
@[simp] theorem State.setLen_len (v : Word) : (s.setLen v).len = v := rfl
@[simp] theorem State.setLen_result (v : Word) : (s.setLen v).result = s.result := rfl
@[simp] theorem State.setLen_c0 (v : Word) : (s.setLen v).c0 = s.c0 := rfl
@[simp] theorem State.setLen_e (v : Word) : (s.setLen v).e = s.e := rfl
@[simp] theorem State.setLen_x1 (v : Word) : (s.setLen v).x1 = s.x1 := rfl
@[simp] theorem State.setLen_x2 (v : Word) : (s.setLen v).x2 = s.x2 := rfl
@[simp] theorem State.setLen_omac (v : Word) : (s.setLen v).omac = s.omac := rfl
@[simp] theorem State.setLen_eax (v : Word) : (s.setLen v).eax = s.eax := rfl
@[simp] theorem State.setLen_xts (v : Word) : (s.setLen v).xts = s.xts := rfl
@[simp] theorem State.setLen_mem (v : Word) : (s.setLen v).mem = s.mem := rfl
@[simp] theorem State.setLen_pending (v : Word) : (s.setLen v).pending = s.pending := rfl
@[simp] theorem State.setLen_pos (v : Word) : (s.setLen v).pos = s.pos := rfl
@[simp] theorem State.setLen_readings (v : Word) : (s.setLen v).readings = s.readings := rfl

@[simp] theorem State.setC0_params (v : Slot) : (s.setC0 v).params = s.params := rfl
@[simp] theorem State.setC0_status (v : Slot) : (s.setC0 v).status = s.status := rfl
@[simp] theorem State.setC0_src (v : Slot) : (s.setC0 v).src = s.src := rfl
@[simp] theorem State.setC0_dst (v : Slot) : (s.setC0 v).dst = s.dst := rfl
@[simp] theorem State.setC0_len (v : Slot) : (s.setC0 v).len = s.len := rfl
@[simp] theorem State.setC0_result (v : Slot) : (s.setC0 v).result = s.result := rfl
@[simp] theorem State.setC0_c0 (v : Slot) : (s.setC0 v).c0 = v := rfl
@[simp] theorem State.setC0_e (v : Slot) : (s.setC0 v).e = s.e := rfl
@[simp] theorem State.setC0_x1 (v : Slot) : (s.setC0 v).x1 = s.x1 := rfl
@[simp] theorem State.setC0_x2 (v : Slot) : (s.setC0 v).x2 = s.x2 := rfl
@[simp] theorem State.setC0_omac (v : Slot) : (s.setC0 v).omac = s.omac := rfl
@[simp] theorem State.setC0_eax (v : Slot) : (s.setC0 v).eax = s.eax := rfl
@[simp] theorem State.setC0_xts (v : Slot) : (s.setC0 v).xts = s.xts := rfl
@[simp] theorem State.setC0_mem (v : Slot) : (s.setC0 v).mem = s.mem := rfl
@[simp] theorem State.setC0_pending (v : Slot) : (s.setC0 v).pending = s.pending := rfl
@[simp] theorem State.setC0_pos (v : Slot) : (s.setC0 v).pos = s.pos := rfl
@[simp] theorem State.setC0_readings (v : Slot) : (s.setC0 v).readings = s.readings := rfl

@[simp] theorem State.setE_params (v : Slot) : (s.setE v).params = s.params := rfl
@[simp] theorem State.setE_status (v : Slot) : (s.setE v).status = s.status := rfl
@[simp] theorem State.setE_src (v : Slot) : (s.setE v).src = s.src := rfl
@[simp] theorem State.setE_dst (v : Slot) : (s.setE v).dst = s.dst := rfl
@[simp] theorem State.setE_len (v : Slot) : (s.setE v).len = s.len := rfl
@[simp] theorem State.setE_result (v : Slot) : (s.setE v).result = s.result := rfl
@[simp] theorem State.setE_c0 (v : Slot) : (s.setE v).c0 = s.c0 := rfl
@[simp] theorem State.setE_e (v : Slot) : (s.setE v).e = v := rfl
@[simp] theorem State.setE_x1 (v : Slot) : (s.setE v).x1 = s.x1 := rfl
@[simp] theorem State.setE_x2 (v : Slot) : (s.setE v).x2 = s.x2 := rfl
@[simp] theorem State.setE_omac (v : Slot) : (s.setE v).omac = s.omac := rfl
@[simp] theorem State.setE_eax (v : Slot) : (s.setE v).eax = s.eax := rfl
@[simp] theorem State.setE_xts (v : Slot) : (s.setE v).xts = s.xts := rfl
@[simp] theorem State.setE_mem (v : Slot) : (s.setE v).mem = s.mem := rfl
@[simp] theorem State.setE_pending (v : Slot) : (s.setE v).pending = s.pending := rfl
@[simp] theorem State.setE_pos (v : Slot) : (s.setE v).pos = s.pos := rfl
@[simp] theorem State.setE_readings (v : Slot) : (s.setE v).readings = s.readings := rfl

@[simp] theorem State.setX1_params (v : Slot) : (s.setX1 v).params = s.params := rfl
@[simp] theorem State.setX1_status (v : Slot) : (s.setX1 v).status = s.status := rfl
@[simp] theorem State.setX1_src (v : Slot) : (s.setX1 v).src = s.src := rfl
@[simp] theorem State.setX1_dst (v : Slot) : (s.setX1 v).dst = s.dst := rfl
@[simp] theorem State.setX1_len (v : Slot) : (s.setX1 v).len = s.len := rfl
@[simp] theorem State.setX1_result (v : Slot) : (s.setX1 v).result = s.result := rfl
@[simp] theorem State.setX1_c0 (v : Slot) : (s.setX1 v).c0 = s.c0 := rfl
@[simp] theorem State.setX1_e (v : Slot) : (s.setX1 v).e = s.e := rfl
@[simp] theorem State.setX1_x1 (v : Slot) : (s.setX1 v).x1 = v := rfl
@[simp] theorem State.setX1_x2 (v : Slot) : (s.setX1 v).x2 = s.x2 := rfl
@[simp] theorem State.setX1_omac (v : Slot) : (s.setX1 v).omac = s.omac := rfl
@[simp] theorem State.setX1_eax (v : Slot) : (s.setX1 v).eax = s.eax := rfl
@[simp] theorem State.setX1_xts (v : Slot) : (s.setX1 v).xts = s.xts := rfl
@[simp] theorem State.setX1_mem (v : Slot) : (s.setX1 v).mem = s.mem := rfl
@[simp] theorem State.setX1_pending (v : Slot) : (s.setX1 v).pending = s.pending := rfl
@[simp] theorem State.setX1_pos (v : Slot) : (s.setX1 v).pos = s.pos := rfl
@[simp] theorem State.setX1_readings (v : Slot) : (s.setX1 v).readings = s.readings := rfl

@[simp] theorem State.setX2_params (v : Slot) : (s.setX2 v).params = s.params := rfl
@[simp] theorem State.setX2_status (v : Slot) : (s.setX2 v).status = s.status := rfl
@[simp] theorem State.setX2_src (v : Slot) : (s.setX2 v).src = s.src := rfl
@[simp] theorem State.setX2_dst (v : Slot) : (s.setX2 v).dst = s.dst := rfl
@[simp] theorem State.setX2_len (v : Slot) : (s.setX2 v).len = s.len := rfl
@[simp] theorem State.setX2_result (v : Slot) : (s.setX2 v).result = s.result := rfl
@[simp] theorem State.setX2_c0 (v : Slot) : (s.setX2 v).c0 = s.c0 := rfl
@[simp] theorem State.setX2_e (v : Slot) : (s.setX2 v).e = s.e := rfl
@[simp] theorem State.setX2_x1 (v : Slot) : (s.setX2 v).x1 = s.x1 := rfl
@[simp] theorem State.setX2_x2 (v : Slot) : (s.setX2 v).x2 = v := rfl
@[simp] theorem State.setX2_omac (v : Slot) : (s.setX2 v).omac = s.omac := rfl
@[simp] theorem State.setX2_eax (v : Slot) : (s.setX2 v).eax = s.eax := rfl
@[simp] theorem State.setX2_xts (v : Slot) : (s.setX2 v).xts = s.xts := rfl
@[simp] theorem State.setX2_mem (v : Slot) : (s.setX2 v).mem = s.mem := rfl
@[simp] theorem State.setX2_pending (v : Slot) : (s.setX2 v).pending = s.pending := rfl
@[simp] theorem State.setX2_pos (v : Slot) : (s.setX2 v).pos = s.pos := rfl
@[simp] theorem State.setX2_readings (v : Slot) : (s.setX2 v).readings = s.readings := rfl

@[simp] theorem State.setOmac_params (v : Omac) : (s.setOmac v).params = s.params := rfl
@[simp] theorem State.setOmac_status (v : Omac) : (s.setOmac v).status = s.status := rfl
@[simp] theorem State.setOmac_src (v : Omac) : (s.setOmac v).src = s.src := rfl
@[simp] theorem State.setOmac_dst (v : Omac) : (s.setOmac v).dst = s.dst := rfl
@[simp] theorem State.setOmac_len (v : Omac) : (s.setOmac v).len = s.len := rfl
@[simp] theorem State.setOmac_result (v : Omac) : (s.setOmac v).result = s.result := rfl
@[simp] theorem State.setOmac_c0 (v : Omac) : (s.setOmac v).c0 = s.c0 := rfl
@[simp] theorem State.setOmac_e (v : Omac) : (s.setOmac v).e = s.e := rfl
@[simp] theorem State.setOmac_x1 (v : Omac) : (s.setOmac v).x1 = s.x1 := rfl
@[simp] theorem State.setOmac_x2 (v : Omac) : (s.setOmac v).x2 = s.x2 := rfl
@[simp] theorem State.setOmac_omac (v : Omac) : (s.setOmac v).omac = v := rfl
@[simp] theorem State.setOmac_eax (v : Omac) : (s.setOmac v).eax = s.eax := rfl
@[simp] theorem State.setOmac_xts (v : Omac) : (s.setOmac v).xts = s.xts := rfl
@[simp] theorem State.setOmac_mem (v : Omac) : (s.setOmac v).mem = s.mem := rfl
@[simp] theorem State.setOmac_pending (v : Omac) : (s.setOmac v).pending = s.pending := rfl
@[simp] theorem State.setOmac_pos (v : Omac) : (s.setOmac v).pos = s.pos := rfl
@[simp] theorem State.setOmac_readings (v : Omac) : (s.setOmac v).readings = s.readings := rfl

@[simp] theorem State.setEax_params (v : Eax) : (s.setEax v).params = s.params := rfl
@[simp] theorem State.setEax_status (v : Eax) : (s.setEax v).status = s.status := rfl
@[simp] theorem State.setEax_src (v : Eax) : (s.setEax v).src = s.src := rfl
@[simp] theorem State.setEax_dst (v : Eax) : (s.setEax v).dst = s.dst := rfl
@[simp] theorem State.setEax_len (v : Eax) : (s.setEax v).len = s.len := rfl
@[simp] theorem State.setEax_result (v : Eax) : (s.setEax v).result = s.result := rfl
@[simp] theorem State.setEax_c0 (v : Eax) : (s.setEax v).c0 = s.c0 := rfl
@[simp] theorem State.setEax_e (v : Eax) : (s.setEax v).e = s.e := rfl
@[simp] theorem State.setEax_x1 (v : Eax) : (s.setEax v).x1 = s.x1 := rfl
@[simp] theorem State.setEax_x2 (v : Eax) : (s.setEax v).x2 = s.x2 := rfl
@[simp] theorem State.setEax_omac (v : Eax) : (s.setEax v).omac = s.omac := rfl
@[simp] theorem State.setEax_eax (v : Eax) : (s.setEax v).eax = v := rfl
@[simp] theorem State.setEax_xts (v : Eax) : (s.setEax v).xts = s.xts := rfl
@[simp] theorem State.setEax_mem (v : Eax) : (s.setEax v).mem = s.mem := rfl
@[simp] theorem State.setEax_pending (v : Eax) : (s.setEax v).pending = s.pending := rfl
@[simp] theorem State.setEax_pos (v : Eax) : (s.setEax v).pos = s.pos := rfl
@[simp] theorem State.setEax_readings (v : Eax) : (s.setEax v).readings = s.readings := rfl

@[simp] theorem State.setXts_params (v : Xts) : (s.setXts v).params = s.params := rfl
@[simp] theorem State.setXts_status (v : Xts) : (s.setXts v).status = s.status := rfl
@[simp] theorem State.setXts_src (v : Xts) : (s.setXts v).src = s.src := rfl
@[simp] theorem State.setXts_dst (v : Xts) : (s.setXts v).dst = s.dst := rfl
@[simp] theorem State.setXts_len (v : Xts) : (s.setXts v).len = s.len := rfl
@[simp] theorem State.setXts_result (v : Xts) : (s.setXts v).result = s.result := rfl
@[simp] theorem State.setXts_c0 (v : Xts) : (s.setXts v).c0 = s.c0 := rfl
@[simp] theorem State.setXts_e (v : Xts) : (s.setXts v).e = s.e := rfl
@[simp] theorem State.setXts_x1 (v : Xts) : (s.setXts v).x1 = s.x1 := rfl
@[simp] theorem State.setXts_x2 (v : Xts) : (s.setXts v).x2 = s.x2 := rfl
@[simp] theorem State.setXts_omac (v : Xts) : (s.setXts v).omac = s.omac := rfl
@[simp] theorem State.setXts_eax (v : Xts) : (s.setXts v).eax = s.eax := rfl
@[simp] theorem State.setXts_xts (v : Xts) : (s.setXts v).xts = v := rfl
@[simp] theorem State.setXts_mem (v : Xts) : (s.setXts v).mem = s.mem := rfl
@[simp] theorem State.setXts_pending (v : Xts) : (s.setXts v).pending = s.pending := rfl
@[simp] theorem State.setXts_pos (v : Xts) : (s.setXts v).pos = s.pos := rfl
@[simp] theorem State.setXts_readings (v : Xts) : (s.setXts v).readings = s.readings := rfl

@[simp] theorem State.setMem_params (v : Memory) : (s.setMem v).params = s.params := rfl
@[simp] theorem State.setMem_status (v : Memory) : (s.setMem v).status = s.status := rfl
@[simp] theorem State.setMem_src (v : Memory) : (s.setMem v).src = s.src := rfl
@[simp] theorem State.setMem_dst (v : Memory) : (s.setMem v).dst = s.dst := rfl
@[simp] theorem State.setMem_len (v : Memory) : (s.setMem v).len = s.len := rfl
@[simp] theorem State.setMem_result (v : Memory) : (s.setMem v).result = s.result := rfl
@[simp] theorem State.setMem_c0 (v : Memory) : (s.setMem v).c0 = s.c0 := rfl
@[simp] theorem State.setMem_e (v : Memory) : (s.setMem v).e = s.e := rfl
@[simp] theorem State.setMem_x1 (v : Memory) : (s.setMem v).x1 = s.x1 := rfl
@[simp] theorem State.setMem_x2 (v : Memory) : (s.setMem v).x2 = s.x2 := rfl
@[simp] theorem State.setMem_omac (v : Memory) : (s.setMem v).omac = s.omac := rfl
@[simp] theorem State.setMem_eax (v : Memory) : (s.setMem v).eax = s.eax := rfl
@[simp] theorem State.setMem_xts (v : Memory) : (s.setMem v).xts = s.xts := rfl
@[simp] theorem State.setMem_mem (v : Memory) : (s.setMem v).mem = v := rfl
@[simp] theorem State.setMem_pending (v : Memory) : (s.setMem v).pending = s.pending := rfl
@[simp] theorem State.setMem_pos (v : Memory) : (s.setMem v).pos = s.pos := rfl
@[simp] theorem State.setMem_readings (v : Memory) : (s.setMem v).readings = s.readings := rfl

@[simp] theorem State.advance_params (v : List HostOp) : (s.advance v).params = s.params := rfl
@[simp] theorem State.advance_status (v : List HostOp) : (s.advance v).status = s.status := rfl
@[simp] theorem State.advance_src (v : List HostOp) : (s.advance v).src = s.src := rfl
@[simp] theorem State.advance_dst (v : List HostOp) : (s.advance v).dst = s.dst := rfl
@[simp] theorem State.advance_len (v : List HostOp) : (s.advance v).len = s.len := rfl
@[simp] theorem State.advance_result (v : List HostOp) : (s.advance v).result = s.result := rfl
@[simp] theorem State.advance_c0 (v : List HostOp) : (s.advance v).c0 = s.c0 := rfl
@[simp] theorem State.advance_e (v : List HostOp) : (s.advance v).e = s.e := rfl
@[simp] theorem State.advance_x1 (v : List HostOp) : (s.advance v).x1 = s.x1 := rfl
@[simp] theorem State.advance_x2 (v : List HostOp) : (s.advance v).x2 = s.x2 := rfl
@[simp] theorem State.advance_omac (v : List HostOp) : (s.advance v).omac = s.omac := rfl
@[simp] theorem State.advance_eax (v : List HostOp) : (s.advance v).eax = s.eax := rfl
@[simp] theorem State.advance_xts (v : List HostOp) : (s.advance v).xts = s.xts := rfl
@[simp] theorem State.advance_mem (v : List HostOp) : (s.advance v).mem = s.mem := rfl
@[simp] theorem State.advance_pending (v : List HostOp) : (s.advance v).pending = v := rfl
@[simp] theorem State.advance_pos (v : List HostOp) : (s.advance v).pos = s.pos + 1 := rfl
@[simp] theorem State.advance_readings (v : List HostOp) : (s.advance v).readings = s.readings := rfl

@[simp] theorem State.record_params (v : Reading) : (s.record v).params = s.params := rfl
@[simp] theorem State.record_status (v : Reading) : (s.record v).status = s.status := rfl
@[simp] theorem State.record_src (v : Reading) : (s.record v).src = s.src := rfl
@[simp] theorem State.record_dst (v : Reading) : (s.record v).dst = s.dst := rfl
@[simp] theorem State.record_len (v : Reading) : (s.record v).len = s.len := rfl
@[simp] theorem State.record_result (v : Reading) : (s.record v).result = s.result := rfl
@[simp] theorem State.record_c0 (v : Reading) : (s.record v).c0 = s.c0 := rfl
@[simp] theorem State.record_e (v : Reading) : (s.record v).e = s.e := rfl
@[simp] theorem State.record_x1 (v : Reading) : (s.record v).x1 = s.x1 := rfl
@[simp] theorem State.record_x2 (v : Reading) : (s.record v).x2 = s.x2 := rfl
@[simp] theorem State.record_omac (v : Reading) : (s.record v).omac = s.omac := rfl
@[simp] theorem State.record_eax (v : Reading) : (s.record v).eax = s.eax := rfl
@[simp] theorem State.record_xts (v : Reading) : (s.record v).xts = s.xts := rfl
@[simp] theorem State.record_mem (v : Reading) : (s.record v).mem = s.mem := rfl
@[simp] theorem State.record_pending (v : Reading) : (s.record v).pending = s.pending := rfl
@[simp] theorem State.record_pos (v : Reading) : (s.record v).pos = s.pos := rfl
@[simp] theorem State.record_readings (v : Reading) : (s.record v).readings = v :: s.readings := rfl

@[simp] theorem State.finish_params (o c : Byte) (r : Word) : (s.finish o c r).params = s.params := rfl
@[simp] theorem State.finish_status (o c : Byte) (r : Word) : (s.finish o c r).status = statusWord o c := rfl
@[simp] theorem State.finish_src (o c : Byte) (r : Word) : (s.finish o c r).src = s.src := rfl
@[simp] theorem State.finish_dst (o c : Byte) (r : Word) : (s.finish o c r).dst = s.dst := rfl
@[simp] theorem State.finish_len (o c : Byte) (r : Word) : (s.finish o c r).len = s.len := rfl
@[simp] theorem State.finish_result (o c : Byte) (r : Word) : (s.finish o c r).result = r := rfl
@[simp] theorem State.finish_c0 (o c : Byte) (r : Word) : (s.finish o c r).c0 = s.c0 := rfl
@[simp] theorem State.finish_e (o c : Byte) (r : Word) : (s.finish o c r).e = s.e := rfl
@[simp] theorem State.finish_x1 (o c : Byte) (r : Word) : (s.finish o c r).x1 = s.x1 := rfl
@[simp] theorem State.finish_x2 (o c : Byte) (r : Word) : (s.finish o c r).x2 = s.x2 := rfl
@[simp] theorem State.finish_omac (o c : Byte) (r : Word) : (s.finish o c r).omac = s.omac := rfl
@[simp] theorem State.finish_eax (o c : Byte) (r : Word) : (s.finish o c r).eax = s.eax := rfl
@[simp] theorem State.finish_xts (o c : Byte) (r : Word) : (s.finish o c r).xts = s.xts := rfl
@[simp] theorem State.finish_mem (o c : Byte) (r : Word) : (s.finish o c r).mem = s.mem := rfl
@[simp] theorem State.finish_pending (o c : Byte) (r : Word) : (s.finish o c r).pending = s.pending := rfl
@[simp] theorem State.finish_pos (o c : Byte) (r : Word) : (s.finish o c r).pos = s.pos := rfl
@[simp] theorem State.finish_readings (o c : Byte) (r : Word) : (s.finish o c r).readings = s.readings := rfl

@[simp] theorem State.failed_params (o : Byte) (c : CmdError) : (s.failed o c).params = s.params := rfl
@[simp] theorem State.failed_status (o : Byte) (c : CmdError) : (s.failed o c).status = statusWord o (errorCode c) := rfl
@[simp] theorem State.failed_src (o : Byte) (c : CmdError) : (s.failed o c).src = s.src := rfl
@[simp] theorem State.failed_dst (o : Byte) (c : CmdError) : (s.failed o c).dst = s.dst := rfl
@[simp] theorem State.failed_len (o : Byte) (c : CmdError) : (s.failed o c).len = s.len := rfl
@[simp] theorem State.failed_result (o : Byte) (c : CmdError) : (s.failed o c).result = 0 := rfl
@[simp] theorem State.failed_c0 (o : Byte) (c : CmdError) : (s.failed o c).c0 = s.c0 := rfl
@[simp] theorem State.failed_e (o : Byte) (c : CmdError) : (s.failed o c).e = s.e := rfl
@[simp] theorem State.failed_x1 (o : Byte) (c : CmdError) : (s.failed o c).x1 = s.x1 := rfl
@[simp] theorem State.failed_x2 (o : Byte) (c : CmdError) : (s.failed o c).x2 = s.x2 := rfl
@[simp] theorem State.failed_omac (o : Byte) (c : CmdError) : (s.failed o c).omac = s.omac := rfl
@[simp] theorem State.failed_eax (o : Byte) (c : CmdError) : (s.failed o c).eax = s.eax := rfl
@[simp] theorem State.failed_xts (o : Byte) (c : CmdError) : (s.failed o c).xts = s.xts := rfl
@[simp] theorem State.failed_mem (o : Byte) (c : CmdError) : (s.failed o c).mem = s.mem := rfl
@[simp] theorem State.failed_pending (o : Byte) (c : CmdError) : (s.failed o c).pending = s.pending := rfl
@[simp] theorem State.failed_pos (o : Byte) (c : CmdError) : (s.failed o c).pos = s.pos := rfl
@[simp] theorem State.failed_readings (o : Byte) (c : CmdError) : (s.failed o c).readings = s.readings := rfl

@[simp] theorem State.storeDst_params (v : List Byte) : (s.storeDst v).params = s.params := rfl
@[simp] theorem State.storeDst_status (v : List Byte) : (s.storeDst v).status = s.status := rfl
@[simp] theorem State.storeDst_src (v : List Byte) : (s.storeDst v).src = s.src := rfl
@[simp] theorem State.storeDst_dst (v : List Byte) : (s.storeDst v).dst = s.dst := rfl
@[simp] theorem State.storeDst_len (v : List Byte) : (s.storeDst v).len = s.len := rfl
@[simp] theorem State.storeDst_result (v : List Byte) : (s.storeDst v).result = s.result := rfl
@[simp] theorem State.storeDst_c0 (v : List Byte) : (s.storeDst v).c0 = s.c0 := rfl
@[simp] theorem State.storeDst_e (v : List Byte) : (s.storeDst v).e = s.e := rfl
@[simp] theorem State.storeDst_x1 (v : List Byte) : (s.storeDst v).x1 = s.x1 := rfl
@[simp] theorem State.storeDst_x2 (v : List Byte) : (s.storeDst v).x2 = s.x2 := rfl
@[simp] theorem State.storeDst_omac (v : List Byte) : (s.storeDst v).omac = s.omac := rfl
@[simp] theorem State.storeDst_eax (v : List Byte) : (s.storeDst v).eax = s.eax := rfl
@[simp] theorem State.storeDst_xts (v : List Byte) : (s.storeDst v).xts = s.xts := rfl
@[simp] theorem State.storeDst_mem (v : List Byte) : (s.storeDst v).mem = memWrite s.mem s.dst.toNat v := rfl
@[simp] theorem State.storeDst_pending (v : List Byte) : (s.storeDst v).pending = s.pending := rfl
@[simp] theorem State.storeDst_pos (v : List Byte) : (s.storeDst v).pos = s.pos := rfl
@[simp] theorem State.storeDst_readings (v : List Byte) : (s.storeDst v).readings = s.readings := rfl

end Sys2Proof.Machine
end

