-- ==== Sys2Proof/Laws/Ops.lean ====
section
/-! SUPPORT. What each shared operation can do, said once: memory, the platform predicate, completion of a command. -/

namespace Sys2Proof.Laws

open Sys2Proof.Machine

/-! ## One byte -/

theorem readByte_nil (a : Nat) : readByte [] a = unlistedByte := rfl

theorem readByte_cons (c : Host.Cell) (m : Memory) (a : Nat) :
    readByte (c :: m) a = if c.1 = a then c.2 else readByte m a := by
  unfold readByte
  by_cases h : c.1 = a <;> simp [h]

theorem readByte_filter_ne (m : Memory) (a b : Nat) :
    readByte (m.filter fun c => c.1 != a) b = if b = a then unlistedByte else readByte m b := by
  induction m with
  | nil => simp [readByte_nil]
  | cons c m ih =>
    by_cases hc : c.1 = a
    · rw [List.filter_cons_of_neg (by simp [hc]), ih, readByte_cons, hc]
      by_cases hb : b = a
      · simp [hb]
      · simp [hb, Ne.symm hb]
    · rw [List.filter_cons_of_pos (by simp [hc]), readByte_cons, readByte_cons, ih]
      by_cases hb : c.1 = b
      · have : b ≠ a := fun h => hc (hb.trans h)
        simp [hb, this]
      · simp [hb]

theorem readByte_insertCell (m : Memory) (a : Nat) (v : Byte) (b : Nat) (h : ∀ c ∈ m, c.1 ≠ a) :
    readByte (insertCell a v m) b = if b = a then v else readByte m b := by
  induction m with
  | nil =>
    rw [insertCell, readByte_cons]
    by_cases hb : b = a
    · simp [hb]
    · simp [hb, Ne.symm hb]
  | cons c m ih =>
    have hc : c.1 ≠ a := h c (by simp)
    have ih := ih fun d hd => h d (by simp [hd])
    rw [insertCell]
    split
    · rw [readByte_cons]
      by_cases hb : b = a
      · simp [hb]
      · simp [hb, Ne.symm hb]
    · rw [readByte_cons, readByte_cons, ih]
      by_cases hb : c.1 = b
      · have : b ≠ a := fun h => hc (hb.trans h)
        simp [hb, this]
      · simp [hb]

/-- A read after a write: the byte written at its address, every other byte as before. -/
theorem readByte_writeByte (m : Memory) (a : Nat) (v : Byte) (b : Nat) :
    readByte (writeByte m a v) b = if b = a then v else readByte m b := by
  unfold writeByte
  split
  · next hv => simp [readByte_filter_ne, hv]
  · rw [readByte_insertCell _ _ _ _ (by simp), readByte_filter_ne]
    by_cases hb : b = a <;> simp [hb]

/-! ## Ranges of bytes -/

@[simp] theorem length_memRead (m : Memory) (a n : Nat) : (memRead m a n).length = n := by simp [memRead]

/-- A read after a range is written: byte `b - a` of the data inside the range, the old byte outside. -/
theorem readByte_memWrite (m : Memory) (a : Nat) (vs : List Byte) (b : Nat) :
    readByte (memWrite m a vs) b = if a ≤ b ∧ b < a + vs.length then vs.getD (b - a) 0 else readByte m b := by
  induction vs generalizing m a with
  | nil =>
    rw [memWrite, if_neg (by simp only [List.length_nil]; omega)]
  | cons v vs ih =>
    rw [memWrite, ih, readByte_writeByte]
    by_cases h0 : b = a
    · subst h0
      rw [if_neg (by omega), if_pos (by simp)]
      simp
    · by_cases h1 : a + 1 ≤ b ∧ b < a + 1 + vs.length
      · have e : b - a = b - (a + 1) + 1 := by omega
        rw [if_pos h1, if_pos (by simp only [List.length_cons]; omega), e]
        simp
      · rw [if_neg h1, if_neg h0, if_neg (by simp only [List.length_cons]; omega)]

theorem readByte_memWrite_outside {m : Memory} {a : Nat} {vs : List Byte} {b : Nat}
    (h : b < a ∨ a + vs.length ≤ b) : readByte (memWrite m a vs) b = readByte m b := by
  rw [readByte_memWrite, if_neg (by omega)]

/-- The written range reads back as the bytes written. -/
theorem memRead_memWrite (m : Memory) (a : Nat) (vs : List Byte) :
    memRead (memWrite m a vs) a vs.length = vs := by
  apply List.ext_getElem (by simp)
  intro i h1 h2
  simp [memRead, readByte_memWrite, h2]

/-! ## The canonical form -/

theorem wf_cons_iff (c : Host.Cell) (m : Memory) :
    Memory.wf (c :: m) = true ↔ c.2 ≠ unlistedByte ∧ (∀ d ∈ m.head?, c.1 < d.1) ∧ Memory.wf m = true := by
  cases m with
  | nil => simp [Memory.wf]
  | cons d m => simp [Memory.wf, and_assoc]

theorem wf_lt_of_mem {c : Host.Cell} {m : Memory} (h : Memory.wf (c :: m) = true) {d : Host.Cell} (hd : d ∈ m) :
    c.1 < d.1 := by
  induction m generalizing c with
  | nil => simp at hd
  | cons x m ih =>
    have ⟨_, h2, h3⟩ := (wf_cons_iff c (x :: m)).mp h
    have hx : c.1 < x.1 := h2 x (by simp)
    rcases List.mem_cons.mp hd with rfl | hd
    · exact hx
    · exact Nat.lt_trans hx (ih h3 hd)

theorem wf_iff_pairwise (m : Memory) :
    Memory.wf m = true ↔ m.Pairwise (fun c d => c.1 < d.1) ∧ ∀ c ∈ m, c.2 ≠ unlistedByte := by
  induction m with
  | nil => simp [Memory.wf]
  | cons c m ih =>
    constructor
    · intro h
      have ⟨h1, _, h3⟩ := (wf_cons_iff c m).mp h
      have ⟨p, q⟩ := ih.mp h3
      exact ⟨List.pairwise_cons.mpr ⟨fun d hd => wf_lt_of_mem h hd, p⟩, by simpa [h1] using q⟩
    · intro ⟨hp, hq⟩
      have ⟨p1, p2⟩ := List.pairwise_cons.mp hp
      refine (wf_cons_iff c m).mpr ⟨hq c (by simp), ?_, ih.mpr ⟨p2, fun d hd => hq d (by simp [hd])⟩⟩
      intro d hd
      exact p1 d (List.mem_of_mem_head? hd)

theorem mem_insertCell {m : Memory} {a : Nat} {v : Byte} {c : Host.Cell} (h : c ∈ insertCell a v m) :
    c = (a, v) ∨ c ∈ m := by
  induction m with
  | nil => simpa [insertCell] using h
  | cons d m ih =>
    rw [insertCell] at h
    split at h
    · simpa using h
    · rcases List.mem_cons.mp h with rfl | h
      · simp
      · rcases ih h with h | h <;> simp [h]

theorem pairwise_insertCell {m : Memory} {a : Nat} {v : Byte} (hp : m.Pairwise fun c d => c.1 < d.1)
    (hn : ∀ c ∈ m, c.1 ≠ a) : (insertCell a v m).Pairwise fun c d => c.1 < d.1 := by
  induction m with
  | nil => simp [insertCell]
  | cons d m ih =>
    have ⟨p1, p2⟩ := List.pairwise_cons.mp hp
    rw [insertCell]
    split
    · next hlt =>
      refine List.pairwise_cons.mpr ⟨fun c hc => ?_, hp⟩
      rcases List.mem_cons.mp hc with rfl | hc
      · exact hlt
      · exact Nat.lt_trans hlt (p1 c hc)
    · next hge =>
      have hd := hn d (by simp)
      refine List.pairwise_cons.mpr ⟨fun c hc => ?_, ih p2 fun c hc => hn c (by simp [hc])⟩
      rcases mem_insertCell hc with rfl | hc
      · simp only; omega
      · exact p1 c hc

/-- A write of one byte keeps the canonical form. -/
theorem wf_writeByte {m : Memory} (h : Memory.wf m = true) (a : Nat) (v : Byte) :
    Memory.wf (writeByte m a v) = true := by
  have ⟨hp, hq⟩ := (wf_iff_pairwise m).mp h
  have fp : (m.filter fun c => c.1 != a).Pairwise fun c d => c.1 < d.1 := hp.filter _
  have fq : ∀ c ∈ m.filter (fun c => c.1 != a), c.2 ≠ unlistedByte := fun c hc => hq c (List.mem_filter.mp hc).1
  unfold writeByte
  split
  · exact (wf_iff_pairwise _).mpr ⟨fp, fq⟩
  · next hv =>
    refine (wf_iff_pairwise _).mpr ⟨pairwise_insertCell fp (by simp), fun c hc => ?_⟩
    rcases mem_insertCell hc with rfl | hc
    · exact hv
    · exact fq c hc

/-- A write of a range keeps the canonical form. -/
theorem wf_memWrite {m : Memory} (h : Memory.wf m = true) (a : Nat) (vs : List Byte) :
    Memory.wf (memWrite m a vs) = true := by
  induction vs generalizing m a with
  | nil => exact h
  | cons v vs ih => exact ih (wf_writeByte h a v) (a + 1)

theorem inSpace_writeByte {m : Memory} (h : Memory.inSpace m = true) {a : Nat} (ha : a < 2 ^ 32) (v : Byte) :
    Memory.inSpace (writeByte m a v) = true := by
  simp only [Memory.inSpace, List.all_eq_true, decide_eq_true_eq] at h ⊢
  intro c hc
  unfold writeByte at hc
  split at hc
  · exact h c (List.mem_filter.mp hc).1
  · rcases mem_insertCell hc with rfl | hc
    · exact ha
    · exact h c (List.mem_filter.mp hc).1

/-- A write of a range inside the 32-bit space lists no address outside it. -/
theorem inSpace_memWrite {m : Memory} (h : Memory.inSpace m = true) {a : Nat} {vs : List Byte}
    (ha : a + vs.length ≤ 2 ^ 32) : Memory.inSpace (memWrite m a vs) = true := by
  induction vs generalizing m a with
  | nil => exact h
  | cons v vs ih =>
    simp only [List.length_cons] at ha
    exact ih (inSpace_writeByte h (by omega) v) (by omega)

theorem reset_mem_wf : Memory.wf State.reset.mem = true ∧ Memory.inSpace State.reset.mem = true := by decide

/-! ## The platform predicate -/

/-- A valid range of at least one byte lies inside the 32-bit space (20_memory.md R65). -/
theorem rangeValid_le {p : Params} {a : Word} {n : Nat} (h : rangeValid p a n = true) : a.toNat + n ≤ 2 ^ 32 := by
  have ha := a.isLt
  by_cases hn : n = 0
  · omega
  · simp [rangeValid, hn] at h
    exact h.1

/-- `Admit` in full: some region holds the range, it is not one refused, and it is not over a mapped window
(00_scope.md R8, 20_memory.md R61; log 3). -/
theorem admits_iff (p : Params) (a n : Nat) :
    admits p a n = true ↔
      (∃ r ∈ p.regions, r.base ≤ a ∧ a + n ≤ r.base + r.size) ∧ (a, n) ∉ p.refusedRanges ∧
        hitsMappedWindow p a n = false := by
  simp [admits, regionHolds, and_assoc]

/-- A mapped window is hit at one byte exactly by its 256 addresses (20_memory.md R61). -/
theorem hitsMappedWindow_byte (p : Params) (a : Nat) :
    hitsMappedWindow p a 1 = true ↔
      p.windowMapped = true ∧ p.base.toNat ≤ a ∧ a < p.base.toNat + 256 := by
  simp only [hitsMappedWindow, overlapsWindow, Bool.and_eq_true, decide_eq_true_eq]
  exact and_congr_right fun _ => by omega

/-- Every predicate on the 32-bit ranges is `Admit` of some parameters (00_scope.md R8, log 3). -/
theorem admits_expresses_any_predicate (f : Nat → Nat → Bool) :
    ∃ rs rr, ∀ p : Params, p.regions = rs → p.refusedRanges = rr → p.windowMapped = false →
      ∀ a n, a < 2 ^ 32 → n < 2 ^ 32 → admits p a n = f a n := by
  refine ⟨[{ base := 0, size := 2 ^ 33 }],
    ((List.range (2 ^ 32)).flatMap fun a => (List.range (2 ^ 32)).map fun n => (a, n)).filter fun x => !f x.1 x.2, ?_⟩
  intro p h1 h2 h3 a n ha hn
  have hr : regionHolds { base := 0, size := 2 ^ 33 } a n = true := by
    simp only [regionHolds, decide_eq_true_eq]; omega
  have hc : (((List.range (2 ^ 32)).flatMap fun a => (List.range (2 ^ 32)).map fun n => (a, n)).filter
      fun x => !f x.1 x.2).contains (a, n) = !f a n := by
    rw [Bool.eq_iff_iff, List.contains_iff_mem]
    simp only [List.mem_filter, List.mem_flatMap, List.mem_map, List.mem_range, Prod.mk.injEq]
    constructor
    · rintro ⟨_, h⟩; exact h
    · intro h; exact ⟨⟨a, ha, n, hn, rfl, rfl⟩, h⟩
  simp only [admits, hitsMappedWindow, h1, h2, h3, List.any_cons, List.any_nil, hr, Bool.or_false, Bool.true_and, Bool.false_and,
    Bool.not_false, Bool.and_true]
  rw [hc, Bool.not_not]

/-! ## Completion -/

/-- A command always ends in a next state, failed or finished (60_exceptions.md R270, R275). -/
theorem complete_next (o : Byte) (s : State) (r : Except CmdError (State × Word)) :
    complete o s r = .next (match r with
      | .error c => s.failed o c
      | .ok (s', v) => s'.finish o codeOk v) := by
  cases r <;> rfl

@[simp] theorem complete_error (o : Byte) (s : State) (c : CmdError) :
    complete o s (.error c) = .next (s.failed o c) := rfl

@[simp] theorem complete_ok (o : Byte) (s s' : State) (v : Word) :
    complete o s (.ok (s', v)) = .next (s'.finish o codeOk v) := rfl

/-- The fields of a STATUS word (10_state.md R23). -/
@[simp] theorem statusCode_statusWord (o c : Byte) : statusCode (statusWord o c) = c := by
  apply BitVec.eq_of_getLsbD_eq
  intro i hi
  simp [statusCode, statusWord, hi, show i < 32 by omega]

@[simp] theorem statusOpc_statusWord (o c : Byte) : statusOpc (statusWord o c) = o := by
  apply BitVec.eq_of_getLsbD_eq
  intro i hi
  simp [statusOpc, statusWord, hi, show 8 + i < 32 by omega]

@[simp] theorem statusWord_high (o c : Byte) : (statusWord o c).extractLsb' 16 16 = 0 := by
  apply BitVec.eq_of_getLsbD_eq
  intro i hi
  simp [statusWord, hi, show 16 + i < 32 by omega, BitVec.getLsbD_of_ge c (16 + i) (by omega),
    BitVec.getLsbD_of_ge o (16 + i - 8) (by omega)]

end Sys2Proof.Laws
end

