-- ==== Sys2Proof/Laws/Cipher.lean ====
section
/-! SUPPORT. The cipher's parts: packing, one round and its inverse, one step of the schedule and its inverse, lengths. -/

namespace Sys2Proof.Laws

open Sys2Proof.Machine

@[simp] theorem unpackBlock_packBlock (p : Word64 × Word64) : unpackBlock (packBlock p) = p := by
  unfold unpackBlock packBlock
  apply Prod.ext
  · apply BitVec.eq_of_getLsbD_eq
    intro i hi
    simp [hi, show 64 + i < 128 by omega]
  · apply BitVec.eq_of_getLsbD_eq
    intro i hi
    simp [hi, show i < 128 by omega]

@[simp] theorem packBlock_unpackBlock (b : Block) : packBlock (unpackBlock b) = b := by
  unfold unpackBlock packBlock
  apply BitVec.eq_of_getLsbD_eq
  intro i hi
  by_cases h : i < 64
  · simp [hi, h]
  · simp [hi, h, show 64 + (i - 64) = i by omega, show i - 64 < 64 by omega]

theorem rotateLeft_rotateRight_64 (x : Word64) (r : Nat) (h : r < 64) : (x.rotateLeft r).rotateRight r = x := by
  apply BitVec.eq_of_getLsbD_eq
  intro i hi
  rw [BitVec.getLsbD_rotateRight, BitVec.getLsbD_rotateLeft, BitVec.getLsbD_rotateLeft]
  simp only [Nat.mod_eq_of_lt h]
  by_cases h1 : i < 64 - r
  · simp [h1, show r + i < 64 by omega]
  · simp [h1, hi, show i - (64 - r) < r by omega, show 64 - r + (i - (64 - r)) = i by omega]

theorem rotateRight_rotateLeft_64 (x : Word64) (r : Nat) (h : r < 64) : (x.rotateRight r).rotateLeft r = x := by
  apply BitVec.eq_of_getLsbD_eq
  intro i hi
  rw [BitVec.getLsbD_rotateLeft, BitVec.getLsbD_rotateRight, BitVec.getLsbD_rotateRight]
  simp only [Nat.mod_eq_of_lt h]
  by_cases h1 : i < r
  · simp [h1, show 64 - r + i < 64 by omega]
  · simp [h1, hi, show i - r < 64 - r by omega, show r + (i - r) = i by omega]

/-- A decryption round undoes the encryption round of the same subkey (40_cipher.md R125). -/
theorem decRound_encRound (p : Word64 × Word64) (k : Word64) : decRound (encRound p k) k = p := by
  have hy : ∀ x : Word64, x ^^^ (p.2.rotateLeft 3 ^^^ x) = p.2.rotateLeft 3 := by
    intro x; rw [BitVec.xor_comm (p.2.rotateLeft 3) x, ← BitVec.xor_assoc]; simp
  have hx : ∀ a : Word64, (a ^^^ k) ^^^ k = a := by intro a; rw [BitVec.xor_assoc]; simp
  apply Prod.ext
  · simp only [decRound, encRound, hy, hx, rotateLeft_rotateRight_64 _ 3 (by decide), BitVec.add_sub_cancel,
      rotateRight_rotateLeft_64 _ 8 (by decide)]
  · simp only [decRound, encRound, hy, rotateLeft_rotateRight_64 _ 3 (by decide)]

/-- An encryption round undoes the decryption round of the same subkey (40_cipher.md R125). -/
theorem encRound_decRound (p : Word64 × Word64) (k : Word64) : encRound (decRound p k) k = p := by
  have hx : ∀ a : Word64, (a ^^^ k) ^^^ k = a := by intro a; rw [BitVec.xor_assoc]; simp
  have hy : p.1 ^^^ p.2 ^^^ p.1 = p.2 := by rw [BitVec.xor_comm p.1 p.2, BitVec.xor_assoc]; simp
  apply Prod.ext
  · simp only [decRound, encRound, rotateLeft_rotateRight_64 _ 8 (by decide), BitVec.sub_add_cancel, hx]
  · simp only [decRound, encRound, rotateLeft_rotateRight_64 _ 8 (by decide), BitVec.sub_add_cancel, hx,
      rotateRight_rotateLeft_64 _ 3 (by decide), hy]

/-- SMALL's backward step undoes the generator's step of the same index (40_cipher.md R129). -/
theorem keyStepBack_keyStep (i : Nat) (k l : Word64) (ls : List Word64) :
    keyStepBack i (keyStep i (k, l :: ls)) = (k, l :: ls) := by
  have hk : ∀ a b : Word64, (a ^^^ b) ^^^ b = a := by intro a b; rw [BitVec.xor_assoc]; simp
  have hc : ∀ a : Word64, k + a - k = a := by intro a; rw [BitVec.add_comm, BitVec.add_sub_cancel]
  simp [keyStep, keyStepBack, hk, hc, rotateLeft_rotateRight_64, rotateRight_rotateLeft_64]

@[simp] theorem length_expandKey (n i : Nat) (r : Word64 × List Word64) : (expandKey n i r).length = n := by
  induction n generalizing i r with
  | zero => rfl
  | succ n ih => simp [expandKey, ih]

@[simp] theorem length_keySchedule (key : List Byte) : (keySchedule key).length = roundsOf key := by
  simp [keySchedule]

@[simp] theorem length_keyWords (key : List Byte) : (keyWords key).length = key.length / 8 := by simp [keyWords]

/-- The register of `m - 1` words keeps its length. -/
theorem length_keyStep (i : Nat) (r : Word64 × List Word64) (h : r.2 ≠ []) : (keyStep i r).2.length = r.2.length := by
  have : 0 < r.2.length := List.length_pos_of_ne_nil h
  simp [keyStep]
  omega

theorem keyLenOk_iff (n : Nat) : keyLenOk n = true ↔ n = 16 ∨ n = 24 ∨ n = 32 := by
  simp [keyLenOk, or_assoc]

theorem roundsOf_mem {key : List Byte} (h : keyLenOk key.length = true) :
    roundsOf key = 32 ∨ roundsOf key = 33 ∨ roundsOf key = 34 := by
  rcases (keyLenOk_iff _).mp h with h | h | h <;> simp [roundsOf, h]

/-- A slot keyed with a key of accepted length uses exactly the key's schedule (40_cipher.md R132). -/
theorem subkeys_ofKey {key : List Byte} (h : keyLenOk key.length = true) : (Slot.ofKey key).subkeys = keySchedule key := by
  have hr := roundsOf_mem h
  apply List.ext_getElem
  · simp [Slot.subkeys, Slot.ofKey]; omega
  · intro i h1 h2
    simp [Slot.subkeys, Slot.ofKey] at h1 h2 ⊢
    simp [h2]

@[simp] theorem ofKey_keyed (key : List Byte) : (Slot.ofKey key).keyed = true := rfl
@[simp] theorem ofKey_rounds (key : List Byte) : (Slot.ofKey key).rounds = roundsOf key := rfl

theorem blockEncrypt_ofKey {key : List Byte} (h : keyLenOk key.length = true) (b : Block) :
    blockEncrypt (Slot.ofKey key) b = encryptWith (keySchedule key) b := by
  rw [blockEncrypt, subkeys_ofKey h]

theorem blockDecrypt_ofKey {key : List Byte} (h : keyLenOk key.length = true) (b : Block) :
    blockDecrypt (Slot.ofKey key) b = decryptWith (keySchedule key) b := by
  rw [blockDecrypt, subkeys_ofKey h]

end Sys2Proof.Laws
end

