-- ==== Sys2Proof/Laws/PerInstr.lean ====
section
/-! SUPPORT. Statements over every command, one lemma a constructor. -/

namespace Sys2Proof.Laws.EncodeShape

/-- The three fields of a command's word (spec/30_encoding.md R90): RSVD is 0, IMM8 the command's immediate and OPC its
opcode. -/
def Statement (i : Instr) : Prop :=
  rsvdField (encode i) = 0 ∧ immField (encode i) = i.immediate ∧ opcField (encode i) = i.opcode

theorem shape (i : Instr) : Statement i := by
  refine ⟨?_, ?_, ?_⟩ <;> apply BitVec.eq_of_getLsbD_eq <;> intro j hj
  · simp [rsvdField, encode, hj, show 16 + j < 32 by omega, BitVec.getLsbD_of_ge i.opcode (16 + j) (by omega),
      BitVec.getLsbD_of_ge i.immediate (16 + j - 8) (by omega)]
  · simp [immField, encode, hj, show 8 + j < 32 by omega]
  · simp [opcField, encode, hj, show j < 32 by omega]

theorem ciphKeysize : Statement .ciphKeysize := shape _
theorem ciphBlocksize : Statement .ciphBlocksize := shape _
theorem ciphSetkey : Statement .ciphSetkey := shape _
theorem ciphEncrypt : Statement .ciphEncrypt := shape _
theorem ciphDecrypt : Statement .ciphDecrypt := shape _
theorem ciphClear : Statement .ciphClear := shape _
theorem omacInitfirst : Statement .omacInitfirst := shape _
theorem omacInitnext (t : Byte) : Statement (.omacInitnext t) := shape _
theorem omacUpdate : Statement .omacUpdate := shape _
theorem omacFinalize : Statement .omacFinalize := shape _
theorem omacClear : Statement .omacClear := shape _
theorem eaxSetkey : Statement .eaxSetkey := shape _
theorem eaxSetiv : Statement .eaxSetiv := shape _
theorem eaxAddauth : Statement .eaxAddauth := shape _
theorem eaxEncrypt : Statement .eaxEncrypt := shape _
theorem eaxDecrypt : Statement .eaxDecrypt := shape _
theorem eaxComputetag : Statement .eaxComputetag := shape _
theorem eaxChecktag : Statement .eaxChecktag := shape _
theorem eaxClear : Statement .eaxClear := shape _
theorem xtsSetsectorsize : Statement .xtsSetsectorsize := shape _
theorem xtsSetkey : Statement .xtsSetkey := shape _
theorem xtsSettweak : Statement .xtsSettweak := shape _
theorem xtsEncsector : Statement .xtsEncsector := shape _
theorem xtsDecsector : Statement .xtsDecsector := shape _
theorem xtsClear : Statement .xtsClear := shape _

end Sys2Proof.Laws.EncodeShape
end

