-- ==== Sys2Proof/Laws/Units.lean ====
section
/-! SUPPORT. What the primitives of the OMAC, EAX and XTS units can do, said once. -/

namespace Sys2Proof.Laws

open Sys2Proof.Machine

/-! ## OMAC -/

@[simp] theorem omacUpdate_nil (enc : Block → Block) (c : OmacCtx) : omacUpdate enc c [] = c := rfl

@[simp] theorem omacUpdate_cons (enc : Block → Block) (c : OmacCtx) (d : Byte) (ds : List Byte) :
    omacUpdate enc c (d :: ds) = omacUpdate enc (omacAbsorb enc c d) ds := rfl

@[simp] theorem omacAbsorb_B (enc : Block → Block) (c : OmacCtx) (d : Byte) : (omacAbsorb enc c d).B = c.B := by
  unfold omacAbsorb
  split <;> rfl

@[simp] theorem omacUpdate_B (enc : Block → Block) (c : OmacCtx) (ds : List Byte) : (omacUpdate enc c ds).B = c.B := by
  induction ds generalizing c with
  | nil => rfl
  | cons d ds ih => simp [ih]

theorem omacAbsorb_posn_le (enc : Block → Block) {c : OmacCtx} (d : Byte) (h : c.posn ≤ 16) :
    (omacAbsorb enc c d).posn ≤ 16 := by
  unfold omacAbsorb
  by_cases hc : c.posn = 16 <;> simp [hc]
  omega

theorem omacUpdate_posn_le (enc : Block → Block) {c : OmacCtx} (ds : List Byte) (h : c.posn ≤ 16) :
    (omacUpdate enc c ds).posn ≤ 16 := by
  induction ds generalizing c with
  | nil => exact h
  | cons d ds ih => exact ih (omacAbsorb_posn_le enc d h)

@[simp] theorem omacFinalize_B (enc : Block → Block) (c : OmacCtx) : (omacFinalize enc c).B = c.B := rfl
@[simp] theorem omacFinalize_posn (enc : Block → Block) (c : OmacCtx) : (omacFinalize enc c).posn = c.posn := rfl
@[simp] theorem omacInitNext_B (c : OmacCtx) (t : Byte) : (omacInitNext c t).B = c.B := rfl
@[simp] theorem omacInitNext_posn (c : OmacCtx) (t : Byte) : (omacInitNext c t).posn = 16 := rfl

/-! ## EAX -/

/-- CtrXor changes the counter, the keystream and the keystream position alone. -/
theorem ctrXor_keeps (enc : Block → Block) (x : Eax) (d : List Byte) :
    (ctrXor enc x d).2.phase = x.phase ∧ (ctrXor enc x d).2.tag = x.tag ∧ (ctrXor enc x d).2.o = x.o := by
  induction d generalizing x with
  | nil => exact ⟨rfl, rfl, rfl⟩
  | cons b d ih =>
    simp only [ctrXor]
    obtain ⟨h1, h2, h3⟩ := ih { refillStream enc x with encPosn := (refillStream enc x).encPosn + 1 }
    rw [h1, h2, h3]
    unfold refillStream
    split <;> exact ⟨rfl, rfl, rfl⟩

@[simp] theorem length_ctrXor (enc : Block → Block) (x : Eax) (d : List Byte) :
    (ctrXor enc x d).1.length = d.length := by
  induction d generalizing x with
  | nil => rfl
  | cons b d ih => simp [ctrXor, ih]

theorem ctrXor_encPosn_le (enc : Block → Block) {x : Eax} (d : List Byte) (h : x.encPosn ≤ 16) :
    (ctrXor enc x d).2.encPosn ≤ 16 := by
  induction d generalizing x with
  | nil => exact h
  | cons b d ih =>
    refine ih ?_
    by_cases hx : x.encPosn = 16 <;> simp [refillStream, hx]
    omega

@[simp] theorem closeTag_phase (enc : Block → Block) (x : Eax) : (closeTag enc x).phase = .tagged := rfl

@[simp] theorem startMessage_phase (enc : Block → Block) (x : Eax) (iv : List Byte) :
    (startMessage enc x iv).phase = .aad := rfl

/-- In a message the associated data is closed, and the phase is ENC. -/
theorem endAad_phase (enc : Block → Block) {x : Eax} (h : inMessage x = true) : (endAad enc x).phase = .enc := by
  simp only [inMessage, Bool.or_eq_true, beq_iff_eq] at h
  unfold endAad
  split
  · rfl
  · exact h.resolve_left ‹_›

/-- The comparison finds no difference exactly in equal strings. -/
theorem tagDifference_eq_zero_iff {a b : List Byte} (h : a.length = b.length) : tagDifference a b = 0 ↔ a = b := by
  induction a generalizing b with
  | nil => cases b <;> simp_all [tagDifference]
  | cons x a ih =>
    cases b with
    | nil => simp at h
    | cons y b =>
      have h : a.length = b.length := by simpa using h
      simp only [tagDifference, List.cons.injEq, ← ih h]
      constructor
      · intro hd
        have hx : x ^^^ y = 0 := by
          apply BitVec.eq_of_getLsbD_eq
          intro j hj
          have := congrArg (fun v => v.getLsbD j) hd
          simp only [BitVec.getLsbD_or, BitVec.ofNat_eq_ofNat, BitVec.getLsbD_zero, Bool.or_eq_false_iff] at this
          simpa using this.1
        rw [hx] at hd
        exact ⟨by simpa [BitVec.xor_eq_zero_iff] using hx, by simpa using hd⟩
      · rintro ⟨rfl, hd⟩
        simp [hd]

/-! ## XTS -/

@[simp] theorem length_sectorBlocks (q : Nat) (d : List Byte) : (sectorBlocks q d).length = q := by
  induction q generalizing d with
  | zero => rfl
  | succ q ih => simp [sectorBlocks, ih]

@[simp] theorem length_xexBlocks (f : Block → Block) (t : Block) (bs : List Block) :
    (xexBlocks f t bs).length = bs.length := by
  induction bs generalizing t with
  | nil => rfl
  | cons b bs ih => simp [xexBlocks, ih]

@[simp] theorem length_blocksBytes (bs : List Block) : (blocksBytes bs).length = 16 * bs.length := by
  induction bs with
  | nil => rfl
  | cons b bs ih =>
    have : blocksBytes (b :: bs) = blockBytes b ++ blocksBytes bs := rfl
    simp [this, ih]
    omega

end Sys2Proof.Laws
end

