-- ==== Sys2Proof/Tests/Slice0.lean ====
section
/-! SUPPORT. The model's own tests. Expected values are the spec's: the encodings of 30_encoding.md, the vectors V1 to V26
of 95_test_vectors.md, or hand calculation from the rule named. Then one witness for each statement with hypotheses. -/

namespace Sys2Proof.Tests

open Sys2Proof.Machine Sys2Proof.Safety

/-! ## Well-formedness: an ill-formed term for each check -/

/-- 30_encoding.md R96: no command is ill formed; both ends of the immediate's range are accepted. -/
theorem test_instr_wellFormed :
    (Instr.omacInitnext 0x00).wellFormed = true ∧ (Instr.omacInitnext 0xFF).wellFormed = true := by decide

/-- 10_state.md R31: a narrower write, a narrower read and misaligned offsets are refused; so are both ends of a mapped
window by address (log 19), and neither address beside it. -/
theorem test_hostOp_wellFormed :
    let p := Params.standard
    let mapped := { p with windowMapped := true, base := 0x1000 }
    (HostOp.writeReg 0x08 .half 0).wellFormed p = false ∧ (HostOp.readReg 0x04 .byte).wellFormed p = false ∧
      (HostOp.writeReg 0x09 .word 0).wellFormed p = false ∧ (HostOp.readReg 0x06 .word).wellFormed p = false ∧
      (HostOp.readReg 0x04 .word).wellFormed p = true ∧ (HostOp.storeByte 0x1000 1).wellFormed mapped = false ∧
      (HostOp.loadByte 0x10FF).wellFormed mapped = false ∧ (HostOp.loadByte 0x0FFF).wellFormed mapped = true ∧
      (HostOp.storeByte 0x1100 1).wellFormed mapped = true ∧ (HostOp.storeByte 0x1000 1).wellFormed p = true := by decide

/-- 20_memory.md R60: a region past the end of the 32-bit space is refused. -/
theorem test_params_wellFormed :
    ({ Params.standard with regions := [{ base := 0xFFFFFFF0, size := 17 }] }).wellFormed = false ∧
      Params.standard.wellFormed = true := by decide

/-! ## Decoding: words written out from the spec's encoding of each command (30_encoding.md R92, R99) -/

theorem test_decode_ciph :
    decode 0b00000000000000000000000000010000#32 = .ok .ciphKeysize ∧
    decode 0b00000000000000000000000000010001#32 = .ok .ciphBlocksize ∧
    decode 0b00000000000000000000000000010010#32 = .ok .ciphSetkey ∧
    decode 0b00000000000000000000000000010011#32 = .ok .ciphEncrypt ∧
    decode 0b00000000000000000000000000010100#32 = .ok .ciphDecrypt ∧
    decode 0b00000000000000000000000000010101#32 = .ok .ciphClear := by decide

theorem test_decode_omac :
    decode 0b00000000000000000000000000100000#32 = .ok .omacInitfirst ∧
    decode 0b00000000000000000000001000100001#32 = .ok (.omacInitnext 2) ∧
    decode 0b00000000000000001111111100100001#32 = .ok (.omacInitnext 255) ∧
    decode 0b00000000000000000000000000100010#32 = .ok .omacUpdate ∧
    decode 0b00000000000000000000000000100011#32 = .ok .omacFinalize ∧
    decode 0b00000000000000000000000000100100#32 = .ok .omacClear := by decide

theorem test_decode_eax :
    decode 0b00000000000000000000000000110000#32 = .ok .eaxSetkey ∧
    decode 0b00000000000000000000000000110001#32 = .ok .eaxSetiv ∧
    decode 0b00000000000000000000000000110010#32 = .ok .eaxAddauth ∧
    decode 0b00000000000000000000000000110011#32 = .ok .eaxEncrypt ∧
    decode 0b00000000000000000000000000110100#32 = .ok .eaxDecrypt ∧
    decode 0b00000000000000000000000000110101#32 = .ok .eaxComputetag ∧
    decode 0b00000000000000000000000000110110#32 = .ok .eaxChecktag ∧
    decode 0b00000000000000000000000000110111#32 = .ok .eaxClear := by decide

theorem test_decode_xts :
    decode 0b00000000000000000000000001000000#32 = .ok .xtsSetsectorsize ∧
    decode 0b00000000000000000000000001000001#32 = .ok .xtsSetkey ∧
    decode 0b00000000000000000000000001000010#32 = .ok .xtsSettweak ∧
    decode 0b00000000000000000000000001000011#32 = .ok .xtsEncsector ∧
    decode 0b00000000000000000000000001000100#32 = .ok .xtsDecsector ∧
    decode 0b00000000000000000000000001000101#32 = .ok .xtsClear := by decide

/-- V25 and 30_encoding.md R95: each decoding error, at the edges of the unassigned ranges. -/
theorem test_decode_errors :
    decode 0x00010013#32 = .error .reservedBits ∧ decode 0x80000021#32 = .error .reservedBits ∧
    decode 0x00000113#32 = .error .immediateNotZero ∧ decode 0x00008022#32 = .error .immediateNotZero ∧
    decode 0x0000000F#32 = .error .unassignedOpcode ∧ decode 0x00000016#32 = .error .unassignedOpcode ∧
    decode 0x0000001F#32 = .error .unassignedOpcode ∧ decode 0x00000025#32 = .error .unassignedOpcode ∧
    decode 0x0000002F#32 = .error .unassignedOpcode ∧ decode 0x00000038#32 = .error .unassignedOpcode ∧
    decode 0x0000003F#32 = .error .unassignedOpcode ∧ decode 0x00000046#32 = .error .unassignedOpcode ∧
    decode 0x000000FF#32 = .error .unassignedOpcode := by decide

/-- The opcode table's bit numbering: the one word of an instruction, bit 0 the least significant. -/
theorem test_decodeTableWord :
    decodeTableWord 32 0x0221 = some (.omacInitnext 2) ∧ decodeTableWord 32 0x46 = none := by decide

/-! ## Small states (the conventions of 95_test_vectors.md) -/

/-- The bytes of a hex string of the spec, given as a number of `n` bytes. -/
def hexBytes (n v : Nat) : List Byte := toBE n v

/-- A block of the spec, given as a number. -/
def hexBlock (v : Nat) : Block := BitVec.ofNat 128 v

/-- `pat(n)`. -/
def pat (n : Nat) : List Byte := (List.range n).map (BitVec.ofNat 8)

/-- `K0`. -/
def key0 : List Byte := hexBytes 16 0x0f0e0d0c0b0a09080706050403020100

/-- A slot keyed with a key. -/
def slot (key : List Byte) : Slot := Slot.ofKey key

/-- 64 KiB of buffer memory, all of it admitted. -/
def testParams : Params := { Params.standard with regions := [{ base := 0, size := 0x10000 }] }

/-- Just after reset, with the argument registers and some bytes at 0x1000 set. -/
def args (src dst len : Word) (bytes : List Byte) : State :=
  { State.reset with params := testParams, src := src, dst := dst, len := len, mem := memWrite [] 0x1000 bytes }

/-- The next state, where there is one. -/
def nextOf : Outcome → Option State
  | .next t => some t
  | .fault _ => none
  | .refused _ => none

/-- STATUS, RESULT and STATE after a command. -/
def report (i : Instr) (s : State) : Option (Word × Word × Word) :=
  (nextOf (exec i s)).map fun t => (t.status, t.result, stateWord t)

/-- `n` bytes of memory from `a` on after a command. -/
def bytesAfter (i : Instr) (s : State) (a n : Nat) : Option (List Byte) :=
  (nextOf (exec i s)).map fun t => memRead t.mem a n

/-! ## Window and host accesses -/

/-- V26, and CONFIG with VarC0 = VarX1 = TINY. -/
theorem test_reset_window :
    readWindow State.reset 0x04 = 0 ∧ readWindow State.reset 0x18 = 0 ∧ readWindow State.reset 0x1C = 0x200#32 ∧
      readWindow State.reset 0x20 = 0 ∧
      readWindow { State.reset with params := { testParams with varC0 := .tiny, varX1 := .tiny } } 0x20 = 0x22#32 := by
  decide

/-- 10_state.md R23, 60_exceptions.md R273: V25's first word, through a step. -/
theorem test_step_illegal :
    (nextOf (step { State.reset with result := 5, pending := [wrCmd 0x00010013] })).map (fun t => (t.status, t.result))
      = some (0x00001301#32, 0#32) := by decide

/-- The fetch of a table word: the next step runs it (30_encoding.md R99, word of CIPH.KEYSIZE). -/
theorem test_withFetchWord :
    (nextOf (step (State.reset.withFetchWord 32 0x10))).map (fun t => (t.status, t.result, t.pos))
      = some (0x00001000#32, 32#32, 1) := by decide

/-- 20_memory.md R60, R63: a byte written, a byte beside it, and a zero that removes an entry. -/
theorem test_memory :
    memRead (memWrite [] 0xFFFE [0xAB, 0xCD]) 0xFFFD 3 = [0, 0xAB, 0xCD] ∧
      writeByte (writeByte [] 7 0xFF) 7 0 = [] := by decide

/-! ## CIPH (V1 to V6) -/

theorem test_ciphKeysize : report .ciphKeysize State.reset = some (0x00001000, 32, 0) := by decide

theorem test_ciphBlocksize : report .ciphBlocksize State.reset = some (0x00001100, 16, 0) := by decide

theorem test_ciphSetkey : report .ciphSetkey (args 0x1000 0 16 key0) = some (0x00001200, 0, 1) := by decide +kernel

/-- 40_cipher.md R132: re-keying replaces the whole schedule and the rounds. -/
theorem test_ciphSetkey_rekeyed :
    (nextOf (exec .ciphSetkey
        { args 0x1000 0 16 key0 with c0 := { keyed := true, rounds := 34, ks := Vector.replicate 34 7 } })).map
      (fun t => t.c0) = some (slot key0) := by decide +kernel

/-- V3. -/
theorem test_keySchedule :
    (slot key0).subkeys.take 3 = [0x0706050403020100, 0x37253b31171d0309, 0xf91d89cc90c4085c] ∧
      (slot key0).subkeys.drop 31 = [0x2199c870db8ec93f] := by decide +kernel

/-- V6: the destination overlaps the source. -/
theorem test_ciphEncrypt :
    bytesAfter .ciphEncrypt { args 0x1000 0x1008 0 key0 with c0 := slot key0 } 0x1008 16
      = some (hexBytes 16 0x6368e9e9d92d1512e43cd02c71f3a60a) := by decide +kernel

/-- V1, the 32-byte key. -/
theorem test_encrypt_34_rounds :
    blockEncrypt (slot (hexBytes 32 0x1f1e1d1c1b1a191817161514131211100f0e0d0c0b0a09080706050403020100))
      (hexBlock 0x65736f6874206e49202e72656e6f6f70) = hexBlock 0x4109010405c0f53e4eeeb48d9c188f43 := by decide +kernel

/-- V1, the 24-byte key, decrypted; V5, SMALL's way. -/
theorem test_decrypt_33_rounds :
    blockDecrypt (slot (hexBytes 24 0x17161514131211100f0e0d0c0b0a09080706050403020100))
        (hexBlock 0x1be4cf3a13135566f9bc185de03c1886) = hexBlock 0x726148206665696843206f7420746e65 ∧
      decryptSmall (hexBytes 24 0x17161514131211100f0e0d0c0b0a09080706050403020100)
        (hexBlock 0x1be4cf3a13135566f9bc185de03c1886) = hexBlock 0x726148206665696843206f7420746e65 := by decide +kernel

/-- V6: in place. -/
theorem test_ciphDecrypt :
    bytesAfter .ciphDecrypt
        { args 0x1000 0x1000 0 (hexBytes 16 0x6368e9e9d92d1512e43cd02c71f3a60a) with c0 := slot key0 } 0x1000 16
      = some key0 := by decide +kernel

/-- V5: unsupported whether keyed or not. -/
theorem test_ciphDecrypt_tiny :
    report .ciphDecrypt { State.reset with params := { testParams with varC0 := .tiny } } = some (0x00001402, 0, 0) := by
  decide

/-- 40_cipher.md R137. -/
theorem test_ciphClear :
    (nextOf (exec .ciphClear { State.reset with c0 := { Slot.zero with keyed := true, rounds := 32 } })).map
      (fun t => (t.c0, t.status)) = some (Slot.zero, 0x00001500#32) := by decide

/-! ## OMAC (V7 to V11) -/

/-- V8. -/
theorem test_omacInitfirst :
    (nextOf (exec .omacInitfirst { State.reset with c0 := slot key0 })).map (fun t => (t.omac.ctx.B, stateWord t))
      = some (hexBlock 0x61ad4c7a29d5bd8a0d765aeb6f5de27a, 3#32) := by decide +kernel

/-- 41_omac.md R164. -/
theorem test_omacInitnext :
    (nextOf (exec (.omacInitnext 0xFF) { State.reset with omac := { Omac.zero with phase := .final } })).map
      (fun t => t.omac) = some { phase := .ready, ctx := { B := 0, acc := 0xFF, posn := 16 } } := by decide

/-- 41_omac.md R165: three bytes into an empty context. -/
theorem test_omacUpdate :
    (nextOf (exec .omacUpdate
        { args 0x1000 0 3 [0x61, 0x62, 0x63] with omac := { Omac.zero with phase := .ready } })).map (fun t => t.omac.ctx)
      = some { B := 0, acc := hexBlock 0x61626300000000000000000000000000, posn := 3 } := by decide

/-- V9, n = 17. -/
theorem test_omacFinalize :
    bytesAfter .omacFinalize
        { args 0 0x1000 0 [] with
          c0 := slot key0
          omac := { phase := .ready
                    ctx := omacUpdate (blockEncrypt (slot key0)) (omacInitFirst (blockEncrypt (slot key0))) (pat 17) } }
        0x1000 16
      = some (hexBytes 16 0xbe6f353f1e07b0f0892e51984cf4d70e) := by decide +kernel

/-- V7. -/
theorem test_dblBE :
    dblBE (hexBlock 0x80000000000000000000000000000000) = hexBlock 0x87 ∧
      dblBE (hexBlock 0x7fffffffffffffffffffffffffffffff) = hexBlock 0xfffffffffffffffffffffffffffffffe := by decide +kernel

theorem test_omacClear :
    report .omacClear { State.reset with omac := { Omac.zero with phase := .final } } = some (0x00002400, 0, 0) := by decide

/-! ## EAX (V12 to V18) -/

/-- Key 0^16. -/
def eaxKey : Slot := slot (zeroBytes 16)

/-- V13: the unit after SETIV of V12. -/
def eaxStarted : Eax where
  phase := .aad
  ctr := hexBlock 0x092e210f388e15882366274eda663908
  stream := 0
  tag := hexBlock 0x092e210f388e15882366274eda663908
  o := omacInitNext (omacInitFirst (blockEncrypt eaxKey)) 0x01
  encPosn := 16

/-- V12's ciphertext. -/
def eaxCiphertext : List Byte :=
  hexBytes 32 0x8516a2c3e58a48849b74bda4c90df18c0d8d33fe268bac31fe428b10615bdfa1
    ++ hexBytes 32 0x16763acb5be16dfb64e5c895fcfe09aafcae53e76436f4b55b4e54a40df90337

/-- V13: the unit after V12's data, with the associated data closed. -/
def eaxData : Eax where
  phase := .enc
  ctr := 0
  stream := 0
  tag := hexBlock (0x092e210f388e15882366274eda663908 ^^^ 0xd832cc2e5839cfa0871c4ef960eb82ed)
  o := omacUpdate (blockEncrypt eaxKey) (omacInitNext (omacInitFirst (blockEncrypt eaxKey)) 0x02) eaxCiphertext
  encPosn := 16

/-- V18: a 24-byte key in phase TAGGED. -/
theorem test_eaxSetkey :
    report .eaxSetkey { args 0x1000 0 24 [] with eax := { Eax.zero with phase := .tagged } } = some (0x00003000, 0, 0x10) := by
  decide +kernel

/-- V13. -/
theorem test_eaxSetiv :
    (nextOf (exec .eaxSetiv
        { args 0x1000 0 16 [] with e := eaxKey, eax := { Eax.zero with phase := .keyed } })).map (fun t => t.eax)
      = some eaxStarted := by decide +kernel

/-- 42_eax.md R195: one byte into the context SETIV leaves, which encrypts the full accumulator first. -/
theorem test_eaxAddauth :
    (nextOf (exec .eaxAddauth { args 0x1000 0 1 [0x01] with e := eaxKey, eax := eaxStarted })).map
      (fun t => (t.eax.phase, t.eax.o.posn, t.eax.o.acc ^^^ hexBlock 0x01000000000000000000000000000000))
      = some (.aad, 1, blockEncrypt eaxKey 1) := by decide +kernel

/-- V12, V13. -/
theorem test_eaxEncrypt :
    bytesAfter .eaxEncrypt { args 0x1000 0x1100 64 (pat 64) with e := eaxKey, eax := eaxStarted } 0x1100 64
      = some eaxCiphertext := by decide +kernel

/-- V12, in place. -/
theorem test_eaxDecrypt :
    bytesAfter .eaxDecrypt { args 0x1000 0x1000 64 eaxCiphertext with e := eaxKey, eax := eaxStarted } 0x1000 64
      = some (pat 64) := by decide +kernel

/-- V12: a tag cut to 5 bytes, and the byte after it left alone. -/
theorem test_eaxComputetag :
    bytesAfter .eaxComputetag { args 0 0x1000 5 [] with e := eaxKey, eax := eaxData } 0x1000 6
      = some [0xd6, 0xec, 0x56, 0x72, 0x20, 0x00] := by decide +kernel

/-- V15, the empty message with IV 0^16: the associated data is closed first. -/
theorem test_eaxComputetag_aad :
    bytesAfter .eaxComputetag { args 0 0x1000 16 [] with e := eaxKey, eax := eaxStarted } 0x1000 16
      = some (hexBytes 16 0x79b60dc3e20b1aaee9cadb28c73343c0) := by decide +kernel

/-- V12. -/
theorem test_eaxChecktag :
    report .eaxChecktag
        { args 0x1000 0 16 (hexBytes 16 0xd6ec567220a5b66281dd05d861b0cd2b) with e := eaxKey, eax := eaxData }
      = some (0x00003600, 1, 0x40) := by decide +kernel

/-- V14: a tag that differs in its last byte. -/
theorem test_eaxChecktag_mismatch :
    report .eaxChecktag
        { args 0x1000 0 16 (hexBytes 16 0xd6ec567220a5b66281dd05d861b0cd2a) with e := eaxKey, eax := eaxData }
      = some (0x00003600, 0, 0x40) := by decide +kernel

/-- 42_eax.md R202. -/
theorem test_eaxClear :
    (nextOf (exec .eaxClear { State.reset with eax := { Eax.zero with phase := .tagged, tag := 1 } })).map
      (fun t => (t.eax, t.status)) = some (Eax.zero, 0x00003700#32) := by decide

/-- V17: a carry through twelve bytes, and the wrap. -/
theorem test_ctrIncrement :
    ctrIncrement (hexBlock 0xffffffff) = hexBlock 0x100000000 ∧
      ctrIncrement (hexBlock 0xffffffffffffffffffffffffffffffff) = 0 := by decide +kernel

/-! ## XTS (V19 to V24) -/

/-- Key Kx, tweak 0^16, sectors of 17 bytes (V19, V20). -/
def xtsReady (src dst : Word) (bytes : List Byte) : State :=
  { args src dst 0 bytes with
    x1 := slot (pat 16)
    x2 := slot ((pat 32).drop 16)
    xts := { phase := .tweaked, T := hexBlock 0xbab0b413a262324fbf46dca50153f094, sectSize := 17 } }

/-- V24: 15 is too short. -/
theorem test_xtsSetsectorsize :
    report .xtsSetsectorsize (args 0 0 15 []) = some (0x00004005, 0, 0) ∧
      (nextOf (exec .xtsSetsectorsize (args 0 0 16 []))).map (fun t => readWindow t 0x1C) = some 16 := by decide

/-- V24: a key of 16 bytes is no two-key length; V22: it is a single-key length. -/
theorem test_xtsSetkey :
    report .xtsSetkey (args 0x1000 0 16 []) = some (0x00004104, 0, 0) ∧
      report .xtsSetkey { args 0x1000 0 16 [] with params := { testParams with xtsSingleKey := true } }
        = some (0x00004100, 0, 0x100) := by decide +kernel

/-- 43_xts.md R241: the halves of Kx. -/
theorem test_xtsSetkey_halves :
    (nextOf (exec .xtsSetkey (args 0x1000 0 32 (pat 32)))).map (fun t => (t.x1, t.x2))
      = some (slot (pat 16), slot ((pat 32).drop 16)) := by decide +kernel

/-- V19: no tweak bytes; one tweak byte 05, padded at its end. -/
theorem test_xtsSettweak :
    ((nextOf (exec .xtsSettweak (xtsReady 0x1000 0 []))).map fun t => t.xts.T)
        = some (hexBlock 0xbab0b413a262324fbf46dca50153f094) ∧
      ((nextOf (exec .xtsSettweak { xtsReady 0x1000 0 [0x05] with len := 1 })).map fun t => t.xts.T)
        = some (hexBlock 0xe5585e643e55946a322466352f2daf0a) := by decide +kernel

/-- V20. -/
theorem test_xtsEncsector :
    bytesAfter .xtsEncsector (xtsReady 0x1000 0x2000 (pat 17)) 0x2000 17
      = some (hexBytes 17 0x35fd08e6edb042ea98ab2ff5ca2939699c) := by decide +kernel

/-- V20, in place. -/
theorem test_xtsDecsector :
    bytesAfter .xtsDecsector (xtsReady 0x1000 0x1000 (hexBytes 17 0x35fd08e6edb042ea98ab2ff5ca2939699c)) 0x1000 17
      = some (pat 17) := by decide +kernel

/-- 43_xts.md R246: the sector size stays. -/
theorem test_xtsClear :
    (nextOf (exec .xtsClear (xtsReady 0 0 []))).map (fun t => (t.xts, t.x1, t.x2))
      = some ({ phase := .unkeyed, T := 0, sectSize := 17 }, Slot.zero, Slot.zero) := by decide +kernel

/-- V19. -/
theorem test_dblLE :
    dblLE (hexBlock 0x80) = hexBlock 0x87000000000000000000000000000000 ∧
      dblLE (hexBlock 0xffffffffffffffffffffffffffffff7f) = hexBlock 0xfeffffffffffffffffffffffffffffff := by decide +kernel

/-! ## Witnesses: states and operands that meet the hypotheses of each statement, clause by clause -/

/-- The state a command leaves. -/
def result (i : Instr) (s : State) : State := (nextOf (exec i s)).getD s

theorem exec_result (i : Instr) (s : State) : exec i s = .next (result i s) := by
  have h : ∃ t, exec i s = .next t := by
    cases i <;> first | exact ⟨_, rfl⟩ | exact ⟨_, Sys2Proof.Laws.complete_next _ _ _⟩
  obtain ⟨t, ht⟩ := h
  simp [result, ht, nextOf]

/-- The host's next access is `op`. -/
def pendingOp (op : HostOp) : State := { State.reset with pending := [op] }

/-- A unit in a phase, for the errors that only look at it. -/
def omacIn (p : OmacPhase) (src dst len : Word) : State := { args src dst len [] with omac := { Omac.zero with phase := p } }
def eaxIn (p : EaxPhase) (src dst len : Word) : State := { args src dst len [] with eax := { Eax.zero with phase := p } }
def xtsIn (p : XtsPhase) (src dst len : Word) : State :=
  { args src dst len [] with xts := { phase := p, T := 0, sectSize := 17 } }
def c0Keyed (src dst : Word) : State := { args src dst 0 [] with c0 := { Slot.zero with keyed := true, rounds := 32 } }

theorem witness_CommandWordsRoundTrip :
    (Instr.omacInitnext 0xFF).wellFormed = true ∧ decode 0x0000FF21#32 = .ok (.omacInitnext 0xFF) := by decide

/-- The hypothesis of IllegalWordsEndWithErrIllegal. -/
abbrev illegalWord (opc imm high : Nat) : Prop :=
  opc ≤ 0x0F ∨ (0x16 ≤ opc ∧ opc ≤ 0x1F) ∨ (0x25 ≤ opc ∧ opc ≤ 0x2F) ∨ (0x38 ≤ opc ∧ opc ≤ 0x3F) ∨ 0x46 ≤ opc ∨
    high ≠ 0 ∨ (imm ≠ 0 ∧ opc ≠ 0x21)

/-- On OPC, IMM8 and RSVD, at both ends of every range. -/
theorem witness_IllegalWordsEndWithErrIllegal :
    (∀ p ∈ [(0x00, 0, 0), (0x0F, 0, 0), (0x16, 0, 0), (0x1F, 0, 0), (0x25, 0, 0), (0x2F, 0, 0), (0x38, 0, 0), (0x3F, 0, 0),
      (0x46, 0, 0), (0xFF, 0, 0), (0x10, 0, 1), (0x10, 1, 0)], illegalWord p.1 p.2.1 p.2.2) ∧
    ∀ p ∈ [(0x10, 0, 0), (0x15, 0, 0), (0x20, 0, 0), (0x24, 0, 0), (0x30, 0, 0), (0x37, 0, 0), (0x40, 0, 0), (0x45, 0, 0),
      (0x21, 0xFF, 0)], ¬ illegalWord p.1 p.2.1 p.2.2 := by decide

theorem witness_StepRunsDecodedCommand :
    (pendingOp (wrCmd 0x10)).pending = .writeReg 0x00 .word 0x10 :: [] ∧ decode 0x10#32 = .ok .ciphKeysize := by decide

/-- The window mapped at 0x1000, and the host's next access `op`. -/
def mappedOp (op : HostOp) : State :=
  { pendingOp op with params := { testParams with windowMapped := true, base := 0x1000 } }

theorem witness_OnlySubwordAccessesStop :
    State.reset.pending = [] ∧
      (pendingOp (.readReg 0x04 .half)).pending = [.readReg 0x04 .half] ∧
      (HostOp.readReg 0x04 .half).wellFormed (pendingOp (.readReg 0x04 .half)).params = false ∧
      (mappedOp (.loadByte 0x10FF)).pending = [.loadByte 0x10FF] ∧
      (HostOp.loadByte 0x10FF).wellFormed (mappedOp (.loadByte 0x10FF)).params = false ∧
      (pendingOp (.storeByte 0xFFFFFFFF 1)).pending = [.storeByte 0xFFFFFFFF 1] ∧
      (HostOp.storeByte 0xFFFFFFFF 1).wellFormed (pendingOp (.storeByte 0xFFFFFFFF 1)).params = true := by decide

theorem witness_HostAccessEffects :
    (mappedOp (.loadByte 0x0FFF)).pending = [.loadByte 0x0FFF] ∧
      (0x0FFF#32).toNat < (mappedOp (.loadByte 0x0FFF)).params.base.toNat ∧
      (mappedOp (.storeByte 0x1100 1)).pending = [.storeByte 0x1100 1] ∧
      (mappedOp (.storeByte 0x1100 1)).params.base.toNat + 256 ≤ (0x1100#32).toNat ∧
      (pendingOp (.loadByte 0)).params.windowMapped = false ∧
      (pendingOp (.readReg 0x20 .word)).pending = [.readReg 0x20 .word] ∧
      (pendingOp (.writeReg 0x08 .word 1)).pending = [.writeReg 0x08 .word 1] ∧
      (pendingOp (.writeReg 0x0C .word 1)).pending = [.writeReg 0x0C .word 1] ∧
      (pendingOp (.writeReg 0x10 .word 1)).pending = [.writeReg 0x10 .word 1] ∧
      (pendingOp (.loadByte 0xFFFFFFFF)).pending = [.loadByte 0xFFFFFFFF] ∧
      (pendingOp (.storeByte 0 1)).pending = [.storeByte 0 1] := by decide

theorem witness_ReservedAndReadOnlyOffsets :
    (∀ o ∈ [0x24#8, 0xFC#8], o.toNat % 4 = 0 ∧ 0x24 ≤ o.toNat ∧
      (pendingOp (.readReg o .word)).pending = [.readReg o .word]) ∧
    ∀ o ∈ [0x04#8, 0x20#8, 0x24#8, 0xFC#8], o.toNat % 4 = 0 ∧
      (o ∈ [0x04#8, 0x14#8, 0x18#8, 0x1C#8, 0x20#8] ∨ 0x24 ≤ o.toNat) ∧
      (pendingOp (.writeReg o .word 1)).pending = [.writeReg o .word 1] := by decide

theorem witness_StateRegisterFields : (pendingOp (.writeReg 0x18 .word 7)).pending = .writeReg 0x18 .word 7 :: [] := by decide

theorem witness_ConfigRegisterConstant : ∃ t, step (pendingOp .platformReset) = .next t := ⟨_, rfl⟩

theorem witness_PlatformResetState : (pendingOp .platformReset).pending = .platformReset :: [] := by decide

theorem witness_ProgramLineRuns :
    ∃ s : State, s.pending = programLine .ciphSetkey (some 0x1000) none (some 16) ++ [] :=
  ⟨{ State.reset with pending := programLine .ciphSetkey (some 0x1000) none (some 16) }, by decide⟩

/-- The window mapped at 0x1000, and the range of two bytes at 4 refused. -/
def refusingParams : Params := { Params.standard with windowMapped := true, base := 0x1000, refusedRanges := [(4, 2)] }

theorem witness_RangesOutsideMemoryRejected :
    2 ^ 32 < (0xFFFFFFFF#32).toNat + 2 ∧
    (0xFFFFFFF0#32).toNat + 16 ≤ 2 ^ 32 ∧
    (∃ r ∈ refusingParams.regions, r.base ≤ (0xFFFFFFF0#32).toNat ∧ (0xFFFFFFF0#32).toNat + 16 ≤ r.base + r.size) ∧
    ((0xFFFFFFF0#32).toNat, 16) ∉ refusingParams.refusedRanges ∧
    refusingParams.base.toNat + 256 ≤ (0xFFFFFFF0#32).toNat ∧
    ((4#32).toNat, 2) ∈ refusingParams.refusedRanges ∧
    (∀ r ∈ testParams.regions, (0xFFFF#32).toNat < r.base ∨ r.base + r.size < (0xFFFF#32).toNat + 2) ∧
    ∃ s : State, s.params = refusingParams ∧ s.params.windowMapped = true ∧ s.src.toNat < s.params.base.toNat + 256 ∧
      s.params.base.toNat < s.src.toNat + 16 ∧ s.len.toNat = 16 :=
  ⟨by decide +kernel, by decide +kernel, by decide +kernel, by decide +kernel, by decide +kernel, by decide +kernel,
    by decide +kernel, { args 0x10FF 0 16 [] with params := refusingParams }, by decide +kernel⟩

theorem witness_EveryCommandWritesStatusAndResult :
    statusCode (result .ciphEncrypt State.reset).status ≠ 0 ∧ decode 0x10#32 = .ok .ciphKeysize ∧
      decode 0x11#32 = .ok .ciphBlocksize ∧ decode 0x36#32 = .ok .eaxChecktag ∧
      decode 0x12#32 ≠ .ok .ciphKeysize ∧ decode 0x12#32 ≠ .ok .ciphBlocksize ∧ decode 0x12#32 ≠ .ok .eaxChecktag := by
  decide

theorem witness_FailedCommandChangesNothing :
    ∃ t, runCommand 0x13 State.reset = .next t ∧ statusCode t.status ≠ 0 := ⟨_, rfl, by decide⟩

theorem witness_ArgumentRegistersUntouched :
    ∃ t, exec .ciphSetkey (args 0x1000 0 16 []) = .next t := ⟨_, exec_result _ _⟩

theorem witness_UnitOwnership :
    (∃ t, exec .eaxSetkey (args 0x1000 0 16 []) = .next t) ∧
      (Instr.eaxSetkey ∉ [.ciphSetkey, .ciphClear]) ∧ (Instr.ciphSetkey ∉ [.eaxSetkey, .eaxClear]) ∧
      (Instr.eaxSetkey ∉ [.xtsSetkey, .xtsClear]) ∧
      (Instr.eaxSetkey ∉ [.ciphSetkey, .ciphClear, .omacInitfirst, .omacUpdate, .omacFinalize, .omacClear]) ∧
      (∀ d, Instr.eaxSetkey ≠ .omacInitnext d) ∧
      (Instr.ciphSetkey ∉
        [.eaxSetkey, .eaxSetiv, .eaxAddauth, .eaxEncrypt, .eaxDecrypt, .eaxComputetag, .eaxChecktag, .eaxClear]) ∧
      (Instr.xtsEncsector ∉ [.xtsSetsectorsize, .xtsSetkey, .xtsSettweak, .xtsClear]) ∧
      (Instr.xtsClear ≠ .xtsSetsectorsize) ∧ (Instr.xtsSetkey ∉ [.xtsSettweak, .xtsClear]) :=
  ⟨⟨_, exec_result _ _⟩, by decide, by decide, by decide, by decide, fun _ h => (nomatch h), by decide, by decide, by decide,
    by decide⟩

theorem witness_OnlyDestinationBytesChange :
    (∃ s t : State, 16 ≤ s.xts.sectSize.toNat ∧ exec .ciphEncrypt s = .next t ∧ statusCode t.status ≠ 0) ∧
    (∃ s t : State, 16 ≤ s.xts.sectSize.toNat ∧ exec .ciphSetkey s = .next t ∧
      destinationRange .ciphSetkey s = none) ∧
    ∃ s t : State, 16 ≤ s.xts.sectSize.toNat ∧ exec .xtsEncsector s = .next t ∧
      destinationRange .xtsEncsector s = some (0x2000, 17) ∧ 0x1FFF < (0x2000#32).toNat ∧
        (0x2000#32).toNat + 17 ≤ 0x2011 :=
  ⟨⟨State.reset, _, by decide, exec_result _ _, by decide⟩, ⟨State.reset, _, by decide, exec_result _ _, by decide⟩,
    ⟨xtsReady 0x1000 0x2000 (pat 17), _, by decide, exec_result _ _, by decide⟩⟩

/-- Two states that differ in a key and in memory alone. -/
theorem witness_WindowIndependentOfSecrets :
    ∃ s s' t t' : State, SamePublic s s' ∧ s.e ≠ s'.e ∧ s.mem ≠ s'.mem ∧ exec .eaxEncrypt s = .next t ∧
      exec .eaxEncrypt s' = .next t' :=
  ⟨{ args 0x1000 0x1100 4 (pat 4) with e := eaxKey, eax := eaxStarted },
    { args 0x1000 0x1100 4 [7] with e := Slot.zero, eax := eaxStarted }, _, _, by decide +kernel, by decide +kernel,
    by decide +kernel, exec_result _ _, exec_result _ _⟩

/-- A state the invariant speaks of: every unit past its first phase. -/
def busy : State :=
  { xtsReady 0x1000 0x2000 (pat 17) with
    c0 := slot key0
    e := eaxKey
    omac := { phase := .ready, ctx := omacInitFirst (blockEncrypt (slot key0)) }
    eax := eaxStarted
    pending := [cmd .xtsEncsector] }

theorem witness_InvariantKeptByStep : Inv busy ∧ ∃ t, step busy = .next t := by
  refine ⟨⟨by decide +kernel, by decide +kernel, by decide, by decide, by decide +kernel⟩, ?_⟩
  have hd : decode (encode .xtsEncsector) = .ok .xtsEncsector := by decide
  have hs : step busy = runCommand (encode .xtsEncsector) (busy.advance []) := rfl
  exact ⟨_, by rw [hs, runCommand, hd]; exact exec_result _ _⟩

theorem witness_InvariantAtReset :
    Memory.wf [(0, 1), (0xFFFFFFFF, 2)] = true ∧ Memory.inSpace [(0, 1), (0xFFFFFFFF, 2)] = true := by decide

/-- The host sets the argument registers, keys all units and starts each of them. -/
def startAll : List HostOp :=
  [wrLen 32, cmd .xtsSetkey, wrLen 16, cmd .xtsSettweak, cmd .ciphSetkey, cmd .omacInitfirst, cmd .eaxSetkey, cmd .eaxSetiv]

theorem witness_ReachableStatesKeepSubkeysAndPositions :
    Memory.wf [] = true ∧ Memory.inSpace [] = true ∧
      (nextOf (Host.Core.run Sys2Proof.core 8
          { State.reset with params := testParams, mem := [], pending := startAll })).map
        (fun t => (t.omac.phase, t.eax.phase, t.xts.phase)) = some (.ready, .aad, .tweaked) := by decide +kernel

theorem witness_OmacPhaseTransitions :
    omacNextPhase (.omacInitnext 0) true .unset = none ∧ omacNextPhase .omacFinalize true .ready = some .final ∧
      omacNextPhase .omacInitfirst false .ready = none := by decide

theorem witness_EaxPhaseTransitions :
    eaxNextPhase .eaxSetiv .uninit = none ∧ eaxNextPhase .eaxEncrypt .aad = some .enc := by decide

theorem witness_XtsPhaseTransitions :
    xtsNextPhase .xtsDecsector .keyed = none ∧ xtsNextPhase .xtsSettweak .keyed = some .tweaked := by decide

theorem witness_BlockHalvesBigEndian : (pat 16).length = 16 := by decide

theorem witness_slotOf : (pat 16).length ∈ [16, 24, 32] ∧ (pat 24).length ∈ [16, 24, 32] ∧ (pat 32).length ∈ [16, 24, 32] := by
  decide

theorem witness_KeyScheduleRecurrence :
    ((pat 16).length = 16 ∧ (pat 24).length = 24 ∧ (pat 32).length = 32) ∧ 0 ≤ 16 / 8 - 2 ∧ 30 < 30 + 16 / 8 - 1 := by decide

theorem witness_SmallVariantRegeneratesBackward :
    (pat 16).length = 16 ∧ (pat 24).length = 24 ∧ (pat 32).length = 32 := by decide

theorem witness_TinyVariantSameFunction : (pat 16).length = 16 ∧ (pat 24).length = 24 ∧ (pat 32).length = 32 := by decide

theorem witness_CiphSetkeyResult :
    (∃ s : State, s.len.toNat ∉ [16, 24, 32]) ∧
    (∃ s : State, s.len.toNat ∈ [16, 24, 32] ∧ rangeValid s.params s.src s.len.toNat = false) ∧
    ∃ s : State, s.len.toNat ∈ [16, 24, 32] ∧ rangeValid s.params s.src s.len.toNat = true :=
  ⟨⟨args 0x1000 0 15 [], by decide⟩, ⟨args 0xFFF1 0 16 [], by decide⟩, ⟨args 0xFFF0 0 16 [], by decide⟩⟩

theorem witness_CiphEncryptResult :
    (∃ s : State, s.c0.keyed = false) ∧
    (∃ s : State, s.c0.keyed = true ∧ (rangeValid s.params s.src 16 = false ∨ rangeValid s.params s.dst 16 = false)) ∧
    ∃ s : State, s.c0.keyed = true ∧ rangeValid s.params s.src 16 = true ∧ rangeValid s.params s.dst 16 = true :=
  ⟨⟨State.reset, by decide⟩, ⟨c0Keyed 0xFFF0 0xFFF1, by decide⟩, ⟨c0Keyed 0xFFF0 0xFFE1, by decide⟩⟩

theorem witness_CiphDecryptResult :
    (∃ s : State, s.params.varC0 = .tiny) ∧ (∃ s : State, s.params.varC0 ≠ .tiny ∧ s.c0.keyed = false) ∧
    (∃ s : State, s.params.varC0 ≠ .tiny ∧ s.c0.keyed = true ∧
      (rangeValid s.params s.src 16 = false ∨ rangeValid s.params s.dst 16 = false)) ∧
    ∃ (s : State) (b : Block), s.params.varC0 ≠ .tiny ∧ s.c0.keyed = true ∧ rangeValid s.params s.src 16 = true ∧
      rangeValid s.params s.dst 16 = true ∧ blockOfBytes (memRead s.mem s.src.toNat 16) = blockEncrypt s.c0 b :=
  ⟨⟨{ State.reset with params := { testParams with varC0 := .tiny } }, by decide⟩, ⟨State.reset, by decide⟩,
    ⟨c0Keyed 0xFFF1 0xFFF0, by decide⟩,
    ⟨{ args 0x1000 0xFFF0 0 (hexBytes 16 0x6368e9e9d92d1512e43cd02c71f3a60a) with c0 := slot key0 }, blockOfBytes key0,
      by decide +kernel⟩⟩

theorem witness_OmacInitResults :
    (∃ s : State, s.c0.keyed = false) ∧ (∃ s : State, s.c0.keyed = true) ∧ (∃ s : State, s.omac.phase = .unset) ∧
      ∃ s : State, s.omac.phase ≠ .unset :=
  ⟨⟨State.reset, by decide⟩, ⟨c0Keyed 0 0, by decide⟩, ⟨State.reset, by decide⟩, ⟨omacIn .final 0 0 0, by decide⟩⟩

theorem witness_OmacUpdateResult :
    (∃ s : State, s.omac.phase ≠ .ready) ∧
    (∃ s : State, s.omac.phase = .ready ∧ rangeValid s.params s.src s.len.toNat = false) ∧
    (∃ s : State, s.omac.phase = .ready ∧ rangeValid s.params s.src s.len.toNat = true ∧ s.len.toNat = 0x10000) ∧
    ∃ s : State, s.omac.phase = .ready ∧ s.len.toNat = 0 :=
  ⟨⟨omacIn .final 0 0 1, by decide⟩, ⟨omacIn .ready 1 0 0x10000, by decide⟩, ⟨omacIn .ready 0 0 0x10000, by decide⟩,
    ⟨omacIn .ready 0xFFFFFFFF 0 0, by decide⟩⟩

theorem witness_OmacFinalizeResult :
    (∃ s : State, s.omac.phase ≠ .ready) ∧
    (∃ s : State, s.omac.phase = .ready ∧ rangeValid s.params s.dst 16 = false) ∧
    ∃ s : State, s.omac.phase = .ready ∧ rangeValid s.params s.dst 16 = true :=
  ⟨⟨State.reset, by decide⟩, ⟨omacIn .ready 0 0xFFF1 0, by decide⟩, ⟨omacIn .ready 0 0xFFF0 0, by decide⟩⟩

theorem witness_DoublingByteFormulas : 14 < 15 ∧ 1 ≤ 15 := by decide

theorem witness_KeystreamClosedForm : eaxStarted.encPosn = 16 ∧ pat 1 ≠ [] := by decide +kernel

theorem witness_EaxSetkeyResult :
    (∃ s : State, s.len.toNat ∉ [16, 24, 32]) ∧
    (∃ s : State, s.len.toNat ∈ [16, 24, 32] ∧ rangeValid s.params s.src s.len.toNat = false) ∧
    ∃ s : State, s.len.toNat ∈ [16, 24, 32] ∧ rangeValid s.params s.src s.len.toNat = true :=
  ⟨⟨args 0x1000 0 33 [], by decide⟩, ⟨args 0xFFE1 0 32 [], by decide⟩, ⟨args 0xFFE0 0 32 [], by decide⟩⟩

theorem witness_EaxSetivResult :
    (∃ s : State, s.eax.phase = .uninit) ∧
    (∃ s : State, s.eax.phase ≠ .uninit ∧ s.len.toNat = 0) ∧ (∃ s : State, s.eax.phase ≠ .uninit ∧ 16 < s.len.toNat) ∧
    (∃ s : State, s.eax.phase ≠ .uninit ∧ 1 ≤ s.len.toNat ∧ s.len.toNat ≤ 16 ∧
      rangeValid s.params s.src s.len.toNat = false) ∧
    ∃ s : State, s.eax.phase ≠ .uninit ∧ 1 ≤ s.len.toNat ∧ s.len.toNat ≤ 16 ∧
      rangeValid s.params s.src s.len.toNat = true :=
  ⟨⟨State.reset, by decide⟩, ⟨eaxIn .keyed 0 0 0, by decide⟩, ⟨eaxIn .keyed 0 0 17, by decide⟩,
    ⟨eaxIn .tagged 0x10000 0 1, by decide⟩, ⟨eaxIn .tagged 0xFFF0 0 16, by decide⟩⟩

theorem witness_EaxAddauthResult :
    (∃ s : State, s.eax.phase ≠ .aad) ∧
    (∃ s : State, s.eax.phase = .aad ∧ rangeValid s.params s.src s.len.toNat = false) ∧
    ∃ s : State, s.eax.phase = .aad ∧ rangeValid s.params s.src s.len.toNat = true :=
  ⟨⟨eaxIn .enc 0 0 1, by decide⟩, ⟨eaxIn .aad 0x10000 0 1, by decide⟩, ⟨eaxIn .aad 0xFFFF 0 1, by decide⟩⟩

theorem witness_EaxEncryptResult :
    (∃ s : State, ¬ (s.eax.phase = .aad ∨ s.eax.phase = .enc)) ∧
    (∃ s : State, (s.eax.phase = .aad ∨ s.eax.phase = .enc) ∧ 0 < s.len.toNat ∧ s.src ≠ s.dst ∧
      s.src.toNat < s.dst.toNat + s.len.toNat ∧ s.dst.toNat < s.src.toNat + s.len.toNat) ∧
    (∃ s : State, (s.eax.phase = .aad ∨ s.eax.phase = .enc) ∧
      ¬ (0 < s.len.toNat ∧ s.src ≠ s.dst ∧ s.src.toNat < s.dst.toNat + s.len.toNat ∧
        s.dst.toNat < s.src.toNat + s.len.toNat) ∧
      (rangeValid s.params s.src s.len.toNat = false ∨ rangeValid s.params s.dst s.len.toNat = false)) ∧
    ∃ s : State, (s.eax.phase = .aad ∨ s.eax.phase = .enc) ∧
      ¬ (0 < s.len.toNat ∧ s.src ≠ s.dst ∧ s.src.toNat < s.dst.toNat + s.len.toNat ∧
        s.dst.toNat < s.src.toNat + s.len.toNat) ∧
      rangeValid s.params s.src s.len.toNat = true ∧ rangeValid s.params s.dst s.len.toNat = true :=
  ⟨⟨eaxIn .tagged 0 0 0, by decide⟩, ⟨eaxIn .enc 0x1000 0x100F 16, by decide⟩, ⟨eaxIn .aad 0xFFF0 0x10000 16, by decide⟩,
    ⟨eaxIn .aad 0x1000 0x1010 16, by decide⟩⟩

/-- The hypotheses are those of EaxEncryptResult. -/
theorem witness_EaxDecryptResult :
    (∃ s : State, ¬ (s.eax.phase = .aad ∨ s.eax.phase = .enc)) ∧
    (∃ s : State, (s.eax.phase = .aad ∨ s.eax.phase = .enc) ∧ 0 < s.len.toNat ∧ s.src ≠ s.dst ∧
      s.src.toNat < s.dst.toNat + s.len.toNat ∧ s.dst.toNat < s.src.toNat + s.len.toNat) ∧
    (∃ s : State, (s.eax.phase = .aad ∨ s.eax.phase = .enc) ∧
      ¬ (0 < s.len.toNat ∧ s.src ≠ s.dst ∧ s.src.toNat < s.dst.toNat + s.len.toNat ∧
        s.dst.toNat < s.src.toNat + s.len.toNat) ∧
      (rangeValid s.params s.src s.len.toNat = false ∨ rangeValid s.params s.dst s.len.toNat = false)) ∧
    ∃ s : State, (s.eax.phase = .aad ∨ s.eax.phase = .enc) ∧
      ¬ (0 < s.len.toNat ∧ s.src ≠ s.dst ∧ s.src.toNat < s.dst.toNat + s.len.toNat ∧
        s.dst.toNat < s.src.toNat + s.len.toNat) ∧
      rangeValid s.params s.src s.len.toNat = true ∧ rangeValid s.params s.dst s.len.toNat = true :=
  witness_EaxEncryptResult

theorem witness_EaxComputetagResult :
    (∃ s : State, ¬ (s.eax.phase = .aad ∨ s.eax.phase = .enc)) ∧
    (∃ s : State, (s.eax.phase = .aad ∨ s.eax.phase = .enc) ∧ 16 < s.len.toNat) ∧
    (∃ s : State, (s.eax.phase = .aad ∨ s.eax.phase = .enc) ∧ s.len.toNat ≤ 16 ∧
      rangeValid s.params s.dst s.len.toNat = false) ∧
    ∃ s : State, (s.eax.phase = .aad ∨ s.eax.phase = .enc) ∧ s.len.toNat ≤ 16 ∧
      rangeValid s.params s.dst s.len.toNat = true :=
  ⟨⟨eaxIn .keyed 0 0 0, by decide⟩, ⟨eaxIn .enc 0 0 17, by decide⟩, ⟨eaxIn .aad 0 0xFFF1 16, by decide⟩,
    ⟨eaxIn .aad 0 0xFFF0 16, by decide⟩⟩

theorem witness_EaxChecktagResult :
    (∃ s : State, ¬ (s.eax.phase = .aad ∨ s.eax.phase = .enc)) ∧
    (∃ s : State, (s.eax.phase = .aad ∨ s.eax.phase = .enc) ∧ s.len.toNat = 0) ∧
    (∃ s : State, (s.eax.phase = .aad ∨ s.eax.phase = .enc) ∧ 16 < s.len.toNat) ∧
    (∃ s : State, (s.eax.phase = .aad ∨ s.eax.phase = .enc) ∧ 1 ≤ s.len.toNat ∧ s.len.toNat ≤ 16 ∧
      rangeValid s.params s.src s.len.toNat = false) ∧
    ∃ s : State, (s.eax.phase = .aad ∨ s.eax.phase = .enc) ∧ 1 ≤ s.len.toNat ∧ s.len.toNat ≤ 16 ∧
      rangeValid s.params s.src s.len.toNat = true :=
  ⟨⟨eaxIn .uninit 0 0 1, by decide⟩, ⟨eaxIn .aad 0 0 0, by decide⟩, ⟨eaxIn .enc 0 0 17, by decide⟩,
    ⟨eaxIn .aad 0xFFFF 0 2, by decide⟩, ⟨eaxIn .enc 0xFFFF 0 1, by decide⟩⟩

/-- V12's first five bytes, encrypted and decrypted from the state SETIV left. -/
theorem witness_EaxDecryptRecoversPlaintext :
    ∃ s t s' t' : State, exec .eaxEncrypt s = .next t ∧ statusCode t.status = 0 ∧ s'.eax = s.eax ∧ s'.e = s.e ∧
      s'.len = s.len ∧ s'.src = s.dst ∧ s'.mem = t.mem ∧ exec .eaxDecrypt s' = .next t' ∧ statusCode t'.status = 0 :=
  let s := { args 0x1000 0x1100 5 (pat 5) with e := eaxKey, eax := eaxStarted }
  ⟨s, _, { result .eaxEncrypt s with eax := s.eax, src := 0x1100, dst := 0x1200 }, _, exec_result _ _, by decide +kernel,
    rfl, by decide +kernel, by decide +kernel, rfl, rfl, exec_result _ _, by decide +kernel⟩

/-- V15's message "hello" with the associated data "hdr". -/
theorem witness_EaxMessageClosedForm :
    ∃ s1 t1 s2 t2 s3 t3 s4 t4 : State,
      exec .eaxSetiv s1 = .next t1 ∧ statusCode t1.status = 0 ∧
      s2.eax = t1.eax ∧ s2.e = t1.e ∧ exec .eaxAddauth s2 = .next t2 ∧ statusCode t2.status = 0 ∧
      s3.eax = t2.eax ∧ s3.e = t2.e ∧ exec .eaxEncrypt s3 = .next t3 ∧ statusCode t3.status = 0 ∧
      s4.eax = t3.eax ∧ s4.e = t3.e ∧ exec .eaxComputetag s4 = .next t4 ∧ statusCode t4.status = 0 ∧
      memRead t3.mem s3.dst.toNat 5 = hexBytes 5 0xed72ccac8e ∧
      memRead t4.mem s4.dst.toNat 16 = hexBytes 16 0x015ab44799348529682fcf264b0bb2f9 :=
  let s1 := { args 0x2000 0 16 (hexBytes 8 0x68647268656c6c6f) with e := eaxKey, eax := { Eax.zero with phase := .keyed } }
  let s2 := { result .eaxSetiv s1 with src := 0x1000, len := 3 }
  let s3 := { result .eaxAddauth s2 with src := 0x1003, dst := 0x1100, len := 5 }
  let s4 := { result .eaxEncrypt s3 with dst := 0x1200, len := 16 }
  ⟨s1, _, s2, _, s3, _, s4, _, exec_result _ _, by decide +kernel, rfl, rfl, exec_result _ _, by decide +kernel, rfl, rfl,
    exec_result _ _, by decide +kernel, rfl, rfl, exec_result _ _, by decide +kernel, by decide +kernel, by decide +kernel⟩

theorem witness_XtsSectorRoundTrip : 16 ≤ (pat 16).length := by decide

theorem witness_XtsCiphertextGeometry :
    (16 ≤ (pat 32).length ∧ 0 < (pat 32).length / 16 - 1 ∧ (pat 32).length % 16 = 0) ∧
      16 ≤ (pat 17).length ∧ 0 < (pat 17).length % 16 := by decide

theorem witness_XtsSetsectorsizeResult :
    (∃ s : State, s.len.toNat < 16) ∧ ∃ s : State, 16 ≤ s.len.toNat :=
  ⟨⟨args 0 0 15 [], by decide⟩, ⟨args 0 0 16 [], by decide⟩⟩

theorem witness_XtsSetkeyResult :
    (∃ s : State, ¬ ((s.params.xtsSingleKey = false ∧ s.len.toNat ∈ [32, 48, 64]) ∨
      (s.params.xtsSingleKey = true ∧ s.len.toNat ∈ [16, 24, 32]))) ∧
    (∃ s : State, ((s.params.xtsSingleKey = false ∧ s.len.toNat ∈ [32, 48, 64]) ∨
      (s.params.xtsSingleKey = true ∧ s.len.toNat ∈ [16, 24, 32])) ∧
        rangeValid s.params s.src s.len.toNat = false) ∧
    (∃ s : State, (s.params.xtsSingleKey = false ∧ s.len.toNat ∈ [32, 48, 64]) ∧
      rangeValid s.params s.src s.len.toNat = true) ∧
    ∃ s : State, (s.params.xtsSingleKey = true ∧ s.len.toNat ∈ [16, 24, 32]) ∧
      rangeValid s.params s.src s.len.toNat = true :=
  ⟨⟨args 0 0 16 [], by decide⟩, ⟨args 0xFFC1 0 64 [], by decide⟩, ⟨args 0xFFC0 0 64 [], by decide⟩,
    ⟨{ args 0xFFF0 0 16 [] with params := { testParams with xtsSingleKey := true } }, by decide⟩⟩

theorem witness_XtsSettweakResult :
    (∃ s : State, s.xts.phase = .unkeyed) ∧ (∃ s : State, s.xts.phase ≠ .unkeyed ∧ 16 < s.len.toNat) ∧
    (∃ s : State, s.xts.phase ≠ .unkeyed ∧ s.len.toNat ≤ 16 ∧ rangeValid s.params s.src s.len.toNat = false) ∧
    (∃ s : State, s.xts.phase ≠ .unkeyed ∧ s.len.toNat ≤ 16 ∧ rangeValid s.params s.src s.len.toNat = true) :=
  ⟨⟨State.reset, by decide⟩, ⟨xtsIn .keyed 0 0 17, by decide⟩, ⟨xtsIn .keyed 0xFFF1 0 16, by decide⟩,
    ⟨xtsIn .keyed 0xFFF0 0 16, by decide⟩⟩

theorem witness_XtsEncsectorResult :
    (∃ s : State, 16 ≤ s.xts.sectSize.toNat ∧ s.xts.phase ≠ .tweaked) ∧
    (∃ s : State, 16 ≤ s.xts.sectSize.toNat ∧ s.xts.phase = .tweaked ∧ 0 < s.xts.sectSize.toNat ∧ s.src ≠ s.dst ∧
      s.src.toNat < s.dst.toNat + s.xts.sectSize.toNat ∧ s.dst.toNat < s.src.toNat + s.xts.sectSize.toNat) ∧
    (∃ s : State, 16 ≤ s.xts.sectSize.toNat ∧ s.xts.phase = .tweaked ∧
      ¬ (0 < s.xts.sectSize.toNat ∧ s.src ≠ s.dst ∧ s.src.toNat < s.dst.toNat + s.xts.sectSize.toNat ∧
        s.dst.toNat < s.src.toNat + s.xts.sectSize.toNat) ∧
      (rangeValid s.params s.src s.xts.sectSize.toNat = false ∨ rangeValid s.params s.dst s.xts.sectSize.toNat = false)) ∧
    ∃ s : State, 16 ≤ s.xts.sectSize.toNat ∧ s.xts.phase = .tweaked ∧
      ¬ (0 < s.xts.sectSize.toNat ∧ s.src ≠ s.dst ∧ s.src.toNat < s.dst.toNat + s.xts.sectSize.toNat ∧
        s.dst.toNat < s.src.toNat + s.xts.sectSize.toNat) ∧
      rangeValid s.params s.src s.xts.sectSize.toNat = true ∧ rangeValid s.params s.dst s.xts.sectSize.toNat = true :=
  ⟨⟨xtsIn .keyed 0 0 0, by decide⟩, ⟨xtsIn .tweaked 0x1010 0x1000 0, by decide⟩,
    ⟨xtsIn .tweaked 0xFFF0 0xFFF0 0, by decide⟩, ⟨xtsIn .tweaked 0xFFEF 0xFFEF 0, by decide⟩⟩

theorem witness_XtsDecsectorResult :
    (∃ s : State, 16 ≤ s.xts.sectSize.toNat ∧ s.params.varX1 = .tiny) ∧
    (∃ s : State, 16 ≤ s.xts.sectSize.toNat ∧ s.params.varX1 ≠ .tiny ∧ s.xts.phase ≠ .tweaked) ∧
    (∃ s : State, 16 ≤ s.xts.sectSize.toNat ∧ s.params.varX1 ≠ .tiny ∧ s.xts.phase = .tweaked ∧
      0 < s.xts.sectSize.toNat ∧ s.src ≠ s.dst ∧ s.src.toNat < s.dst.toNat + s.xts.sectSize.toNat ∧
      s.dst.toNat < s.src.toNat + s.xts.sectSize.toNat) ∧
    (∃ s : State, 16 ≤ s.xts.sectSize.toNat ∧ s.params.varX1 ≠ .tiny ∧ s.xts.phase = .tweaked ∧
      ¬ (0 < s.xts.sectSize.toNat ∧ s.src ≠ s.dst ∧ s.src.toNat < s.dst.toNat + s.xts.sectSize.toNat ∧
        s.dst.toNat < s.src.toNat + s.xts.sectSize.toNat) ∧
      (rangeValid s.params s.src s.xts.sectSize.toNat = false ∨ rangeValid s.params s.dst s.xts.sectSize.toNat = false)) ∧
    ∃ s : State, 16 ≤ s.xts.sectSize.toNat ∧ s.params.varX1 ≠ .tiny ∧ s.xts.phase = .tweaked ∧
      ¬ (0 < s.xts.sectSize.toNat ∧ s.src ≠ s.dst ∧ s.src.toNat < s.dst.toNat + s.xts.sectSize.toNat ∧
        s.dst.toNat < s.src.toNat + s.xts.sectSize.toNat) ∧
      rangeValid s.params s.src s.xts.sectSize.toNat = true ∧ rangeValid s.params s.dst s.xts.sectSize.toNat = true :=
  ⟨⟨{ State.reset with params := { testParams with varX1 := .tiny } }, by decide⟩, ⟨xtsIn .keyed 0 0 0, by decide⟩,
    ⟨xtsIn .tweaked 0x1000 0x1010 0, by decide⟩, ⟨xtsIn .tweaked 0x1000 0xFFF0 0, by decide⟩,
    ⟨xtsIn .tweaked 0x1000 0x1011 0, by decide⟩⟩

/-- V20's sector. -/
theorem witness_XtsDecsectorRestoresSector :
    ∃ s t s' t' : State, 16 ≤ s.xts.sectSize.toNat ∧ exec .xtsEncsector s = .next t ∧ statusCode t.status = 0 ∧
      s'.xts = t.xts ∧ s'.x1 = t.x1 ∧ s'.src = s.dst ∧ s'.mem = t.mem ∧ exec .xtsDecsector s' = .next t' ∧
      statusCode t'.status = 0 :=
  let s := xtsReady 0x1000 0x2000 (pat 17)
  ⟨s, _, { result .xtsEncsector s with src := 0x2000, dst := 0x3000 }, _, by decide, exec_result _ _, by decide +kernel, rfl,
    rfl, rfl, rfl, exec_result _ _, by decide +kernel⟩

end Sys2Proof.Tests
end

section
/-! What a command can do, said once: its outcome as the first error in the spec's order of priority or, without
one, the writes of its success (60_exceptions.md R270 to R274). -/

namespace Sys2Proof.Proofs

open Sys2Proof.Machine Sys2Proof.Safety Sys2Proof.Laws

/-! ## The first error -/

/-- The first error of a command, by the spec's causes and order of priority (60_exceptions.md R272, R274). -/
def firstError (i : Instr) (s : State) : Option CmdError := priorityOrder.find? fun c => errorHolds c i s

/-- The order of priority, as a chain of choices; no word that decodes is illegal. -/
theorem firstError_eq_ite (i : Instr) (s : State) :
    firstError i s =
      if errorHolds .unsupported i s then some .unsupported
      else if errorHolds .seq i s then some .seq
      else if errorHolds .keylen i s then some .keylen
      else if errorHolds .len i s then some .len
      else if errorHolds .overlap i s then some .overlap
      else if errorHolds .bus i s then some .bus
      else none := by
  have hill : errorHolds .illegal i s = false := rfl
  simp only [firstError, priorityOrder, List.find?_cons, List.find?_nil, hill]
  repeat' split
  all_goals simp_all

/-- Without an error no cause holds. -/
theorem errorHolds_eq_false {i : Instr} {s : State} (h : firstError i s = none) (c : CmdError) :
    errorHolds c i s = false := by
  have hc : c ∈ priorityOrder := by cases c <;> decide
  simpa using List.find?_eq_none.mp h c hc

/-! ## The success -/

/-- The state and the result of a command that meets no error, before STATUS and RESULT are written. -/
def effect (i : Instr) (s : State) : State × Word :=
  match i with
  | .ciphKeysize => (s, 32)
  | .ciphBlocksize => (s, 16)
  | .ciphSetkey => ((s.setC0 (Slot.ofKey (s.srcBytes s.lenNat))).setOmac { s.omac with phase := .unset }, 0)
  | .ciphEncrypt => (s.storeDst (blockBytes (blockEncrypt s.c0 s.srcBlock)), 0)
  | .ciphDecrypt => (s.storeDst (blockBytes (blockDecrypt s.c0 s.srcBlock)), 0)
  | .ciphClear => ((s.setC0 Slot.zero).setOmac Omac.zero, 0)
  | .omacInitfirst => (s.setOmac { phase := .ready, ctx := omacInitFirst (blockEncrypt s.c0) }, 0)
  | .omacInitnext t => (s.setOmac { phase := .ready, ctx := omacInitNext s.omac.ctx t }, 0)
  | .omacUpdate =>
    (s.setOmac { s.omac with ctx := omacUpdate (blockEncrypt s.c0) s.omac.ctx (s.srcBytes s.lenNat) }, 0)
  | .omacFinalize =>
    let c := omacFinalize (blockEncrypt s.c0) s.omac.ctx
    ((s.storeDst (blockBytes c.acc)).setOmac { phase := .final, ctx := c }, 0)
  | .omacClear => (s.setOmac Omac.zero, 0)
  | .eaxSetkey => ((s.setE (Slot.ofKey (s.srcBytes s.lenNat))).setEax { s.eax with phase := .keyed }, 0)
  | .eaxSetiv => (s.setEax (startMessage (blockEncrypt s.e) s.eax (s.srcBytes s.lenNat)), 0)
  | .eaxAddauth =>
    (s.setEax { s.eax with o := omacUpdate (blockEncrypt s.e) s.eax.o (s.srcBytes s.lenNat) }, 0)
  | .eaxEncrypt =>
    let r := ctrXor (blockEncrypt s.e) (endAad (blockEncrypt s.e) s.eax) (s.srcBytes s.lenNat)
    ((s.storeDst r.1).setEax { r.2 with o := omacUpdate (blockEncrypt s.e) r.2.o r.1 }, 0)
  | .eaxDecrypt =>
    let x := endAad (blockEncrypt s.e) s.eax
    let r := ctrXor (blockEncrypt s.e) { x with o := omacUpdate (blockEncrypt s.e) x.o (s.srcBytes s.lenNat) }
      (s.srcBytes s.lenNat)
    ((s.storeDst r.1).setEax r.2, 0)
  | .eaxComputetag =>
    let x := closeTag (blockEncrypt s.e) s.eax
    ((s.storeDst ((blockBytes x.tag).take s.lenNat)).setEax x, 0)
  | .eaxChecktag =>
    let x := closeTag (blockEncrypt s.e) s.eax
    (s.setEax x, if tagDifference ((blockBytes x.tag).take s.lenNat) (s.srcBytes s.lenNat) = 0 then 1 else 0)
  | .eaxClear => ((s.setE Slot.zero).setEax Eax.zero, 0)
  | .xtsSetsectorsize => (s.setXts { s.xts with sectSize := s.len }, 0)
  | .xtsSetkey =>
    let key := s.srcBytes s.lenNat
    (((s.setX1 (Slot.ofKey (xtsPayloadKey s.params.xtsSingleKey key))).setX2
      (Slot.ofKey (xtsTweakKey s.params.xtsSingleKey key))).setXts { s.xts with phase := .keyed }, 0)
  | .xtsSettweak =>
    let tw := blockOfBytes (s.srcBytes s.lenNat ++ zeroBytes (16 - s.lenNat))
    (s.setXts { s.xts with T := blockEncrypt s.x2 tw, phase := .tweaked }, 0)
  | .xtsEncsector => (s.storeDst (xtsEncrypt (blockEncrypt s.x1) s.xts.T (s.srcBytes s.sectorNat)), 0)
  | .xtsDecsector => (s.storeDst (xtsDecrypt (blockDecrypt s.x1) s.xts.T (s.srcBytes s.sectorNat)), 0)
  | .xtsClear => (((s.setX1 Slot.zero).setX2 Slot.zero).setXts { s.xts with T := 0, phase := .unkeyed }, 0)

/-! ## A command is its first error or its success -/

theorem keyLenOk_eq_false_iff (n : Nat) : keyLenOk n = false ↔ ¬ n = 16 ∧ ¬ n = 24 ∧ ¬ n = 32 := by
  simp [keyLenOk, and_assoc]

/-- The key lengths XTS.SETKEY refuses, with one key and with a split one, as the spec lists them (43_xts.md R241). -/
theorem xtsKeyLenOk_eq_false_iff (single : Bool) (n : Nat) :
    xtsKeyLenOk single n = false ↔
      single = true ∧ ¬ n = 16 ∧ ¬ n = 24 ∧ ¬ n = 32 ∨ single = false ∧ ¬ n = 32 ∧ ¬ n = 48 ∧ ¬ n = 64 := by
  cases single
  · simp [xtsKeyLenOk, keyLenOk]; omega
  · simp [xtsKeyLenOk, keyLenOk_eq_false_iff]

/-- Every command completes with its first error, or with its success where there is none: the checks of its meaning are
the causes the spec's tables list for it, in the spec's order of priority. -/
theorem exec_eq_complete (i : Instr) (s : State) :
    exec i s = complete i.opcode s ((firstError i s).elim (.ok (effect i s)) .error) := by
  rw [firstError_eq_ite]
  cases i
  case ciphKeysize | ciphBlocksize | ciphClear | omacClear | eaxClear | xtsClear => rfl
  case xtsSetsectorsize =>
    by_cases h : s.len.toNat < 16 <;>
      simp [exec, execXtsSetsectorsize, errorHolds, outOfPhase, sourceRange, destinationRange, State.lenNat, h] <;> rfl
  all_goals
    simp only [exec]
    refine congrArg (complete _ s) ?_
    simp [errorHolds, outOfPhase, sourceRange, destinationRange, State.lenNat, State.sectorNat, State.srcValid,
      State.dstValid, State.srcDstOverlap, keyLenOk_eq_false_iff, xtsKeyLenOk_eq_false_iff, inMessage]
    split_ifs <;> rfl

/-- What a command can do: fail with its first error, or write its effect and end with OK. -/
theorem exec_cases {i : Instr} {s t : State} (h : exec i s = .next t) :
    (∃ c, firstError i s = some c ∧ t = s.failed i.opcode c) ∨
      (firstError i s = none ∧ t = (effect i s).1.finish i.opcode codeOk (effect i s).2) := by
  rw [exec_eq_complete, complete_next] at h
  cases hf : firstError i s with
  | none => exact .inr ⟨rfl, by simpa [hf] using h.symm⟩
  | some c => exact .inl ⟨c, rfl, by simpa [hf] using h.symm⟩

/-- Every command ends in a next state (60_exceptions.md R275). -/
theorem exec_next (i : Instr) (s : State) : ∃ t, exec i s = .next t :=
  ⟨_, (exec_eq_complete i s).trans (complete_next _ _ _)⟩

/-- A word that decodes has its command's opcode in OPC (30_encoding.md R90, R92). -/
theorem opcode_of_decode {w : Word} {i : Instr} (h : decode w = .ok i) : i.opcode = opcField w := by
  have hmap : ∀ opc imm, instrOfOpcode opc imm = some i → i.opcode = opc := by
    intro opc imm hi
    unfold instrOfOpcode at hi
    split at hi <;> cases hi <;> rfl
  unfold decode at h
  split at h
  · cases h
  · split at h
    · cases h
    · next j hj =>
      split at h
      · cases h
      · cases h
        exact hmap _ _ hj

end Sys2Proof.Proofs
end

section
/-! What every command leaves unchanged and what it writes to STATUS and RESULT (10_state.md R23 to R26, R33). -/

namespace Sys2Proof.Proofs

open Sys2Proof.Machine Sys2Proof.Safety Sys2Proof.Laws

/-! ## Frames -/

/-- Settles O16: a failure writes STATUS and RESULT alone, and no effect reaches what the host alone writes. -/
theorem argumentRegistersUntouched : Obligations.ArgumentRegistersUntouched := by
  intro i s t h
  obtain ⟨c, -, rfl⟩ | ⟨-, rfl⟩ := exec_cases h
  · exact ⟨rfl, rfl, rfl, rfl, rfl, rfl, rfl⟩
  · cases i <;> exact ⟨rfl, rfl, rfl, rfl, rfl, rfl, rfl⟩

theorem effect_c0 (i : Instr) (s : State) (h : i ∉ [.ciphSetkey, .ciphClear]) : (effect i s).1.c0 = s.c0 := by
  cases i <;> simp [effect] at h ⊢

theorem effect_e (i : Instr) (s : State) (h : i ∉ [.eaxSetkey, .eaxClear]) : (effect i s).1.e = s.e := by
  cases i <;> simp [effect] at h ⊢

theorem effect_x1_x2 (i : Instr) (s : State) (h : i ∉ [.xtsSetkey, .xtsClear]) :
    (effect i s).1.x1 = s.x1 ∧ (effect i s).1.x2 = s.x2 := by
  cases i <;> simp [effect] at h ⊢

theorem effect_omac (i : Instr) (s : State)
    (h : i ∉ [.ciphSetkey, .ciphClear, .omacInitfirst, .omacUpdate, .omacFinalize, .omacClear])
    (ht : ∀ d, i ≠ .omacInitnext d) : (effect i s).1.omac = s.omac := by
  cases i <;> simp [effect] at h ht ⊢

theorem effect_eax (i : Instr) (s : State)
    (h : i ∉ [.eaxSetkey, .eaxSetiv, .eaxAddauth, .eaxEncrypt, .eaxDecrypt, .eaxComputetag, .eaxChecktag, .eaxClear]) :
    (effect i s).1.eax = s.eax := by
  cases i <;> simp [effect] at h ⊢

theorem effect_xts (i : Instr) (s : State) (h : i ∉ [.xtsSetsectorsize, .xtsSetkey, .xtsSettweak, .xtsClear]) :
    (effect i s).1.xts = s.xts := by
  cases i <;> simp [effect] at h ⊢

theorem effect_sectSize (i : Instr) (s : State) (h : i ≠ .xtsSetsectorsize) :
    (effect i s).1.xts.sectSize = s.xts.sectSize := by
  cases i <;> simp [effect] at h ⊢

theorem effect_T (i : Instr) (s : State) (h : i ∉ [.xtsSettweak, .xtsClear]) : (effect i s).1.xts.T = s.xts.T := by
  cases i <;> simp [effect] at h ⊢

/-- Settles O17: a failure changes no slot and no unit, and each effect is framed unit by unit. -/
theorem unitOwnership : Obligations.UnitOwnership := by
  intro i s t h
  obtain ⟨c, -, rfl⟩ | ⟨-, rfl⟩ := exec_cases h
  · simp
  · refine ⟨effect_c0 i s, effect_e i s, effect_x1_x2 i s, effect_omac i s, ?_, effect_eax i s, effect_xts i s,
      effect_sectSize i s, effect_T i s⟩
    rintro rfl
    rfl

/-! ## STATUS and RESULT -/

theorem errorCode_le (c : CmdError) : (errorCode c).toNat ≤ 7 := by
  cases c <;> decide

/-- The result of a success is 0 but for the two queries and the verdict of EAX.CHECKTAG (10_state.md R26). -/
theorem effect_result (i : Instr) (s : State) (h1 : i ≠ .ciphKeysize) (h2 : i ≠ .ciphBlocksize)
    (h3 : i ≠ .eaxChecktag) : (effect i s).2 = 0 := by
  cases i <;> simp [effect] at h1 h2 h3 ⊢

theorem effect_eaxChecktag_result (s : State) : (effect .eaxChecktag s).2 = 0 ∨ (effect .eaxChecktag s).2 = 1 := by
  simp only [effect]
  split
  · exact .inr rfl
  · exact .inl rfl

theorem firstError_ciphKeysize (s : State) : firstError .ciphKeysize s = none := rfl

theorem firstError_ciphBlocksize (s : State) : firstError .ciphBlocksize s = none := rfl

/-- Settles O13: an illegal word and a failed command leave RESULT 0, and a success has the result of its effect. -/
theorem everyCommandWritesStatusAndResult : Obligations.EveryCommandWritesStatusAndResult := by
  intro w s
  cases hd : decode w with
  | error e =>
    exact ⟨s.failed (opcField w) .illegal, by simp [runCommand, hd], statusOpc_statusWord _ _,
      (congrArg BitVec.toNat (statusCode_statusWord _ _)).trans_le (errorCode_le _), statusWord_high _ _, by simp⟩
  | ok i =>
    obtain ⟨t, ht⟩ := exec_next i s
    refine ⟨t, by simp [runCommand, hd, ht], ?_⟩
    obtain ⟨c, hc, rfl⟩ | ⟨-, rfl⟩ := exec_cases ht
    · refine ⟨(statusOpc_statusWord _ _).trans (opcode_of_decode hd),
        (congrArg BitVec.toNat (statusCode_statusWord _ _)).trans_le (errorCode_le c), statusWord_high _ _, ?_⟩
      rw [Except.ok.injEq, Except.ok.injEq, Except.ok.injEq]
      refine ⟨fun _ => rfl, ?_, ?_, fun _ => .inl rfl, fun _ _ _ => rfl⟩
      · rintro rfl
        simp [firstError_ciphKeysize] at hc
      · rintro rfl
        simp [firstError_ciphBlocksize] at hc
    · refine ⟨(statusOpc_statusWord _ _).trans (opcode_of_decode hd),
        (congrArg BitVec.toNat (statusCode_statusWord _ _)).trans_le (by decide), statusWord_high _ _,
        fun hne => absurd (statusCode_statusWord _ _) hne, ?_⟩
      simp only [Except.ok.injEq, ne_eq, State.finish_result]
      refine ⟨?_, ?_, ?_, effect_result i s⟩
      · rintro rfl
        rfl
      · rintro rfl
        rfl
      · rintro rfl
        exact effect_eaxChecktag_result s

/-! ## Independence of keys, internal values and memory -/

section
variable {s s' : State}

theorem outOfPhase_congr (h : SamePublic s s') (i : Instr) : outOfPhase i s = outOfPhase i s' := by
  obtain ⟨-, -, -, -, hk, ho, he, hx, -⟩ := h
  cases i <;> simp only [outOfPhase, hk, ho, he, hx]

theorem sourceRange_congr (h : SamePublic s s') (i : Instr) : sourceRange i s = sourceRange i s' := by
  obtain ⟨-, hsrc, -, hlen, -, -, -, -, hsect⟩ := h
  cases i <;> simp only [sourceRange, hsrc, hlen, hsect]

theorem destinationRange_congr (h : SamePublic s s') (i : Instr) : destinationRange i s = destinationRange i s' := by
  obtain ⟨-, -, hdst, hlen, -, -, -, -, hsect⟩ := h
  cases i <;> simp only [destinationRange, hdst, hlen, hsect]

/-- The causes of the errors are public. -/
theorem errorHolds_congr (h : SamePublic s s') (c : CmdError) (i : Instr) : errorHolds c i s = errorHolds c i s' := by
  have hp := outOfPhase_congr h i
  have hs := sourceRange_congr h i
  have hd := destinationRange_congr h i
  obtain ⟨hpar, hsrc, hdst, hlen, -⟩ := h
  cases c <;> simp only [errorHolds, hp, hs, hd, hpar, hsrc, hdst, hlen]

theorem firstError_congr (h : SamePublic s s') (i : Instr) : firstError i s = firstError i s' := by
  simp only [firstError, errorHolds_congr h]

/-- Whether the associated data is closed is told by the phase alone. -/
theorem endAad_phase_eq (enc : Block → Block) (x : Eax) :
    (endAad enc x).phase = if x.phase = .aad then .enc else x.phase := by
  unfold endAad
  split <;> rfl

/-- A success leaves two states that agree on what is public in agreement. -/
theorem samePublic_effect (h : SamePublic s s') (i : Instr) : SamePublic (effect i s).1 (effect i s').1 := by
  obtain ⟨hpar, hsrc, hdst, hlen, hk, ho, he, hx, hsect⟩ := h
  refine ⟨?_, ?_, ?_, ?_, ?_, ?_, ?_, ?_, ?_⟩
  · cases i <;> exact hpar
  · cases i <;> exact hsrc
  · cases i <;> exact hdst
  · cases i <;> exact hlen
  · cases i <;> simp [effect, hk]
  · cases i <;> simp [effect, ho]
  · cases i <;> simp [effect, he, ctrXor_keeps, endAad_phase_eq]
  · cases i <;> simp [effect, hx]
  · cases i <;> simp [effect, hsect, hlen]

theorem effect_result_congr {i : Instr} (h : i ≠ .eaxChecktag) : (effect i s).2 = (effect i s').2 := by
  cases i
  case eaxChecktag => contradiction
  all_goals rfl

/-- The window but RESULT is a function of STATUS and what is public (10_state.md R21). -/
theorem readWindow_congr (h : SamePublic s s') (hst : s.status = s'.status) {o : Byte} (ho : o ≠ 0x14#8) :
    readWindow s o = readWindow s' o := by
  obtain ⟨hpar, hsrc, hdst, hlen, hk, hom, he, hx, hsect⟩ := h
  unfold readWindow
  split <;> simp_all [stateWord]

end

/-- Settles O19: both runs meet the same first error, or both succeed with effects that agree on what is public. -/
theorem windowIndependentOfSecrets : Obligations.WindowIndependentOfSecrets := by
  intro i s s' t t' hp h h'
  have hf := firstError_congr hp i
  obtain ⟨c, hc, rfl⟩ | ⟨hn, rfl⟩ := exec_cases h
  · obtain ⟨c', hc', rfl⟩ | ⟨hn', -⟩ := exec_cases h'
    · obtain rfl : c = c' := by simpa [hc, hc'] using hf
      have hpf : SamePublic (s.failed i.opcode c) (s'.failed i.opcode c) := hp
      exact ⟨hpf, fun o ho => readWindow_congr hpf rfl ho, fun _ => rfl⟩
    · simp [hc, hn'] at hf
  · obtain ⟨c', hc', -⟩ | ⟨-, rfl⟩ := exec_cases h'
    · simp [hn, hc'] at hf
    · have hpe : SamePublic ((effect i s).1.finish i.opcode codeOk (effect i s).2)
          ((effect i s').1.finish i.opcode codeOk (effect i s').2) := samePublic_effect hp i
      exact ⟨hpe, fun o ho => readWindow_congr hpe rfl ho, fun hi => effect_result_congr hi⟩

end Sys2Proof.Proofs
end

section
/-! One step of the machine and the register window (10_state.md R21 to R31, 60_exceptions.md R288, R289). -/

namespace Sys2Proof.Proofs

open Sys2Proof.Machine Sys2Proof.Safety Sys2Proof.Laws

/-! ## What a step can do -/

/-- The states one access of the host can lead to. -/
inductive AccessResult (s : State) : State → Prop
  /-- A word written to CMD that decodes. -/
  | command (i : Instr) (t : State) (h : exec i s = .next t) : AccessResult s t
  /-- A word written to CMD that is no command. -/
  | illegal (opc : Byte) : AccessResult s (s.failed opc .illegal)
  /-- A write of another register. -/
  | argument (o : Byte) (v : Word) : AccessResult s (writeArgument s o v)
  /-- A read of a register or of a byte of memory. -/
  | reading (r : Reading) : AccessResult s (s.record r)
  /-- A write of a byte of memory. -/
  | store (a : Word) (v : Byte) : AccessResult s (s.setMem (writeByte s.mem a.toNat v))
  /-- The platform's reset. -/
  | reset : AccessResult s (platformReset s)

theorem accessResult_of_runCommand {w : Word} {s t : State} (h : runCommand w s = .next t) : AccessResult s t := by
  unfold runCommand at h
  split at h
  · cases h
    exact .illegal _
  · next i _ => exact .command i t h

theorem accessResult_of_hostAccess {op : HostOp} {s t : State} (h : hostAccess op s = .next t) : AccessResult s t := by
  cases op with
  | writeReg o width v =>
    simp only [hostAccess, hostWrite] at h
    split at h
    · split at h
      · exact accessResult_of_runCommand h
      · cases h
        exact .argument o v
    · cases h
  | readReg o width =>
    simp only [hostAccess] at h
    split at h <;> cases h
    exact .reading _
  | storeByte a v =>
    simp only [hostAccess] at h
    split at h <;> cases h
    exact .store a v
  | loadByte a =>
    simp only [hostAccess] at h
    split at h <;> cases h
    exact .reading _
  | platformReset =>
    cases h
    exact .reset

/-- A step that answers a next state leaves the state as it is, when the host is idle, or takes one access off the
host's program and carries it out. -/
theorem step_cases {s t : State} (h : step s = .next t) :
    t = s ∨ ∃ rest, AccessResult (s.advance rest) t := by
  unfold step at h
  split at h
  · cases h
    exact .inl rfl
  · next rest _ => exact .inr ⟨rest, accessResult_of_hostAccess h⟩

/-- What every access keeps, every step keeps. -/
theorem step_keeps {P : State → Prop} (hadvance : ∀ s rest, P s → P (s.advance rest))
    (haccess : ∀ s t, P s → AccessResult s t → P t) {s t : State} (hs : P s) (h : step s = .next t) : P t := by
  obtain rfl | ⟨rest, hr⟩ := step_cases h
  · exact hs
  · exact haccess _ _ (hadvance s rest hs) hr

/-- What every step of a machine keeps, every run of it keeps. -/
theorem run_keeps (M : Host.Core) {P : M.State → Prop} (hstep : ∀ s t, P s → M.step s = .next t → P t) (n : Nat)
    {s t : M.State} (hs : P s) (h : M.run n s = .next t) : P t := by
  induction n generalizing s with
  | zero =>
    cases h
    exact hs
  | succ n ih =>
    unfold Host.Core.run at h
    split at h
    · next u hu => exact ih (hstep s u hs hu) h
    · cases h
    · cases h

theorem step_cons {s : State} {op : HostOp} {rest : List HostOp} (h : s.pending = op :: rest) :
    step s = hostAccess op (s.advance rest) := by
  simp only [step, h]

theorem hostAccess_writeCmd (w : Word) (s : State) : hostAccess (.writeReg 0x00 .word w) s = runCommand w s := rfl

/-- An aligned 32-bit read of the window. -/
theorem hostAccess_readReg {o : Byte} (ho : o.toNat % 4 = 0) (s : State) :
    hostAccess (.readReg o .word) s = .next (s.record (.reg o (readWindow s o))) := by
  simp [hostAccess, regAccessIsWord, ho]

/-- An aligned 32-bit write of the window, outside CMD. -/
theorem hostAccess_writeReg {o : Byte} (ho : o.toNat % 4 = 0) (hcmd : o ≠ 0x00#8) (v : Word) (s : State) :
    hostAccess (.writeReg o .word v) s = .next (writeArgument s o v) := by
  simp [hostAccess, regAccessIsWord, hostWrite, ho, hcmd]

/-! ## Writes of CMD, and the accesses that stop -/

/-- Settles O4: the access taken off is a 32-bit write of CMD. -/
theorem stepRunsDecodedCommand : Obligations.StepRunsDecodedCommand := by
  intro s w rest h
  have hrun : step s = runCommand w (s.advance rest) := (step_cons h).trans (hostAccess_writeCmd w _)
  exact ⟨hrun, fun i hi => hrun.trans (by simp only [runCommand, hi]; rfl)⟩

theorem runCommand_next (w : Word) (s : State) : ∃ t, runCommand w s = .next t := by
  unfold runCommand
  split
  · exact ⟨_, rfl⟩
  · exact exec_next _ s

theorem hostAccess_refused {op : HostOp} {s : State} (h : op.wellFormed s.params = false) :
    hostAccess op s = .refused .hostSubwordAccess := by
  cases op <;> simp_all [HostOp.wellFormed, hostAccess]

theorem hostAccess_next {op : HostOp} {s : State} (h : op.wellFormed s.params = true) :
    ∃ t, hostAccess op s = .next t := by
  cases op with
  | writeReg o width v =>
    have hw : regAccessIsWord o width = true := h
    simp only [hostAccess, hw, if_true, hostWrite]
    split
    · exact runCommand_next v s
    · exact ⟨_, rfl⟩
  | readReg o width => exact ⟨_, if_pos h⟩
  | storeByte a v => exact ⟨_, if_neg (by simpa [HostOp.wellFormed] using h)⟩
  | loadByte a => exact ⟨_, if_neg (by simpa [HostOp.wellFormed] using h)⟩
  | platformReset => exact ⟨_, rfl⟩

/-- Settles O5: an access stops exactly when it is not well formed, and taking it off changes no parameter. -/
theorem onlySubwordAccessesStop : Obligations.OnlySubwordAccessesStop := by
  intro s
  refine ⟨fun h => by simp only [step, h], fun op rest h => ?_⟩
  rw [step_cons h]
  exact ⟨fun hw => hostAccess_refused (s := s.advance rest) hw, fun hw => hostAccess_next (s := s.advance rest) hw⟩

/-! ## Reserved and read-only offsets -/

theorem readWindow_reserved (s : State) {o : Byte} (ho : 0x24 ≤ o.toNat) : readWindow s o = 0 := by
  unfold readWindow
  split
  case h_9 => rfl
  all_goals simp at ho

theorem writeArgument_ignored (s : State) {o : Byte} (h : o ∉ [0x08#8, 0x0C#8, 0x10#8]) (v : Word) :
    writeArgument s o v = s := by
  unfold writeArgument
  split
  case h_4 => rfl
  all_goals simp at h

/-- Settles O7: no reserved or read-only offset is that of an argument register. -/
theorem reservedAndReadOnlyOffsets : Obligations.ReservedAndReadOnlyOffsets := by
  intro s rest o
  refine ⟨fun ha ho h => ?_, fun v ha ho h => ?_⟩
  · rw [step_cons h, hostAccess_readReg ha, readWindow_reserved _ ho]
    rfl
  · have hne : o ∉ [0x00#8, 0x08#8, 0x0C#8, 0x10#8] := by
      rcases ho with ho | ho
      · fin_cases ho <;> decide
      · intro hm
        fin_cases hm <;> simp at ho
    rw [List.mem_cons, not_or] at hne
    rw [step_cons h, hostAccess_writeReg ha hne.1, writeArgument_ignored _ hne.2]
    rfl

/-! ## STATE -/

theorem omacPhaseCode_lt (p : OmacPhase) : omacPhaseCode p < 3 := by cases p <;> decide

theorem eaxPhaseCode_lt (p : EaxPhase) : eaxPhaseCode p < 5 := by cases p <;> decide

theorem xtsPhaseCode_lt (p : XtsPhase) : xtsPhaseCode p < 3 := by cases p <;> decide

/-- STATE as a number: its four fields, each in its place (10_state.md R27). -/
theorem toNat_stateWord (s : State) :
    (stateWord s).toNat = s.c0.keyed.toNat + 2 * omacPhaseCode s.omac.phase + 16 * eaxPhaseCode s.eax.phase
      + 256 * xtsPhaseCode s.xts.phase := by
  have hk := Bool.toNat_lt s.c0.keyed
  have ho := omacPhaseCode_lt s.omac.phase
  have he := eaxPhaseCode_lt s.eax.phase
  have hx := xtsPhaseCode_lt s.xts.phase
  simp only [stateWord, BitVec.toNat_ofNat, Nat.shiftLeft_eq]
  omega

/-- Settles O8: the four fields of STATE do not overlap, and its offset is not an argument register's. -/
theorem stateRegisterFields : Obligations.StateRegisterFields := by
  refine ⟨by decide, fun s => ⟨fun v rest h => ?_, ?_⟩⟩
  · rw [step_cons h, hostAccess_writeReg (by decide) (by decide), writeArgument_ignored _ (by decide)]
    rfl
  · have hk := Bool.toNat_lt s.c0.keyed
    have ho := omacPhaseCode_lt s.omac.phase
    have he := eaxPhaseCode_lt s.eax.phase
    have hx := xtsPhaseCode_lt s.xts.phase
    have hv : (readWindow s 0x18).toNat = _ := toNat_stateWord s
    have hb : s.c0.keyed.toNat = if s.c0.keyed then 1 else 0 := by cases s.c0.keyed <;> rfl
    intro v
    refine ⟨?_, Eq.trans ?_ (rfl : omacPhaseCode s.omac.phase = _), ?_,
      Eq.trans ?_ (rfl : eaxPhaseCode s.eax.phase = _), ?_, Eq.trans ?_ (rfl : xtsPhaseCode s.xts.phase = _), ?_⟩
    all_goals omega

/-! ## CONFIG -/

theorem variantCode_lt (x : Variant) : variantCode x < 3 := by cases x <;> decide

/-- CONFIG as a number: its five fields, each in its place (10_state.md R29). -/
theorem toNat_configWord (p : Params) :
    (configWord p).toNat = variantCode p.varC0 + 4 * variantCode p.varE + 16 * variantCode p.varX1
      + 64 * variantCode p.varX2 + 256 * p.xtsSingleKey.toNat := by
  have h0 := variantCode_lt p.varC0
  have h1 := variantCode_lt p.varE
  have h2 := variantCode_lt p.varX1
  have h3 := variantCode_lt p.varX2
  have hs := Bool.toNat_lt p.xtsSingleKey
  simp only [configWord, BitVec.toNat_ofNat, Nat.shiftLeft_eq]
  omega

theorem accessResult_params {s t : State} (h : AccessResult s t) : t.params = s.params := by
  cases h with
  | command i t h => exact (argumentRegistersUntouched i s t h).1
  | illegal opc => rfl
  | argument o v =>
    unfold writeArgument
    split <;> rfl
  | reading r => rfl
  | store a v => rfl
  | reset => rfl

theorem step_params {s t : State} (h : step s = .next t) : t.params = s.params :=
  step_keeps (P := fun u => u.params = s.params) (fun _ _ hp => hp)
    (fun _ _ hp ha => (accessResult_params ha).trans hp) rfl h

/-- Settles O9: the five fields of CONFIG do not overlap, and it is a function of the parameters. -/
theorem configRegisterConstant : Obligations.ConfigRegisterConstant := by
  refine ⟨fun s => ?_, fun s t h => ⟨step_params h, congrArg configWord (step_params h)⟩⟩
  have h0 := variantCode_lt s.params.varC0
  have h1 := variantCode_lt s.params.varE
  have h2 := variantCode_lt s.params.varX1
  have h3 := variantCode_lt s.params.varX2
  have hs := Bool.toNat_lt s.params.xtsSingleKey
  have hv : (readWindow s 0x20).toNat = _ := toNat_configWord s.params
  have hb : s.params.xtsSingleKey.toNat = if s.params.xtsSingleKey then 1 else 0 := by
    cases s.params.xtsSingleKey <;> rfl
  refine ⟨Eq.trans ?_ (rfl : variantCode s.params.varC0 = _), Eq.trans ?_ (rfl : variantCode s.params.varE = _),
    Eq.trans ?_ (rfl : variantCode s.params.varX1 = _), Eq.trans ?_ (rfl : variantCode s.params.varX2 = _), ?_, ?_⟩
  all_goals omega

end Sys2Proof.Proofs
end

section
/-! The invariant of the machine, part by part: what each command's success keeps, and from it what every step and
every run keeps (10_state.md R32, R39, R42, R45; 20_memory.md R60). -/

namespace Sys2Proof.Proofs

open Sys2Proof.Machine Sys2Proof.Safety Sys2Proof.Laws

/-! ## What a success has checked -/

/-- A success is in phase (60_exceptions.md R271). -/
theorem outOfPhase_eq_false {i : Instr} {s : State} (h : firstError i s = none) : outOfPhase i s = false :=
  errorHolds_eq_false h .seq

/-- The destination of a success is a valid range (20_memory.md R65). -/
theorem rangeValid_of_destinationRange {i : Instr} {s : State} (h : firstError i s = none) {d : Word} {n : Nat}
    (hd : destinationRange i s = some (d, n)) : rangeValid s.params d n = true := by
  have hb := errorHolds_eq_false h .bus
  simp only [errorHolds, hd, Option.any_some, Bool.or_eq_false_iff, Bool.not_eq_false'] at hb
  exact hb.2

/-- The two commands whose LEN is the length of one cipher key (40_cipher.md R122). -/
theorem keyLenOk_of_setkey {i : Instr} {s : State} (h : firstError i s = none) (hi : i ∈ [.ciphSetkey, .eaxSetkey]) :
    keyLenOk s.lenNat = true := by
  have hk := errorHolds_eq_false h .keylen
  fin_cases hi <;> simpa [errorHolds, State.lenNat, keyLenOk_iff, or_iff_not_imp_left] using hk

theorem xtsKeyLenOk_of_xtsSetkey {s : State} (h : firstError .xtsSetkey s = none) :
    xtsKeyLenOk s.params.xtsSingleKey s.lenNat = true := by
  have hk := errorHolds_eq_false h .keylen
  rw [← Bool.not_eq_false, xtsKeyLenOk_eq_false_iff]
  cases hs : s.params.xtsSingleKey <;> simpa [errorHolds, State.lenNat, hs, or_iff_not_imp_left] using hk

theorem lenNat_le_of_eaxComputetag {s : State} (h : firstError .eaxComputetag s = none) : s.lenNat ≤ 16 := by
  simpa [errorHolds, State.lenNat] using errorHolds_eq_false h .len

theorem le_lenNat_of_xtsSetsectorsize {s : State} (h : firstError .xtsSetsectorsize s = none) : 16 ≤ s.lenNat := by
  simpa [errorHolds, State.lenNat] using errorHolds_eq_false h .len

/-! ## Slots (R32) -/

theorem slotWf_zero : SlotWf Slot.zero := ⟨fun h => by simp [Slot.zero] at h, fun _ => rfl⟩

theorem slotWf_ofKey {key : List Byte} (h : keyLenOk key.length = true) : SlotWf (Slot.ofKey key) :=
  ⟨fun _ => roundsOf_mem h, fun hk => by simp at hk⟩

theorem keyLenOk_length_xtsPayloadKey {single : Bool} {key : List Byte} (h : xtsKeyLenOk single key.length = true) :
    keyLenOk (xtsPayloadKey single key).length = true := by
  cases single
  · simp only [xtsKeyLenOk, Bool.false_eq_true, if_false, Bool.and_eq_true] at h
    simpa [xtsPayloadKey, Nat.min_eq_left (Nat.div_le_self _ 2)] using h.2
  · exact h

theorem keyLenOk_length_xtsTweakKey {single : Bool} {key : List Byte} (h : xtsKeyLenOk single key.length = true) :
    keyLenOk (xtsTweakKey single key).length = true := by
  cases single
  · simp only [xtsKeyLenOk, Bool.false_eq_true, if_false, Bool.and_eq_true, beq_iff_eq] at h
    have hl : (xtsTweakKey false key).length = key.length / 2 := by
      simp only [xtsTweakKey, Bool.false_eq_true, if_false, List.length_drop]
      omega
    exact hl ▸ h.2
  · exact h

theorem effect_slotWf {i : Instr} {s : State} (h : firstError i s = none)
    (hs : SlotWf s.c0 ∧ SlotWf s.e ∧ SlotWf s.x1 ∧ SlotWf s.x2) :
    SlotWf (effect i s).1.c0 ∧ SlotWf (effect i s).1.e ∧ SlotWf (effect i s).1.x1 ∧ SlotWf (effect i s).1.x2 := by
  obtain ⟨hc0, he, hx1, hx2⟩ := hs
  cases i
  case ciphSetkey => exact ⟨slotWf_ofKey (by simpa [State.srcBytes] using keyLenOk_of_setkey h (by simp)), he, hx1, hx2⟩
  case ciphClear => exact ⟨slotWf_zero, he, hx1, hx2⟩
  case eaxSetkey => exact ⟨hc0, slotWf_ofKey (by simpa [State.srcBytes] using keyLenOk_of_setkey h (by simp)), hx1, hx2⟩
  case eaxClear => exact ⟨hc0, slotWf_zero, hx1, hx2⟩
  case xtsSetkey =>
    have hk : xtsKeyLenOk s.params.xtsSingleKey (s.srcBytes s.lenNat).length = true := by
      simpa [State.srcBytes] using xtsKeyLenOk_of_xtsSetkey h
    exact ⟨hc0, he, slotWf_ofKey (keyLenOk_length_xtsPayloadKey hk), slotWf_ofKey (keyLenOk_length_xtsTweakKey hk)⟩
  case xtsClear => exact ⟨hc0, he, slotWf_zero, slotWf_zero⟩
  all_goals exact ⟨hc0, he, hx1, hx2⟩

/-! ## The OMAC unit (R42(a), R42(e)) -/

theorem effect_omacSubkeyValid {i : Instr} {s : State} (h : firstError i s = none) (hs : OmacSubkeyValid s) :
    OmacSubkeyValid (effect i s).1 := by
  have hp := outOfPhase_eq_false h
  cases i
  case ciphSetkey | ciphClear | omacClear => exact fun hne => absurd rfl hne
  case omacInitfirst => exact fun _ => ⟨by simpa [outOfPhase, effect] using hp, rfl⟩
  case omacInitnext t => exact fun _ => hs (by simpa [outOfPhase] using hp)
  case omacUpdate => exact fun hne => ⟨(hs hne).1, (omacUpdate_B _ _ _).trans (hs hne).2⟩
  case omacFinalize =>
    have hr : s.omac.phase = .ready := by simpa [outOfPhase] using hp
    exact fun _ => hs (by simp [hr])
  all_goals exact hs

theorem effect_omac_posn_le (i : Instr) {s : State} (hs : s.omac.ctx.posn ≤ 16) :
    (effect i s).1.omac.ctx.posn ≤ 16 := by
  cases i
  case ciphClear | omacClear | omacInitfirst => exact Nat.zero_le 16
  case omacInitnext t => exact Nat.le_refl 16
  case omacUpdate => exact omacUpdate_posn_le _ _ hs
  all_goals exact hs

/-! ## The EAX unit (R42(b), R42(c), R42(e)) -/

@[simp] theorem endAad_B (enc : Block → Block) (x : Eax) : (endAad enc x).o.B = x.o.B := by
  unfold endAad
  split <;> rfl

@[simp] theorem endAad_encPosn (enc : Block → Block) (x : Eax) : (endAad enc x).encPosn = x.encPosn := by
  unfold endAad
  split <;> rfl

theorem endAad_posn_le (enc : Block → Block) {x : Eax} (h : x.o.posn ≤ 16) : (endAad enc x).o.posn ≤ 16 := by
  unfold endAad
  split
  · exact Nat.le_refl 16
  · exact h

@[simp] theorem closeTag_o (enc : Block → Block) (x : Eax) :
    (closeTag enc x).o = omacFinalize enc (endAad enc x).o := rfl

@[simp] theorem closeTag_encPosn (enc : Block → Block) (x : Eax) : (closeTag enc x).encPosn = x.encPosn :=
  endAad_encPosn enc x

@[simp] theorem startMessage_B (enc : Block → Block) (x : Eax) (iv : List Byte) :
    (startMessage enc x iv).o.B = dblBE (enc 0) := by
  simp [startMessage, omacInitFirst]

/-- The commands that are legal only in a message (42_eax.md R190). -/
theorem inMessage_of_inPhase {i : Instr} {s : State} (h : firstError i s = none)
    (hi : i ∈ [.eaxEncrypt, .eaxDecrypt, .eaxComputetag, .eaxChecktag]) : s.eax.phase = .aad ∨ s.eax.phase = .enc := by
  have hp := outOfPhase_eq_false h
  fin_cases hi <;> simpa [outOfPhase, or_iff_not_imp_left] using hp

theorem effect_eaxKeyed {i : Instr} {s : State} (h : firstError i s = none) (hs : EaxKeyed s) :
    EaxKeyed (effect i s).1 := by
  cases i
  case eaxSetkey => exact fun _ => rfl
  case eaxSetiv => exact fun _ => hs (by simpa [outOfPhase] using outOfPhase_eq_false h)
  case eaxEncrypt | eaxDecrypt | eaxComputetag | eaxChecktag =>
    exact fun _ => hs (by rcases inMessage_of_inPhase h (by simp) with hm | hm <;> simp [hm])
  case eaxClear => exact fun hne => absurd rfl hne
  all_goals exact hs

theorem effect_eaxSubkeyValid {i : Instr} {s : State} (h : firstError i s = none) (hs : EaxSubkeyValid s) :
    EaxSubkeyValid (effect i s).1 := by
  cases i
  case eaxSetkey | eaxClear => exact fun hp => by simp [effect, Eax.zero] at hp
  case eaxSetiv => exact fun _ => startMessage_B _ _ _
  case eaxAddauth => exact fun hp => (omacUpdate_B _ _ _).trans (hs hp)
  case eaxEncrypt | eaxDecrypt | eaxComputetag | eaxChecktag =>
    have hB := hs ((inMessage_of_inPhase h (by simp)).imp_right .inl)
    exact fun _ => by simpa [effect, ctrXor_keeps] using hB
  all_goals exact hs

theorem effect_eax_posn_le (i : Instr) {s : State} (hs : s.eax.o.posn ≤ 16) : (effect i s).1.eax.o.posn ≤ 16 := by
  have hend := endAad_posn_le (blockEncrypt s.e) hs
  cases i
  case eaxSetiv => exact Nat.le_refl 16
  case eaxAddauth => exact omacUpdate_posn_le _ _ hs
  case eaxEncrypt => exact omacUpdate_posn_le _ _ (by rwa [(ctrXor_keeps _ _ _).2.2])
  case eaxDecrypt => simpa [effect, ctrXor_keeps] using omacUpdate_posn_le _ _ hend
  case eaxComputetag | eaxChecktag => exact hend
  case eaxClear => exact Nat.zero_le 16
  all_goals exact hs

theorem effect_encPosn_le (i : Instr) {s : State} (hs : s.eax.encPosn ≤ 16) : (effect i s).1.eax.encPosn ≤ 16 := by
  have hend : (endAad (blockEncrypt s.e) s.eax).encPosn ≤ 16 := by rwa [endAad_encPosn]
  cases i
  case eaxSetiv => exact Nat.le_refl 16
  case eaxEncrypt | eaxDecrypt => exact ctrXor_encPosn_le _ _ hend
  case eaxComputetag | eaxChecktag => exact hend
  case eaxClear => exact Nat.zero_le 16
  all_goals exact hs

/-! ## The XTS unit (R42(d), R39) -/

theorem effect_xtsKeyed {i : Instr} {s : State} (h : firstError i s = none) (hs : XtsKeyed s) :
    XtsKeyed (effect i s).1 := by
  cases i
  case xtsSetkey => exact fun _ => ⟨rfl, rfl⟩
  case xtsSettweak => exact fun _ => hs (by simpa [outOfPhase] using outOfPhase_eq_false h)
  case xtsClear => exact fun hne => absurd rfl hne
  all_goals exact hs

theorem effect_sectSize_le {i : Instr} {s : State} (h : firstError i s = none) (hs : 16 ≤ s.xts.sectSize.toNat) :
    16 ≤ (effect i s).1.xts.sectSize.toNat := by
  cases i
  case xtsSetsectorsize => exact le_lenNat_of_xtsSetsectorsize h
  all_goals exact hs

/-! ## Memory (20_memory.md R60, R70) -/

/-- An encrypted sector is as long as the sector (43_xts.md R234). -/
theorem length_xtsEncrypt (enc : Block → Block) (T : Block) {P : List Byte} (h : 16 ≤ P.length) :
    (xtsEncrypt enc T P).length = P.length := by
  simp only [xtsEncrypt]
  split
  · simp
    omega
  · simp
    omega

/-- A decrypted sector is as long as the sector (43_xts.md R235). -/
theorem length_xtsDecrypt (dec : Block → Block) (T : Block) {C : List Byte} (h : 16 ≤ C.length) :
    (xtsDecrypt dec T C).length = C.length := by
  simp only [xtsDecrypt]
  split
  · simp
    omega
  · simp
    omega

/-- A success writes its destination range and nothing else of memory (20_memory.md R70, 30_encoding.md R93). -/
theorem effect_mem {i : Instr} {s : State} (h : firstError i s = none) (hs : 16 ≤ s.xts.sectSize.toNat) :
    (destinationRange i s = none ∧ (effect i s).1.mem = s.mem) ∨
      ∃ v, destinationRange i s = some (s.dst, v.length) ∧ (effect i s).1.mem = memWrite s.mem s.dst.toNat v := by
  have hlen : ∀ n, (s.srcBytes n).length = n := fun n => length_memRead _ _ n
  have hsect : 16 ≤ (s.srcBytes s.sectorNat).length := by rwa [hlen]
  cases i
  case ciphEncrypt | ciphDecrypt | omacFinalize => exact .inr ⟨_, by rw [length_blockBytes]; rfl, rfl⟩
  case eaxEncrypt | eaxDecrypt => exact .inr ⟨_, by rw [length_ctrXor, hlen]; rfl, rfl⟩
  case eaxComputetag =>
    have hl := lenNat_le_of_eaxComputetag h
    exact .inr ⟨_, by rw [List.length_take, length_blockBytes, Nat.min_eq_left hl]; rfl, rfl⟩
  case xtsEncsector => exact .inr ⟨_, by rw [length_xtsEncrypt _ _ hsect, hlen]; rfl, rfl⟩
  case xtsDecsector => exact .inr ⟨_, by rw [length_xtsDecrypt _ _ hsect, hlen]; rfl, rfl⟩
  all_goals exact .inl ⟨rfl, rfl⟩

theorem effect_memWf {i : Instr} {s : State} (h : firstError i s = none) (hs : 16 ≤ s.xts.sectSize.toNat)
    (hm : MemWf s) : MemWf (effect i s).1 := by
  obtain ⟨hwf, hin⟩ := hm
  unfold MemWf
  obtain ⟨-, he⟩ | ⟨v, hd, he⟩ := effect_mem h hs
  · rw [he]
    exact ⟨hwf, hin⟩
  · rw [he]
    exact ⟨wf_memWrite hwf _ _, inSpace_memWrite hin (rangeValid_le (rangeValid_of_destinationRange h hd))⟩

/-! ## STATUS and RESULT (R23, R26) -/

theorem effect_result_mem (i : Instr) (s : State) :
    (effect i s).2 = 0 ∨ (effect i s).2 = 1 ∨ (effect i s).2 = 16 ∨ (effect i s).2 = 32 := by
  cases i
  case ciphKeysize => exact .inr (.inr (.inr rfl))
  case ciphBlocksize => exact .inr (.inr (.inl rfl))
  case eaxChecktag => exact (effect_eaxChecktag_result s).imp_right .inl
  all_goals exact .inl rfl

theorem statusWf_finish (s : State) (opc : Byte) {code : Byte} {r : Word} (hc : code.toNat ≤ 7)
    (hr : r = 0 ∨ r = 1 ∨ r = 16 ∨ r = 32) : StatusWf (s.finish opc code r) :=
  ⟨by simpa using hc, statusWord_high _ _, hr⟩

/-! ## The whole invariant -/

theorem inv_failed {s : State} (h : Inv s) (opc : Byte) (c : CmdError) : Inv (s.failed opc c) := by
  obtain ⟨hslot, hreach, hsect, -, hmem⟩ := h
  exact ⟨hslot, hreach, hsect, statusWf_finish s opc (errorCode_le c) (.inl rfl), hmem⟩

theorem inv_exec {i : Instr} {s t : State} (h : Inv s) (ht : exec i s = .next t) : Inv t := by
  obtain ⟨c, -, rfl⟩ | ⟨hn, rfl⟩ := exec_cases ht
  · exact inv_failed h _ c
  · obtain ⟨hslot, ⟨homac, hek, hes, hxts, hpo, hpe, hpx⟩, hsect, -, hmem⟩ := h
    exact ⟨effect_slotWf hn hslot,
      ⟨effect_omacSubkeyValid hn homac, effect_eaxKeyed hn hek, effect_eaxSubkeyValid hn hes, effect_xtsKeyed hn hxts,
        effect_omac_posn_le i hpo, effect_eax_posn_le i hpe, effect_encPosn_le i hpx⟩,
      effect_sectSize_le hn hsect,
      statusWf_finish _ _ (by decide) (effect_result_mem i s),
      effect_memWf hn hsect hmem⟩

theorem inv_writeArgument {s : State} (h : Inv s) (o : Byte) (v : Word) : Inv (writeArgument s o v) := by
  unfold writeArgument
  split <;> exact h

theorem inv_storeByte {s : State} (h : Inv s) (a : Word) (v : Byte) : Inv (s.setMem (writeByte s.mem a.toNat v)) := by
  obtain ⟨hslot, hreach, hsect, hst, hwf, hin⟩ := h
  exact ⟨hslot, hreach, hsect, hst, wf_writeByte hwf _ _, inSpace_writeByte hin a.isLt _⟩

/-- The reset state of any parameters, memory and program has the invariant (R45). -/
theorem inv_platformReset {s : State} (h : MemWf s) : Inv (platformReset s) := by
  refine ⟨⟨slotWf_zero, slotWf_zero, slotWf_zero, slotWf_zero⟩, ?_,
    (by decide : 16 ≤ State.reset.xts.sectSize.toNat), (by decide : StatusWf State.reset), h⟩
  exact ⟨fun hne => absurd rfl hne, fun hne => absurd rfl hne,
    fun hp => by simp [platformReset, State.reset, Eax.zero] at hp, fun hne => absurd rfl hne, Nat.zero_le 16,
    Nat.zero_le 16, Nat.zero_le 16⟩

theorem inv_accessResult {s t : State} (h : Inv s) (ht : AccessResult s t) : Inv t := by
  cases ht with
  | command i t ht => exact inv_exec h ht
  | illegal opc => exact inv_failed h opc .illegal
  | argument o v => exact inv_writeArgument h o v
  | reading r => exact h
  | store a v => exact inv_storeByte h a v
  | reset =>
    obtain ⟨-, -, -, -, hmem⟩ := h
    exact inv_platformReset hmem

/-- Settles O20: no part of the invariant looks at the host's program, and every access keeps it. -/
theorem invariantKeptByStep : Obligations.InvariantKeptByStep := by
  intro s t hs h
  exact step_keeps (fun _ _ hu => hu) (fun _ _ => inv_accessResult) hs h

/-- Settles O21: State.reset is the platform's reset of itself. -/
theorem invariantAtReset : Obligations.InvariantAtReset :=
  ⟨inv_platformReset (s := State.reset) reset_mem_wf, fun p m prog hwf hin =>
    inv_platformReset (s := { State.reset with params := p, mem := m, pending := prog }) ⟨hwf, hin⟩⟩

/-- Settles O22: R42 is part of the invariant, which holds at reset and which every step keeps. -/
theorem reachableStatesKeepSubkeysAndPositions : Obligations.ReachableStatesKeepSubkeysAndPositions := by
  intro p m prog n t hwf hin h
  have hreset := invariantAtReset.2 p m prog hwf hin
  obtain ⟨-, hreach, -⟩ : Inv t := run_keeps Sys2Proof.core invariantKeptByStep n hreset h
  exact hreach

end Sys2Proof.Proofs
end

section
/-! Which ranges are valid, and the bytes of memory a command can write (20_memory.md R61, R65, R70). -/

namespace Sys2Proof.Proofs

open Sys2Proof.Machine Sys2Proof.Safety Sys2Proof.Laws

/-! ## Valid ranges -/

/-- A mapped window is hit exactly by the non-empty ranges that reach one of its 256 addresses (20_memory.md R61). -/
theorem hitsMappedWindow_iff (p : Params) (a n : Nat) :
    hitsMappedWindow p a n = true ↔
      p.windowMapped = true ∧ 0 < n ∧ a < p.base.toNat + 256 ∧ p.base.toNat < a + n := by
  simp [hitsMappedWindow, overlapsWindow]

/-- A range is valid exactly when it is empty, or ends by 2^32 and is admitted (20_memory.md R65). -/
theorem rangeValid_iff (p : Params) (a : Word) (n : Nat) :
    rangeValid p a n = true ↔ n = 0 ∨ a.toNat + n ≤ 2 ^ 32 ∧ admits p a.toNat n = true := by
  simp [rangeValid]

/-- A non-empty range that Admit refuses is not valid. -/
theorem rangeValid_eq_false {p : Params} {a : Word} {n : Nat} (hn : 0 < n) (h : admits p a.toNat n ≠ true) :
    rangeValid p a n = false := by
  rw [Bool.eq_false_iff, Ne, rangeValid_iff]
  rintro (h0 | ⟨-, hadm⟩)
  · exact absurd h0 hn.ne'
  · exact h hadm

/-- CIPH.SETKEY with a key of a legal length in a source range that is not valid (40_cipher.md R132): ERR_BUS is its
first error. -/
theorem firstError_ciphSetkey_bus {s : State} (hk : s.len.toNat ∈ [16, 24, 32])
    (hr : rangeValid s.params s.src s.len.toNat = false) : firstError .ciphSetkey s = some .bus := by
  have hk' : s.len.toNat = 16 ∨ s.len.toNat = 24 ∨ s.len.toNat = 32 := by simpa using hk
  rw [firstError_eq_ite]
  simp [errorHolds, outOfPhase, sourceRange, destinationRange, hr, hk']

/-- Settles O12: a range is valid exactly when it is empty, or ends by 2^32 and is admitted, and Admit is the
conjunction of the three conditions on regions, refused ranges and the window. -/
theorem rangesOutsideMemoryRejected : Obligations.RangesOutsideMemoryRejected := by
  intro p a n
  refine ⟨rfl, fun hwrap => ?_, fun hend hregion hrefused hwindow => ?_, fun hn hregion => ?_, fun hn hrefused => ?_,
    fun hmap hn hlo hhi => ?_⟩
  · exact Bool.eq_false_iff.mpr fun hv => absurd (rangeValid_le hv) (by omega)
  · have hhit : hitsMappedWindow p a.toNat n = false := by
      rw [Bool.eq_false_iff, Ne, hitsMappedWindow_iff]
      rintro ⟨hmap, -, hlo, hhi⟩
      have := hwindow hmap
      omega
    exact (rangeValid_iff p a n).mpr (.inr ⟨hend, (admits_iff ..).mpr ⟨hregion, hrefused, hhit⟩⟩)
  · refine rangeValid_eq_false hn fun hadm => ?_
    obtain ⟨⟨r, hr, hlo, hhi⟩, -⟩ := (admits_iff ..).mp hadm
    have := hregion r hr
    omega
  · refine rangeValid_eq_false hn fun hadm => ?_
    obtain ⟨-, hnot, -⟩ := (admits_iff ..).mp hadm
    exact hnot hrefused
  · have hinvalid : rangeValid p a n = false := by
      refine rangeValid_eq_false hn fun hadm => ?_
      obtain ⟨-, -, hhit⟩ := (admits_iff ..).mp hadm
      exact absurd ((hitsMappedWindow_iff ..).mpr ⟨hmap, hn, hlo, hhi⟩) (by simp [hhit])
    refine ⟨hinvalid, ?_⟩
    rintro s rfl rfl rfl hlen
    rw [exec_eq_complete, firstError_ciphSetkey_bus (by simp [hlen]) hinvalid]
    rfl

/-! ## Bytes written -/

/-- What a command can do to memory: keep it, or end with OK having written its whole destination range
(20_memory.md R70, 30_encoding.md R93). -/
theorem exec_mem {i : Instr} {s t : State} (hs : 16 ≤ s.xts.sectSize.toNat) (h : exec i s = .next t) :
    t.mem = s.mem ∨
      statusCode t.status = codeOk ∧
        ∃ v, destinationRange i s = some (s.dst, v.length) ∧ t.mem = memWrite s.mem s.dst.toNat v := by
  obtain ⟨c, -, rfl⟩ | ⟨hn, rfl⟩ := exec_cases h
  · exact .inl rfl
  · exact (effect_mem hn hs).imp (fun ⟨_, hm⟩ => hm) fun hw => ⟨statusCode_statusWord _ _, hw⟩

/-- Settles O18: where memory changes at all, it is the destination range that was written. -/
theorem onlyDestinationBytesChange : Obligations.OnlyDestinationBytesChange := by
  intro i s t hs h
  obtain hm | ⟨hok, v, hd, hm⟩ := exec_mem hs h
  · exact ⟨fun _ => hm, fun _ _ => by rw [hm], fun _ _ _ _ _ => by rw [hm]⟩
  · refine ⟨fun herr => absurd hok herr, fun hnone => ?_, fun d n hdn a ha => ?_⟩
    · simp [hd] at hnone
    · obtain ⟨rfl, rfl⟩ : s.dst = d ∧ v.length = n := by simpa [hd] using hdn
      rw [hm]
      exact readByte_memWrite_outside ha

end Sys2Proof.Proofs
end

section
/-! Decoding and encoding (30_encoding.md R90 to R99): a word is its three fields, and it decodes to a command exactly
when they are RSVD = 0 and the command's immediate and opcode; what follows for illegal words and program lines. -/

namespace Sys2Proof.Proofs

open Sys2Proof.Machine Sys2Proof.Safety Sys2Proof.Laws

/-! ## The three fields of a word -/

theorem toNat_opcField (w : Word) : (opcField w).toNat = w.toNat % 256 := by
  simp [opcField]

theorem toNat_immField (w : Word) : (immField w).toNat = w.toNat / 256 % 256 := by
  simp [immField, Nat.shiftRight_eq_div_pow]

theorem toNat_rsvdField (w : Word) : (rsvdField w).toNat = w.toNat / 65536 := by
  have hw := w.isLt
  simp only [rsvdField, BitVec.extractLsb'_toNat, Nat.shiftRight_eq_div_pow]
  omega

/-- OPC, IMM8 and RSVD are all of a word (30_encoding.md R90). -/
theorem eq_of_fields {w v : Word} (hrsvd : rsvdField w = rsvdField v) (himm : immField w = immField v)
    (hopc : opcField w = opcField v) : w = v := by
  apply BitVec.eq_of_toNat_eq
  have h1 := congrArg BitVec.toNat hrsvd
  have h2 := congrArg BitVec.toNat himm
  have h3 := congrArg BitVec.toNat hopc
  rw [toNat_rsvdField, toNat_rsvdField] at h1
  rw [toNat_immField, toNat_immField] at h2
  rw [toNat_opcField, toNat_opcField] at h3
  omega

/-! ## Decoding -/

/-- The command of an opcode is the one that has it; OMAC.INITNEXT takes the immediate (30_encoding.md R92, R96). -/
theorem instrOfOpcode_eq_some_iff {opc imm : Byte} {i : Instr} :
    instrOfOpcode opc imm = some i ↔ i.opcode = opc ∧ (opc = 0x21#8 → i.immediate = imm) := by
  constructor
  · intro h
    unfold instrOfOpcode at h
    split at h <;> cases h <;> exact ⟨rfl, by simp [Instr.immediate]⟩
  · rintro ⟨rfl, himm⟩
    cases i
    case omacInitnext t => exact congrArg (fun u => some (Instr.omacInitnext u)) (himm rfl).symm
    all_goals rfl

/-- Only OMAC.INITNEXT has an immediate (30_encoding.md R90). -/
theorem immediate_eq_zero {i : Instr} (h : i.opcode ≠ 0x21#8) : i.immediate = 0 := by
  cases i
  case omacInitnext t => exact absurd rfl h
  all_goals rfl

/-- A word decodes to a command exactly when its fields are those of the command's word (30_encoding.md R94). -/
theorem decode_eq_ok_iff {w : Word} {i : Instr} :
    decode w = .ok i ↔ rsvdField w = 0 ∧ immField w = i.immediate ∧ opcField w = i.opcode := by
  constructor
  · intro h
    unfold decode at h
    split at h
    · cases h
    · next hrsvd =>
      split at h
      · cases h
      · next j hj =>
        split at h
        · cases h
        · next himm =>
          cases h
          obtain ⟨hopc, htag⟩ := instrOfOpcode_eq_some_iff.mp hj
          refine ⟨not_not.mp hrsvd, ?_, hopc.symm⟩
          by_cases h21 : opcField w = 0x21#8
          · exact (htag h21).symm
          · rw [immediate_eq_zero (hopc ▸ h21)]
            exact not_not.mp fun hne => himm ⟨hne, h21⟩
  · rintro ⟨hrsvd, himm, hopc⟩
    have hi : instrOfOpcode (opcField w) (immField w) = some i :=
      instrOfOpcode_eq_some_iff.mpr ⟨hopc.symm, fun _ => himm.symm⟩
    have hlegal : ¬(immField w ≠ 0 ∧ opcField w ≠ 0x21#8) := fun ⟨hne, h21⟩ =>
      hne (himm.trans (immediate_eq_zero (hopc ▸ h21)))
    simp only [decode, hrsvd, hi, if_neg hlegal, ne_eq, not_true_eq_false, if_false]

theorem decode_encode (i : Instr) : decode (encode i) = .ok i :=
  decode_eq_ok_iff.mpr (EncodeShape.shape i)

/-- Settles O2: a word that decodes to a command has the three fields of the command's word, which are all of it. -/
theorem commandWordsRoundTrip : Obligations.CommandWordsRoundTrip := by
  refine ⟨fun i _ => decode_encode i, fun w i h => ?_⟩
  obtain ⟨hrsvd, himm, hopc⟩ := decode_eq_ok_iff.mp h
  obtain ⟨hrsvd', himm', hopc'⟩ := EncodeShape.shape i
  exact eq_of_fields (hrsvd.trans hrsvd'.symm) (himm.trans himm'.symm) (hopc.trans hopc'.symm)

/-- Settles O1: the word listed is the one `encode` gives, and decoding inverts encoding. -/
theorem specWordsDecode : Obligations.SpecWordsDecode := by
  have decode_of_encode : ∀ {w : Word} {i : Instr}, encode i = w → encode i = w ∧ decode w = .ok i :=
    fun h => ⟨h, h ▸ decode_encode _⟩
  refine ⟨fun p hp => decode_of_encode ?_, fun t => decode_of_encode (BitVec.or_comm _ _)⟩
  revert p
  decide

/-! ## Illegal words -/

/-- The ranges of opcodes that no command has, as the spec lists them (30_encoding.md R95). -/
abbrev UnassignedOpcode (n : Nat) : Prop :=
  n ≤ 0x0F ∨ (0x16 ≤ n ∧ n ≤ 0x1F) ∨ (0x25 ≤ n ∧ n ≤ 0x2F) ∨ (0x38 ≤ n ∧ n ≤ 0x3F) ∨ 0x46 ≤ n

/-- The opcodes outside the unassigned ranges are those of the commands (30_encoding.md R92, R95). -/
theorem exists_opcode_eq_iff (opc : Byte) : (∃ i : Instr, i.opcode = opc) ↔ ¬ UnassignedOpcode opc.toNat := by
  constructor
  · rintro ⟨i, rfl⟩
    cases i <;> simp [Instr.opcode]
  · have hmap : ∀ b : Byte, ¬ UnassignedOpcode b.toNat → (instrOfOpcode b 0).isSome = true := by decide
    intro h
    obtain ⟨i, hi⟩ := Option.isSome_iff_exists.mp (hmap opc h)
    exact ⟨i, (instrOfOpcode_eq_some_iff.mp hi).1⟩

/-- The legal words, field by field (30_encoding.md R94, R95). -/
theorem exists_decode_eq_ok_iff (w : Word) :
    (∃ i, decode w = .ok i) ↔
      rsvdField w = 0 ∧ ¬ UnassignedOpcode (opcField w).toNat ∧ (immField w ≠ 0 → opcField w = 0x21#8) := by
  simp only [decode_eq_ok_iff]
  constructor
  · rintro ⟨i, hrsvd, himm, hopc⟩
    refine ⟨hrsvd, (exists_opcode_eq_iff _).mp ⟨i, hopc.symm⟩, fun hne => ?_⟩
    by_contra h21
    exact hne (himm.trans (immediate_eq_zero (hopc ▸ h21)))
  · rintro ⟨hrsvd, hassigned, himm⟩
    by_cases h21 : opcField w = 0x21#8
    · exact ⟨.omacInitnext (immField w), hrsvd, rfl, h21⟩
    · obtain ⟨i, hi⟩ := (exists_opcode_eq_iff _).mpr hassigned
      have hzero : immField w = 0 := not_not.mp (mt himm h21)
      exact ⟨i, hrsvd, hzero.trans (immediate_eq_zero (hi ▸ h21)).symm, hi.symm⟩

theorem runCommand_of_decode_ok {w : Word} {i : Instr} (h : decode w = .ok i) (s : State) :
    runCommand w s = exec i s := by
  simp only [runCommand, h]

theorem runCommand_of_illegal {w : Word} (h : ¬ ∃ i, decode w = .ok i) (s : State) :
    runCommand w s = .next (s.failed (opcField w) .illegal) := by
  cases hd : decode w with
  | error e => simp only [runCommand, hd]
  | ok i => exact absurd ⟨i, hd⟩ h

/-- STATUS as a number: OPC and CODE, each in its place (10_state.md R23). -/
theorem statusWord_eq_ofNat (opc code : Byte) :
    statusWord opc code = BitVec.ofNat 32 (opc.toNat * 256 + code.toNat) := by
  have hopc := opc.isLt
  have hor := Nat.shiftLeft_add_eq_or_of_lt code.isLt opc.toNat
  apply BitVec.eq_of_toNat_eq
  simp only [statusWord, BitVec.toNat_or, BitVec.toNat_shiftLeft, BitVec.toNat_setWidth, BitVec.toNat_ofNat]
  rw [Nat.mod_eq_of_lt (by omega : opc.toNat < 2 ^ 32), Nat.mod_eq_of_lt (by omega : code.toNat < 2 ^ 32),
    Nat.mod_eq_of_lt (by rw [Nat.shiftLeft_eq]; omega), ← hor, Nat.shiftLeft_eq, Nat.mod_eq_of_lt (by omega)]

/-- A word that decodes never ends with ERR_ILLEGAL: it is no cause of any command's failure. -/
theorem statusCode_ne_illegal_of_exec {i : Instr} {s t : State} (h : exec i s = .next t) :
    statusCode t.status ≠ errorCode .illegal := by
  obtain ⟨c, hc, rfl⟩ | ⟨-, rfl⟩ := exec_cases h
  · have hholds : errorHolds c i s = true := by simpa using List.find?_some hc
    rw [State.failed_status, statusCode_statusWord]
    cases c
    case illegal => exact absurd hholds Bool.false_ne_true
    all_goals decide
  · rw [State.finish_status, statusCode_statusWord]
    decide

/-- Settles O3: the words listed are those that no command decodes from. -/
theorem illegalWordsEndWithErrIllegal : Obligations.IllegalWordsEndWithErrIllegal := by
  intro w s opc imm illegal
  have hlegal : (∃ i, decode w = .ok i) ↔ ¬ illegal := by
    simp only [exists_decode_eq_ok_iff, ← BitVec.toNat_inj, ne_eq, toNat_rsvdField, toNat_immField, toNat_opcField,
      BitVec.ofNat_eq_ofNat, BitVec.toNat_ofNat]
    omega
  refine ⟨fun h => ?_, fun h => ?_⟩
  · have hstatus : statusWord (opcField w) (errorCode .illegal) = BitVec.ofNat 32 (opc * 256 + 1) := by
      rw [statusWord_eq_ofNat, toNat_opcField]
      rfl
    rw [runCommand_of_illegal (mt hlegal.mp (not_not.mpr h)), ← hstatus]
    rfl
  · obtain ⟨i, hi⟩ := hlegal.mpr h
    obtain ⟨t, ht⟩ := exec_next i s
    exact ⟨i, t, hi, runCommand_of_decode_ok hi s, ht, statusCode_ne_illegal_of_exec ht⟩

/-! ## Program lines -/

theorem run_succ_of_step {M : Host.Core} {s t : M.State} (h : M.step s = .next t) (k : Nat) :
    M.run (k + 1) s = M.run k t := by
  simp only [Host.Core.run, h]

/-- The state after an argument of a program line, if it is given, is written at its register's offset; `rest` is what
is left of the host's program (30_encoding.md R98). -/
def afterArgument (o : Byte) (x : Option Word) (rest : List HostOp) (s : State) : State :=
  x.elim { s with pending := rest } fun v => writeArgument (s.advance rest) o v

theorem afterArgument_pending (o : Byte) (x : Option Word) (rest : List HostOp) (s : State) :
    (afterArgument o x rest s).pending = rest := by
  cases x with
  | none => rfl
  | some v =>
    simp only [afterArgument, Option.elim_some, writeArgument]
    split <;> rfl

theorem afterArgument_src (x : Option Word) (rest : List HostOp) (s : State) :
    afterArgument 0x08 x rest s =
      { s with src := x.getD s.src, pending := rest, pos := s.pos + x.toList.length } := by
  cases x <;> rfl

theorem afterArgument_dst (x : Option Word) (rest : List HostOp) (s : State) :
    afterArgument 0x0C x rest s =
      { s with dst := x.getD s.dst, pending := rest, pos := s.pos + x.toList.length } := by
  cases x <;> rfl

theorem afterArgument_len (x : Option Word) (rest : List HostOp) (s : State) :
    afterArgument 0x10 x rest s =
      { s with len := x.getD s.len, pending := rest, pos := s.pos + x.toList.length } := by
  cases x <;> rfl

/-- A run passes an argument of a program line in as many steps as it has writes. -/
theorem run_argument {o : Byte} (ho : o.toNat % 4 = 0) (hcmd : o ≠ 0x00#8) {x : Option Word} {rest : List HostOp}
    {s : State} (h : s.pending = (x.map (HostOp.writeReg o .word)).toList ++ rest) (k : Nat) :
    core.run (x.toList.length + k) s = core.run k (afterArgument o x rest s) := by
  cases x with
  | none =>
    obtain rfl : s.pending = rest := h
    simp [afterArgument]
  | some v =>
    rw [Option.toList_some, List.length_singleton, Nat.add_comm]
    exact run_succ_of_step ((step_cons h).trans (hostAccess_writeReg ho hcmd v _)) k

/-- The last access of a program line runs its command. -/
theorem run_lastAccess {s : State} {i : Instr} {rest : List HostOp} (h : s.pending = cmd i :: rest) :
    core.run 1 s = exec i (s.advance rest) := by
  have hstep : step s = exec i (s.advance rest) :=
    (step_cons h).trans ((hostAccess_writeCmd _ _).trans (runCommand_of_decode_ok (decode_encode i) _))
  obtain ⟨t, ht⟩ := exec_next i (s.advance rest)
  exact (run_succ_of_step (M := core) (hstep.trans ht) 0).trans ht.symm

theorem length_programLine (i : Instr) (a d n : Option Word) :
    (programLine i a d n).length = a.toList.length + (d.toList.length + (n.toList.length + 1)) := by
  simp only [programLine, List.length_append, Option.length_toList, Option.isSome_map, List.length_singleton,
    Nat.add_assoc]

/-- Settles O11: each argument given is one write of its own register, and the last access is the command. -/
theorem programLineRuns : Obligations.ProgramLineRuns := by
  intro s i a d n rest h
  simp only [programLine, List.append_assoc, List.singleton_append] at h
  rw [length_programLine]
  refine (run_argument (o := 0x08) (by decide) (by decide) h _).trans ?_
  refine (run_argument (o := 0x0C) (by decide) (by decide) (afterArgument_pending ..) _).trans ?_
  refine (run_argument (o := 0x10) (by decide) (by decide) (afterArgument_pending ..) _).trans ?_
  rw [run_lastAccess (afterArgument_pending ..), afterArgument_len, afterArgument_dst, afterArgument_src]
  exact congrArg (exec i) (by simp only [State.advance, Nat.add_assoc])

end Sys2Proof.Proofs
end

section
/-! The cipher (40_cipher.md R122 to R130): its byte packing, its two directions, and the key schedule with the SMALL and
TINY ways to the same subkeys. The generator of R127 is followed through `keyAfter`, its words after some steps. -/

namespace Sys2Proof.Proofs

open Sys2Proof.Machine Sys2Proof.Safety Sys2Proof.Laws

/-! ## Byte packing -/

/-- The halves of a block as the integers of its first and its last 8 bytes (R124). -/
theorem toNat_unpackBlock_blockOfBytes {bs : List Byte} (h : bs.length = 16) :
    (unpackBlock (blockOfBytes bs)).1.toNat = be (bs.take 8) ∧
      (unpackBlock (blockOfBytes bs)).2.toNat = be (bs.drop 8) := by
  have hx : be (bs.take 8) < 256 ^ 8 := by simpa [h] using be_lt (bs.take 8)
  have hy : be (bs.drop 8) < 256 ^ 8 := by simpa [h] using be_lt (bs.drop 8)
  have hbs : be bs = be (bs.take 8) * 256 ^ 8 + be (bs.drop 8) := by
    simpa [h] using be_append (bs.take 8) (bs.drop 8)
  simp only [unpackBlock, blockOfBytes, BitVec.extractLsb'_toNat, BitVec.toNat_ofNat, Nat.shiftRight_eq_div_pow]
  omega

/-- A packed block is the block of its halves' bytes (R124). -/
theorem packBlock_eq_blockOfBytes (x y : Word64) : packBlock (x, y) = blockOfBytes (toBE 8 x.toNat ++ toBE 8 y.toNat) := by
  have hx := x.isLt
  have hy := y.isLt
  obtain ⟨h1, h2⟩ := toNat_unpackBlock_blockOfBytes (bs := toBE 8 x.toNat ++ toBE 8 y.toNat) (by simp)
  rw [List.take_left' (by simp), be_toBE, Nat.mod_eq_of_lt (by omega)] at h1
  rw [List.drop_left' (by simp), be_toBE, Nat.mod_eq_of_lt (by omega)] at h2
  rw [← packBlock_unpackBlock (blockOfBytes _)]
  exact congrArg packBlock (Prod.ext (BitVec.eq_of_toNat_eq h1.symm) (BitVec.eq_of_toNat_eq h2.symm))

/-- Settles O26: sixteen bytes are 2^64 times the first half plus the second, and packing inverts unpacking. -/
theorem blockHalvesBigEndian : Obligations.BlockHalvesBigEndian :=
  ⟨fun _ h => toNat_unpackBlock_blockOfBytes h, fun x y => by
    rw [packBlock_eq_blockOfBytes, blockBytes_blockOfBytes (by simp)]⟩

/-! ## The two directions -/

/-- Steps that undo others one by one, taken in reverse order, undo all of them. -/
theorem foldl_reverse_foldl {α β : Type} {f g : β → α → β} (h : ∀ p k, g (f p k) k = p) (ks : List α) (p : β) :
    ks.reverse.foldl g (ks.foldl f p) = p := by
  induction ks generalizing p with
  | nil => rfl
  | cons k ks ih => simp [ih, h]

@[simp] theorem decryptWith_encryptWith (ks : List Word64) (b : Block) : decryptWith ks (encryptWith ks b) = b := by
  rw [decryptWith, encryptWith, unpackBlock_packBlock, foldl_reverse_foldl decRound_encRound, packBlock_unpackBlock]

@[simp] theorem encryptWith_decryptWith (ks : List Word64) (b : Block) : encryptWith ks (decryptWith ks b) = b := by
  have h := foldl_reverse_foldl encRound_decRound ks.reverse (unpackBlock b)
  rw [List.reverse_reverse] at h
  rw [encryptWith, decryptWith, unpackBlock_packBlock, h, packBlock_unpackBlock]

@[simp] theorem blockDecrypt_blockEncrypt (s : Slot) (b : Block) : blockDecrypt s (blockEncrypt s b) = b :=
  decryptWith_encryptWith s.subkeys b

/-- Settles O27, by induction on the subkeys: the last round is undone first. -/
theorem decryptInvertsEncrypt : Obligations.DecryptInvertsEncrypt := fun ks b =>
  ⟨decryptWith_encryptWith ks b, encryptWith_decryptWith ks b⟩

/-! ## The generator -/

/-- One more step of the generator, at the end of those taken. -/
theorem keyAfter_succ (n i : Nat) (r : Word64 × List Word64) :
    keyAfter (n + 1) i r = keyStep (i + n) (keyAfter n i r) := by
  induction n generalizing i r with
  | zero => rfl
  | succ n ih =>
    have h := ih (i + 1) (keyStep i r)
    rwa [Nat.add_right_comm] at h

/-- The subkeys are the first words of the generator's states. -/
theorem expandKey_eq_map (n i : Nat) (r : Word64 × List Word64) :
    expandKey n i r = (List.range n).map fun j => (keyAfter j i r).1 := by
  induction n generalizing i r with
  | zero => rfl
  | succ n ih =>
    rw [expandKey, ih, List.range_succ_eq_map, List.map_cons, List.map_map]
    rfl

/-- One more subkey is the first word of the state after the steps for those before it. -/
theorem expandKey_succ (n i : Nat) (r : Word64 × List Word64) :
    expandKey (n + 1) i r = expandKey n i r ++ [(keyAfter n i r).1] := by
  simp [expandKey_eq_map, List.range_succ]

theorem length_keyAfter (n i : Nat) {r : Word64 × List Word64} (h : r.2 ≠ []) :
    (keyAfter n i r).2.length = r.2.length := by
  induction n with
  | zero => rfl
  | succ n ih =>
    rw [keyAfter_succ, length_keyStep, ih]
    rw [← List.length_pos_iff, ih]
    exact List.length_pos_iff.mpr h

theorem keyAfter_snd_ne_nil (n i : Nat) {r : Word64 × List Word64} (h : r.2 ≠ []) : (keyAfter n i r).2 ≠ [] := by
  rw [← List.length_pos_iff, length_keyAfter n i h]
  exact List.length_pos_iff.mpr h

/-- The subkey `k[n]` of the generator started with the words `r` (R127). -/
def subkeyAt (r : Word64 × List Word64) (n : Nat) : Word64 := (keyAfter n 0 r).1

/-- The oldest word `l[n]` of the generator's register (R127). -/
def oldestWord (r : Word64 × List Word64) (n : Nat) : Word64 := (keyAfter n 0 r).2.headD 0

/-- The register shifts by one word a step: its word `j` is the oldest one `j` steps later. -/
theorem getD_register (n j : Nat) {r : Word64 × List Word64} (hj : j < r.2.length) :
    (keyAfter n 0 r).2.getD j 0 = oldestWord r (n + j) := by
  have hne : r.2 ≠ [] := List.length_pos_iff.mp (by omega)
  induction j generalizing n with
  | zero => simp [oldestWord, List.getD_eq_getElem?_getD, List.headD_eq_head?_getD, List.head?_eq_getElem?]
  | succ j ih =>
    have hlen := length_keyAfter n 0 hne
    have hshift : (keyAfter n 0 r).2.getD (j + 1) 0 = (keyAfter (n + 1) 0 r).2.getD j 0 := by
      rw [keyAfter_succ, keyStep, List.getD_append _ _ _ _ (by rw [List.length_tail]; omega)]
      simp [List.getD_eq_getElem?_getD]
    rw [hshift, ih (n + 1) (by omega), Nat.add_right_comm, Nat.add_assoc]

/-- The recurrence of `l`: the word a step appends is the oldest one when the register has passed by (R127). -/
theorem oldestWord_add_length (n : Nat) {r : Word64 × List Word64} (h : r.2 ≠ []) :
    oldestWord r (n + r.2.length) =
      (subkeyAt r n + (oldestWord r n).rotateRight 8) ^^^ BitVec.ofNat 64 n := by
  have hpos : 0 < r.2.length := List.length_pos_iff.mpr h
  have hlen := length_keyAfter n 0 h
  have hlast := getD_register (n + 1) (r.2.length - 1) (r := r) (by omega)
  rw [show n + 1 + (r.2.length - 1) = n + r.2.length by omega] at hlast
  rw [← hlast, keyAfter_succ, keyStep, List.getD_append_right _ _ _ _ (by rw [List.length_tail]; omega),
    List.length_tail, hlen]
  simp [subkeyAt, oldestWord]

/-- The recurrence of `k` (R127). -/
theorem subkeyAt_succ (n : Nat) {r : Word64 × List Word64} (h : r.2 ≠ []) :
    subkeyAt r (n + 1) = (subkeyAt r n).rotateLeft 3 ^^^ oldestWord r (n + r.2.length) := by
  rw [oldestWord_add_length n h, subkeyAt, keyAfter_succ, Nat.zero_add]
  rfl

/-! ## The first words -/

theorem length_keyInit (key : List Byte) : (keyInit key).2.length = key.length / 8 - 1 := by simp [keyInit]

theorem keyInit_fst {key : List Byte} (h : 8 ≤ key.length) :
    (keyInit key).1 = BitVec.ofNat 64 (be ((key.drop (8 * (key.length / 8 - 1))).take 8)) := by
  have hm : key.length / 8 - 1 < key.length / 8 := by omega
  simp [keyInit, keyWords, List.getLastD_eq_getLast?, List.getLast?_eq_getElem?, hm]

theorem getD_keyInit_snd {key : List Byte} {i : Nat} (h : i < key.length / 8 - 1) :
    (keyInit key).2.getD i 0 = BitVec.ofNat 64 (be ((key.drop (8 * (key.length / 8 - 2 - i))).take 8)) := by
  have h1 : i < (keyInit key).2.length := by rwa [length_keyInit]
  have h2 : key.length / 8 - 1 - 1 - i = key.length / 8 - 2 - i := by omega
  rw [List.getD_eq_getElem _ _ h1]
  simp [keyInit, keyWords, h2]

/-- An accepted key has at least two words, so that the register is never empty. -/
theorem two_le_length_div_eight {key : List Byte} (h : key.length = 16 ∨ key.length = 24 ∨ key.length = 32) :
    2 ≤ key.length / 8 := by omega

theorem keyInit_snd_ne_nil {key : List Byte} (h : key.length = 16 ∨ key.length = 24 ∨ key.length = 32) :
    (keyInit key).2 ≠ [] := by
  have hm := two_le_length_div_eight h
  exact List.length_pos_iff.mp (by rw [length_keyInit]; omega)

/-- Settles O28: `k` is the generator's subkey and `l` the oldest word of its register, step by step. -/
theorem keyScheduleRecurrence : Obligations.KeyScheduleRecurrence := by
  intro key h m R w
  have hm : 2 ≤ m := two_le_length_div_eight h
  have hne := keyInit_snd_ne_nil h
  have hlen : (keyInit key).2.length = m - 1 := length_keyInit key
  refine ⟨subkeyAt (keyInit key), oldestWord (keyInit key), keyInit_fst (by omega), fun i hi => ?_, fun i _ => ?_,
    expandKey_eq_map R 0 (keyInit key)⟩
  · have hfirst := getD_register 0 i (r := keyInit key) (by omega)
    rw [Nat.zero_add] at hfirst
    exact hfirst.symm.trans (getD_keyInit_snd (by omega))
  · rw [show i + m - 1 = i + (keyInit key).2.length by omega]
    exact ⟨oldestWord_add_length i hne, subkeyAt_succ i hne⟩

/-! ## The SMALL and TINY ways -/

/-- SMALL's backward step undoes the generator's last one. -/
theorem keyStepBack_keyAfter (n : Nat) {r : Word64 × List Word64} (h : r.2 ≠ []) :
    keyStepBack n (keyAfter (n + 1) 0 r) = keyAfter n 0 r := by
  have hne := keyAfter_snd_ne_nil n 0 h
  rw [keyAfter_succ, Nat.zero_add]
  generalize keyAfter n 0 r = words at hne ⊢
  obtain ⟨k, _ | ⟨l, ls⟩⟩ := words
  · exact absurd rfl hne
  · exact keyStepBack_keyStep n k l ls

/-- Backward from the state after `n` steps come the first `n + 1` subkeys in reverse (R129). -/
theorem expandBack_keyAfter (n : Nat) {r : Word64 × List Word64} (h : r.2 ≠ []) :
    expandBack n (keyAfter n 0 r) = (expandKey (n + 1) 0 r).reverse := by
  induction n with
  | zero => rfl
  | succ n ih => rw [expandBack, keyStepBack_keyAfter n h, ih, expandKey_succ (n + 1), List.reverse_concat]

theorem expandBack_keyTail {key : List Byte} (h : key.length = 16 ∨ key.length = 24 ∨ key.length = 32) :
    expandBack (roundsOf key - 1) (keyTail key) = (keySchedule key).reverse := by
  have hrounds : roundsOf key - 1 + 1 = roundsOf key := Nat.sub_add_cancel (by unfold roundsOf; omega)
  rw [keyTail, expandBack_keyAfter _ (keyInit_snd_ne_nil h), hrounds, keySchedule]

/-- Settles O29: the subkeys are those of R127 in reverse order, which is the order of decryption. -/
theorem smallVariantRegeneratesBackward : Obligations.SmallVariantRegeneratesBackward := fun key h =>
  ⟨expandBack_keyTail h, fun b => by
    rw [blockDecrypt_ofKey ((keyLenOk_iff _).mpr h), decryptSmall, expandBack_keyTail h, decryptWith]⟩

/-- Rounds whose subkeys are made as they go are the rounds of the subkeys made before (R130). -/
theorem encryptFly_eq_foldl (n i : Nat) (r : Word64 × List Word64) (p : Word64 × Word64) :
    encryptFly n i r p = (expandKey n i r).foldl encRound p := by
  induction n generalizing i r p with
  | zero => rfl
  | succ n ih => exact ih (i + 1) (keyStep i r) (encRound p r.1)

/-- Settles O30, by induction on the rounds. -/
theorem tinyVariantSameFunction : Obligations.TinyVariantSameFunction := fun key h b => by
  rw [blockEncrypt_ofKey ((keyLenOk_iff _).mpr h), encryptTiny, encryptFly_eq_foldl, encryptWith, keySchedule]

end Sys2Proof.Proofs
end

section
/-! The CIPH commands (40_cipher.md R132 to R137) and the CLEAR commands of the other units: each command's first error
by its own checks, and the state a success leaves. -/

namespace Sys2Proof.Proofs

open Sys2Proof.Machine Sys2Proof.Safety Sys2Proof.Laws

/-! ## From the first error to the next state -/

theorem exec_of_firstError_some {i : Instr} {s : State} {c : CmdError} (h : firstError i s = some c) :
    exec i s = .next (s.failed i.opcode c) := by
  rw [exec_eq_complete, h]
  rfl

theorem exec_of_firstError_none {i : Instr} {s : State} (h : firstError i s = none) :
    exec i s = .next ((effect i s).1.finish i.opcode codeOk (effect i s).2) := by
  rw [exec_eq_complete, h]
  rfl

/-! ## Queries and CLEAR -/

/-- Settles O31: the two queries have no error and change no field. -/
theorem ciphQueryResults : Obligations.CiphQueryResults :=
  ⟨decode_encode .ciphKeysize, decode_encode .ciphBlocksize, fun s =>
    ⟨exec_of_firstError_none (firstError_ciphKeysize s), exec_of_firstError_none (firstError_ciphBlocksize s)⟩⟩

/-- Settles O35: a CLEAR command has no error, and what it writes are the zeros of the reset table. -/
theorem clearCommandsZeroise : Obligations.ClearCommandsZeroise := by
  have exec_clear : ∀ {i : Instr} (s : State), i ∈ [.ciphClear, .omacClear, .eaxClear, .xtsClear] →
      exec i s = .next ((effect i s).1.finish i.opcode codeOk (effect i s).2) := fun s hi =>
    exec_of_firstError_none (by fin_cases hi <;> rfl)
  exact ⟨decode_encode .ciphClear, decode_encode .omacClear, decode_encode .eaxClear, decode_encode .xtsClear, fun s =>
    ⟨exec_clear s (by decide), exec_clear s (by decide), exec_clear s (by decide), exec_clear s (by decide)⟩⟩

/-! ## CIPH.SETKEY -/

theorem firstError_ciphSetkey (s : State) :
    firstError .ciphSetkey s =
      if s.len.toNat ∉ [16, 24, 32] then some .keylen
      else if rangeValid s.params s.src s.len.toNat = false then some .bus
      else none := by
  simp [firstError_eq_ite, errorHolds, outOfPhase, sourceRange, destinationRange]

/-- Settles O32: the slot is `Slot.ofKey` of the key read. -/
theorem ciphSetkeyResult : Obligations.CiphSetkeyResult := by
  refine ⟨decode_encode .ciphSetkey, Slot.ofKey, fun key hkey => ⟨rfl, rfl, ?_⟩, fun s => ⟨fun hlen => ?_,
    fun hlen hsrc => ?_, fun hlen hsrc => ?_⟩⟩
  · exact subkeys_ofKey ((keyLenOk_iff _).mpr (by simpa using hkey))
  · exact exec_of_firstError_some ((firstError_ciphSetkey s).trans (if_pos hlen))
  · exact exec_of_firstError_some (firstError_ciphSetkey_bus hlen hsrc)
  · exact exec_of_firstError_none (by rw [firstError_ciphSetkey, if_neg (not_not.mpr hlen), if_neg (by simp [hsrc])])

/-! ## CIPH.ENCRYPT and CIPH.DECRYPT -/

/-- The first error of CIPH.ENCRYPT, and of CIPH.DECRYPT where its variant has one: C0 unkeyed, then a range that is not
valid (R135, R136, 60_exceptions.md R274). -/
def blockError (s : State) : Option CmdError :=
  if s.c0.keyed = false then some .seq
  else if rangeValid s.params s.src 16 = false ∨ rangeValid s.params s.dst 16 = false then some .bus
  else none

theorem firstError_ciphEncrypt (s : State) : firstError .ciphEncrypt s = blockError s := by
  simp [firstError_eq_ite, blockError, errorHolds, outOfPhase, sourceRange, destinationRange]

theorem firstError_ciphDecrypt (s : State) :
    firstError .ciphDecrypt s = if s.params.varC0 = .tiny then some .unsupported else blockError s := by
  simp [firstError_eq_ite, blockError, errorHolds, outOfPhase, sourceRange, destinationRange]

theorem blockError_of_unkeyed {s : State} (h : s.c0.keyed = false) : blockError s = some .seq := if_pos h

theorem blockError_of_invalid {s : State} (hkeyed : s.c0.keyed = true)
    (h : rangeValid s.params s.src 16 = false ∨ rangeValid s.params s.dst 16 = false) : blockError s = some .bus := by
  rw [blockError, if_neg (by simp [hkeyed]), if_pos h]

theorem blockError_of_valid {s : State} (hkeyed : s.c0.keyed = true) (hsrc : rangeValid s.params s.src 16 = true)
    (hdst : rangeValid s.params s.dst 16 = true) : blockError s = none := by
  rw [blockError, if_neg (by simp [hkeyed]), if_neg (by simp [hsrc, hdst])]

/-- A block stored at DST is read back there, and every byte outside its range is kept. -/
theorem storeDst_blockBytes (s : State) (b : Block) :
    memRead (s.storeDst (blockBytes b)).mem s.dst.toNat 16 = blockBytes b ∧
      SameOutside s.mem (s.storeDst (blockBytes b)).mem s.dst 16 := by
  rw [State.storeDst_mem]
  exact ⟨by simpa using memRead_memWrite s.mem s.dst.toNat (blockBytes b),
    fun _ ha => readByte_memWrite_outside (by simpa using ha)⟩

/-- Settles O33: memory is the old one with the encrypted block written at DST, which was read whole before. -/
theorem ciphEncryptResult : Obligations.CiphEncryptResult := by
  refine ⟨decode_encode .ciphEncrypt, fun s => ⟨fun hkeyed => ?_, fun hkeyed hbus => ?_, fun hkeyed hsrc hdst => ?_⟩⟩
  · exact exec_of_firstError_some ((firstError_ciphEncrypt s).trans (blockError_of_unkeyed hkeyed))
  · exact exec_of_firstError_some ((firstError_ciphEncrypt s).trans (blockError_of_invalid hkeyed hbus))
  · have hnone := (firstError_ciphEncrypt s).trans (blockError_of_valid hkeyed hsrc hdst)
    exact ⟨_, exec_of_firstError_none hnone, storeDst_blockBytes s (blockEncrypt s.c0 s.srcBlock)⟩

/-- Settles O34: as for CIPH.ENCRYPT, after the check of the variant; decryption inverts encryption. -/
theorem ciphDecryptResult : Obligations.CiphDecryptResult := by
  refine ⟨decode_encode .ciphDecrypt, fun s => ⟨fun htiny => ?_, fun hvar hkeyed => ?_, fun hvar hkeyed hbus => ?_,
    fun hvar hkeyed hsrc hdst => ?_⟩⟩
  · exact exec_of_firstError_some ((firstError_ciphDecrypt s).trans (if_pos htiny))
  all_goals have hfirst := (firstError_ciphDecrypt s).trans (if_neg hvar)
  · exact exec_of_firstError_some (hfirst.trans (blockError_of_unkeyed hkeyed))
  · exact exec_of_firstError_some (hfirst.trans (blockError_of_invalid hkeyed hbus))
  · have hnone := hfirst.trans (blockError_of_valid hkeyed hsrc hdst)
    obtain ⟨hread, hout⟩ := storeDst_blockBytes s (blockDecrypt s.c0 s.srcBlock)
    refine ⟨_, exec_of_firstError_none hnone, hread, hout, fun b hb => hread.trans ?_⟩
    rw [State.srcBlock, State.srcBytes, hb, blockDecrypt_blockEncrypt]

end Sys2Proof.Proofs
end

section
/-! The phases of the OMAC unit (41_omac.md R168), and the argument that serves the phases of every unit. -/

namespace Sys2Proof.Proofs

open Sys2Proof.Machine Sys2Proof.Safety Sys2Proof.Laws

/-- A command out of phase ends with ERR_SEQ, unless its variant does not support it (60_exceptions.md R274). -/
theorem firstError_of_outOfPhase {i : Instr} {s : State} (hsupported : errorHolds .unsupported i s = false)
    (h : outOfPhase i s = true) : firstError i s = some .seq := by
  have hseq : errorHolds .seq i s = true := h
  rw [firstError_eq_ite, if_neg (by simp [hsupported]), if_pos hseq]

theorem errorCode_ne_zero (c : CmdError) : errorCode c ≠ 0 := by
  cases c <;> decide

/-- A unit's phase after a command: the table's when the command ends with OK, and the old one after an error, given that
STATUS and RESULT are no part of it and that a success leaves the table's phase. -/
theorem exec_phase {P : Type} (phase : State → P) {next : Option P} {i : Instr} {s t : State} (ht : exec i s = .next t)
    (hfinish : ∀ (u : State) opc code r, phase (u.finish opc code r) = phase u)
    (heffect : firstError i s = none → ∀ p, next = some p → phase (effect i s).1 = p) (p : P) (hp : next = some p) :
    phase t = if statusCode t.status = 0 then p else phase s := by
  obtain ⟨c, -, rfl⟩ | ⟨hn, rfl⟩ := exec_cases ht
  · have herr : statusCode (s.failed i.opcode c).status ≠ 0 := by
      simpa only [State.failed_status, statusCode_statusWord] using errorCode_ne_zero c
    rw [if_neg herr]
    exact hfinish s _ _ _
  · have hok : statusCode ((effect i s).1.finish i.opcode codeOk (effect i s).2).status = 0 :=
      statusCode_statusWord _ _
    rw [if_pos hok, hfinish, heffect hn p hp]

/-- Where the OMAC table has no entry, the command is out of phase, and no other error comes before ERR_SEQ. -/
theorem firstError_of_omacNextPhase_eq_none {i : Instr} {s : State}
    (h : omacNextPhase i s.c0.keyed s.omac.phase = none) : firstError i s = some .seq := by
  obtain ⟨hsupported, hphase⟩ : errorHolds .unsupported i s = false ∧ outOfPhase i s = true := by
    cases i
    case omacInitfirst => exact ⟨rfl, by simpa [omacNextPhase, outOfPhase] using h⟩
    case omacInitnext | omacUpdate | omacFinalize =>
      refine ⟨rfl, ?_⟩
      cases hp : s.omac.phase <;> simp [omacNextPhase, outOfPhase, hp] at h ⊢
    all_goals cases h
  exact firstError_of_outOfPhase hsupported hphase

/-- A success leaves the OMAC unit in the phase of its table. -/
theorem effect_omac_phase {i : Instr} {s : State} (hn : firstError i s = none) {p : OmacPhase}
    (hp : omacNextPhase i s.c0.keyed s.omac.phase = some p) : (effect i s).1.omac.phase = p := by
  have hphase := outOfPhase_eq_false hn
  cases i
  case omacInitfirst =>
    have hkeyed : s.c0.keyed = true := by simpa [outOfPhase] using hphase
    simpa [omacNextPhase, effect, hkeyed] using hp
  case omacInitnext =>
    have hset : s.omac.phase ≠ .unset := by simpa [outOfPhase] using hphase
    cases hs : s.omac.phase
    case unset => exact absurd hs hset
    case ready | final => simpa [omacNextPhase, effect, hs] using hp
  case omacUpdate | omacFinalize =>
    have hready : s.omac.phase = .ready := by simpa [outOfPhase] using hphase
    simpa [omacNextPhase, effect, hready] using hp
  all_goals exact Option.some.inj hp

/-- Settles O23: no entry of the table means ERR_SEQ as the first error, and a success goes where the table says. -/
theorem omacPhaseTransitions : Obligations.OmacPhaseTransitions := by
  intro i s
  obtain ⟨t, ht⟩ := exec_next i s
  refine ⟨t, ht, fun hnone => ?_, fun p hp => ?_⟩
  · rw [exec_of_firstError_some (firstError_of_omacNextPhase_eq_none hnone)] at ht
    exact (Host.Outcome.next.inj ht).symm
  · exact exec_phase (fun u => u.omac.phase) ht (fun _ _ _ _ => rfl) (fun hn _ => effect_omac_phase hn) p hp

end Sys2Proof.Proofs
end

section
/-! The bytes of a block, and the two doublings byte by byte (00_scope.md R9, 41_omac.md R160, 43_xts.md R231). -/

namespace Sys2Proof.Proofs

open Sys2Proof.Machine Sys2Proof.Safety Sys2Proof.Laws

/-! ## The bytes of a block -/

/-- Bit `k` of byte `i`, as a bit of the block (00_scope.md R9). -/
theorem getElem_blockByte (b : Block) (i : Nat) {k : Nat} (hk : k < 8) :
    (blockByte b i)[k] = b[8 * (15 - i) + k]'(by omega) := by
  simp [blockByte, BitVec.getLsbD_eq_getElem (show 8 * (15 - i) + k < 128 by omega)]

theorem blockByte_blockOfBytes {bs : List Byte} (h : bs.length = 16) {i : Nat} (hi : i < 16) :
    blockByte (blockOfBytes bs) i = bs.getD i 0 := by
  rw [← getElem_blockBytes _ i hi, List.getD_eq_getElem _ _ (by omega)]
  simp only [blockBytes_blockOfBytes h]

/-- Blocks with the same bytes are the same. -/
theorem eq_of_blockByte_eq {a b : Block} (h : ∀ i < 16, blockByte a i = blockByte b i) : a = b := by
  rw [← blockOfBytes_blockBytes a, ← blockOfBytes_blockBytes b]
  refine congrArg blockOfBytes (List.ext_getElem (by simp) fun i hi _ => ?_)
  have hi : i < 16 := by simpa using hi
  rw [getElem_blockBytes a i hi, getElem_blockBytes b i hi, h i hi]

@[simp] theorem blockByte_xor (a b : Block) (i : Nat) : blockByte (a ^^^ b) i = blockByte a i ^^^ blockByte b i := by
  apply BitVec.eq_of_getElem_eq
  intro k hk
  simp [getElem_blockByte]

/-! ## Dbl_BE -/

/-- One bit towards byte 0: every byte but the last takes in the top bit of the next. -/
theorem blockByte_shiftLeft_one (b : Block) {i : Nat} (hi : i < 15) :
    blockByte (b <<< 1) i = (blockByte b i <<< 1) ||| (blockByte b (i + 1) >>> 7) := by
  apply BitVec.eq_of_getElem_eq
  intro k hk
  cases k with
  | zero =>
    have e : 8 * (15 - i) - 1 = 8 * (15 - (i + 1)) + 7 := by omega
    simp [getElem_blockByte, e, show 15 - i ≠ 0 by omega]
  | succ k => simp [getElem_blockByte, ← Nat.add_assoc]

/-- Nothing comes into the last byte. -/
theorem blockByte_shiftLeft_one_last (b : Block) : blockByte (b <<< 1) 15 = blockByte b 15 <<< 1 := by
  apply BitVec.eq_of_getElem_eq
  intro k hk
  cases k <;> simp [getElem_blockByte]

/-- What the doubling folds in: `0x87` when the top bit was shifted out. -/
def dblFold (b : Block) : Block := if (blockByte b 0).getLsbD 7 then 0x87#128 else 0#128

theorem dblBE_eq_shiftLeft_xor (b : Block) : dblBE b = (b <<< 1) ^^^ dblFold b := by
  have htop : (blockByte b 0).getLsbD 7 = b.getLsbD 127 := getElem_blockByte b 0 (k := 7) (by decide)
  unfold dblBE dblFold
  rw [htop]
  split
  · rfl
  · exact (BitVec.xor_zero).symm

theorem blockByte_dblFold (b : Block) {i : Nat} (hi : i < 15) : blockByte (dblFold b) i = 0 := by
  unfold dblFold
  split <;> interval_cases i <;> rfl

theorem blockByte_dblFold_last (b : Block) :
    blockByte (dblFold b) 15 = if (blockByte b 0).getLsbD 7 then 0x87#8 else 0#8 := by
  unfold dblFold
  split <;> rfl

theorem blockByte_dblBE (b : Block) {i : Nat} (hi : i < 15) :
    blockByte (dblBE b) i = (blockByte b i <<< 1) ||| (blockByte b (i + 1) >>> 7) := by
  rw [dblBE_eq_shiftLeft_xor, blockByte_xor, blockByte_dblFold b hi, blockByte_shiftLeft_one b hi]
  exact BitVec.xor_zero

theorem blockByte_dblBE_last (b : Block) :
    blockByte (dblBE b) 15 = (blockByte b 15 <<< 1) ^^^ (if (blockByte b 0).getLsbD 7 then 0x87#8 else 0#8) := by
  rw [dblBE_eq_shiftLeft_xor, blockByte_xor, blockByte_dblFold_last, blockByte_shiftLeft_one_last]

/-! ## Dbl_LE: Dbl_BE with the bytes in reverse -/

/-- The block whose bytes are those of `b` in reverse. -/
def reverseBlock (b : Block) : Block := blockOfBytes (blockBytes b).reverse

theorem blockByte_reverseBlock (b : Block) {i : Nat} (hi : i < 16) :
    blockByte (reverseBlock b) i = blockByte b (15 - i) := by
  rw [reverseBlock, blockByte_blockOfBytes (by simp) hi, List.getD_eq_getElem _ _ (by simpa using hi),
    List.getElem_reverse, ← getElem_blockBytes b (15 - i) (by omega)]
  simp

theorem le_append (a b : List Byte) : le (a ++ b) = le a + 256 ^ a.length * le b := by
  induction a with
  | nil => simp [le]
  | cons x a ih => simp only [List.cons_append, le, ih, List.length_cons, Nat.pow_succ]; ring

theorem le_reverse (bs : List Byte) : le bs.reverse = be bs := by
  induction bs with
  | nil => rfl
  | cons b bs ih => simp only [List.reverse_cons, le_append, List.length_reverse, be, le, ih]; ring

/-- The little-endian bytes of a block's integer are its bytes in reverse. -/
theorem toLE_toNat (b : Block) : toLE 16 b.toNat = (blockBytes b).reverse := by
  have hb : le (blockBytes b).reverse = b.toNat := by
    rw [le_reverse, blockBytes, be_toBE]
    exact Nat.mod_eq_of_lt b.isLt
  simpa [hb] using toLE_le (blockBytes b).reverse

theorem dblLE_eq_reverseBlock (b : Block) : dblLE b = reverseBlock (dblBE (reverseBlock b)) := by
  have hle : BitVec.ofNat 128 (le (blockBytes b)) = reverseBlock b := by
    rw [reverseBlock, blockOfBytes, ← le_reverse, List.reverse_reverse]
  rw [dblLE, hle, toLE_toNat]
  rfl

/-- Settles O36: Dbl_BE byte by byte, and Dbl_LE as Dbl_BE between two reversals of the bytes. -/
theorem doublingByteFormulas : Obligations.DoublingByteFormulas := by
  intro b
  refine ⟨fun i hi => blockByte_dblBE b hi, blockByte_dblBE_last b, ?_, fun i h1 h15 => ?_⟩
  · rw [dblLE_eq_reverseBlock, blockByte_reverseBlock _ (by decide), blockByte_dblBE_last,
      blockByte_reverseBlock _ (by decide), blockByte_reverseBlock _ (by decide)]
  · rw [dblLE_eq_reverseBlock, blockByte_reverseBlock _ (by omega), blockByte_dblBE _ (by omega),
      blockByte_reverseBlock _ (by omega), blockByte_reverseBlock _ (by omega), show 15 - (15 - i) = i by omega,
      show 15 - (15 - i + 1) = i - 1 by omega]

end Sys2Proof.Proofs
end

section
/-! Data in pieces: OmacUpdate and CtrXor go through it one byte at a time (41_omac.md R165, 42_eax.md R192). -/

namespace Sys2Proof.Proofs

open Sys2Proof.Machine Sys2Proof.Safety Sys2Proof.Laws

theorem omacUpdate_append (enc : Block → Block) (c : OmacCtx) (d d' : List Byte) :
    omacUpdate enc c (d ++ d') = omacUpdate enc (omacUpdate enc c d) d' :=
  List.foldl_append

theorem ctrXor_append (enc : Block → Block) (x : Eax) (d d' : List Byte) :
    ctrXor enc x (d ++ d') =
      ((ctrXor enc x d).1 ++ (ctrXor enc (ctrXor enc x d).2 d').1, (ctrXor enc (ctrXor enc x d).2 d').2) := by
  induction d generalizing x with
  | nil => rfl
  | cons b d ih => simp only [List.cons_append, ctrXor, ih]

/-- Settles O37: both are recursions along the data that hand their state on. -/
theorem splitDataGivesSameResult : Obligations.SplitDataGivesSameResult :=
  ⟨fun enc c d d' => ⟨omacUpdate_append enc c d d', omacUpdate_nil enc c⟩, ctrXor_append⟩

end Sys2Proof.Proofs
end

section
/-! OMAC is CMAC (41_omac.md R167). After any message the context is in closed form: the chain over all complete blocks
but the last, and the rest of the message, of at most 16 bytes, folded into it. -/

namespace Sys2Proof.Proofs

open Sys2Proof.Machine Sys2Proof.Safety Sys2Proof.Laws

/-! ## Blocks padded with zeros -/

/-- The block of at most 16 bytes with zeros at its end. -/
def padBlock (bs : List Byte) : Block := blockOfBytes (bs ++ zeroBytes (16 - bs.length))

theorem blockByte_padBlock {bs : List Byte} (h : bs.length ≤ 16) {i : Nat} (hi : i < 16) :
    blockByte (padBlock bs) i = bs.getD i 0 := by
  rw [padBlock, blockByte_blockOfBytes (by simp; omega) hi]
  by_cases hb : i < bs.length
  · rw [List.getD_append _ _ _ _ hb]
  · simp [List.getD_eq_getElem?_getD, List.getElem?_append_right, zeroBytes, hb, Nat.le_of_not_lt hb]

theorem padBlock_of_full {bs : List Byte} (h : bs.length = 16) : padBlock bs = blockOfBytes bs := by
  simp [padBlock, zeroBytes, h]

theorem padBlock_snoc (bs : List Byte) (d : Byte) :
    padBlock (bs ++ [d]) = blockOfBytes (bs ++ [d] ++ zeroBytes (15 - bs.length)) := by
  simp [padBlock]

/-- A byte put into a block changes that byte alone. -/
theorem blockByte_xorByteAt (b : Block) {i j : Nat} (hi : i < 16) (hj : j < 16) (v : Byte) :
    blockByte (xorByteAt b i v) j = if j = i then blockByte b j ^^^ v else blockByte b j := by
  apply BitVec.eq_of_getElem_eq
  intro k hk
  by_cases h : j = i
  · subst h
    simp [xorByteAt, getElem_blockByte, BitVec.getLsbD_eq_getElem hk]
  · have hout : 8 * (15 - j) + k < 8 * (15 - i) ∨ v.getLsbD (8 * (15 - j) + k - 8 * (15 - i)) = false := by
      rw [or_iff_not_imp_left]
      exact fun _ => BitVec.getLsbD_of_ge _ _ (by omega)
    obtain hlt | hzero := hout
    · simp [xorByteAt, getElem_blockByte, h, hlt]
    · simp [xorByteAt, getElem_blockByte, h, hzero]

theorem xorByteAt_xor (a b : Block) (i : Nat) (v : Byte) : xorByteAt (a ^^^ b) i v = a ^^^ xorByteAt b i v :=
  BitVec.xor_assoc ..

/-- A byte put in behind the bytes of a block that has room for it. -/
theorem xorByteAt_padBlock {bs : List Byte} (h : bs.length < 16) (d : Byte) :
    xorByteAt (padBlock bs) bs.length d = padBlock (bs ++ [d]) := by
  refine eq_of_blockByte_eq fun j hj => ?_
  rw [blockByte_xorByteAt _ h hj, blockByte_padBlock h.le hj, blockByte_padBlock (by simpa using h) hj]
  obtain hlt | rfl | hgt := Nat.lt_trichotomy j bs.length
  · rw [if_neg hlt.ne, List.getD_append _ _ _ _ hlt]
  · simp [List.getD_eq_getElem?_getD]
  · simp [List.getD_eq_getElem?_getD, hgt.ne', List.getElem?_eq_none, hgt.le, Nat.succ_le_of_lt hgt]

/-- A first byte put into a block. -/
theorem xorByteAt_zero (b : Block) (d : Byte) : xorByteAt b 0 d = b ^^^ padBlock [d] := by
  have hempty : xorByteAt 0#128 0 d = padBlock [d] := xorByteAt_padBlock (bs := []) (by decide) d
  rw [← hempty, ← xorByteAt_xor, BitVec.xor_zero]

/-! ## The message in blocks -/

theorem sectorBlocks_append_right {q : Nat} {M : List Byte} (h : 16 * q ≤ M.length) (N : List Byte) :
    sectorBlocks q (M ++ N) = sectorBlocks q M := by
  induction q generalizing M with
  | zero => rfl
  | succ q ih =>
    have hlen : 16 * q ≤ (M.drop 16).length := by rw [List.length_drop]; omega
    rw [sectorBlocks, sectorBlocks, List.take_append_of_le_length (by omega), List.drop_append_of_le_length (by omega),
      ih hlen]

theorem sectorBlocks_succ (q : Nat) (M : List Byte) :
    sectorBlocks (q + 1) M = sectorBlocks q M ++ [blockOfBytes ((M.drop (16 * q)).take 16)] := by
  induction q generalizing M with
  | zero => rfl
  | succ q ih =>
    rw [sectorBlocks, ih, sectorBlocks, List.drop_drop, List.cons_append, Nat.mul_succ, Nat.add_comm (16 * q) 16]

/-- How many blocks of a message are chained before the last: all that are complete, but for the last (R167). -/
def chainedBlocks (M : List Byte) : Nat := (M.length - 1) / 16

/-- What of a message is left for the last block. -/
def lastBytes (M : List Byte) : List Byte := M.drop (16 * chainedBlocks M)

/-- The chain value of CMAC before the last block (R167). -/
def chainValue (enc : Block → Block) (M : List Byte) : Block :=
  (sectorBlocks (chainedBlocks M) M).foldl (fun x b => enc (x ^^^ b)) 0

/-- The definition of CMAC, in the terms above. -/
theorem cmac_eq (enc : Block → Block) (M : List Byte) :
    cmac enc M =
      if (lastBytes M).length = 16 then enc (chainValue enc M ^^^ (blockOfBytes (lastBytes M) ^^^ dblBE (enc 0)))
      else enc (chainValue enc M ^^^
        (blockOfBytes (lastBytes M ++ [0x80] ++ zeroBytes (15 - (lastBytes M).length)) ^^^ dblBE (dblBE (enc 0)))) := rfl

theorem length_lastBytes (M : List Byte) : (lastBytes M).length = M.length - 16 * chainedBlocks M := List.length_drop

theorem length_lastBytes_le (M : List Byte) : (lastBytes M).length ≤ 16 := by
  rw [length_lastBytes, chainedBlocks]
  omega

/-! ## One more byte of the message -/

section
variable {M : List Byte}

theorem chainedBlocks_snoc_of_room (h : (lastBytes M).length < 16) (d : Byte) :
    chainedBlocks (M ++ [d]) = chainedBlocks M := by
  rw [length_lastBytes] at h
  simp only [chainedBlocks, List.length_append, List.length_singleton] at h ⊢
  omega

theorem chainedBlocks_snoc_of_full (h : (lastBytes M).length = 16) (d : Byte) :
    chainedBlocks (M ++ [d]) = chainedBlocks M + 1 := by
  rw [length_lastBytes] at h
  simp only [chainedBlocks, List.length_append, List.length_singleton] at h ⊢
  omega

theorem chainedBlocks_le (M : List Byte) : 16 * chainedBlocks M ≤ M.length := by
  rw [chainedBlocks]
  omega

theorem lastBytes_snoc_of_room (h : (lastBytes M).length < 16) (d : Byte) :
    lastBytes (M ++ [d]) = lastBytes M ++ [d] := by
  rw [lastBytes, chainedBlocks_snoc_of_room h, List.drop_append_of_le_length (chainedBlocks_le M), lastBytes]

theorem lastBytes_snoc_of_full (h : (lastBytes M).length = 16) (d : Byte) : lastBytes (M ++ [d]) = [d] := by
  rw [length_lastBytes] at h
  rw [lastBytes, chainedBlocks_snoc_of_full (by rwa [length_lastBytes]), List.drop_left' (by omega)]

theorem chainValue_snoc_of_room (enc : Block → Block) (h : (lastBytes M).length < 16) (d : Byte) :
    chainValue enc (M ++ [d]) = chainValue enc M := by
  rw [chainValue, chainedBlocks_snoc_of_room h, sectorBlocks_append_right (chainedBlocks_le M), chainValue]

theorem chainValue_snoc_of_full (enc : Block → Block) (h : (lastBytes M).length = 16) (d : Byte) :
    chainValue enc (M ++ [d]) = enc (chainValue enc M ^^^ blockOfBytes (lastBytes M)) := by
  have hlen : 16 * (chainedBlocks M + 1) ≤ M.length := by
    rw [length_lastBytes] at h
    omega
  rw [chainValue, chainedBlocks_snoc_of_full h, sectorBlocks_append_right hlen, sectorBlocks_succ, List.foldl_append,
    ← lastBytes, List.take_of_length_le h.le]
  rfl

end

/-! ## The context after a message -/

/-- The context after INITFIRST and a message, in closed form: the subkey, the chain value with the last bytes folded
in, and their number. -/
def absorbed (enc : Block → Block) (M : List Byte) : OmacCtx :=
  { B := dblBE (enc 0), acc := chainValue enc M ^^^ padBlock (lastBytes M), posn := (lastBytes M).length }

/-- A message of at most one block has no chain. -/
theorem absorbed_of_short (enc : Block → Block) {M : List Byte} (h : M.length ≤ 16) :
    absorbed enc M = { B := dblBE (enc 0), acc := padBlock M, posn := M.length } := by
  have hblocks : chainedBlocks M = 0 := by rw [chainedBlocks]; omega
  have hlast : lastBytes M = M := by rw [lastBytes, hblocks, Nat.mul_zero, List.drop_zero]
  have hchain : chainValue enc M = 0 := by rw [chainValue, hblocks]; rfl
  simp [absorbed, hlast, hchain]

theorem omacAbsorb_of_room (enc : Block → Block) {c : OmacCtx} (h : c.posn ≠ 16) (d : Byte) :
    omacAbsorb enc c d = { c with acc := xorByteAt c.acc c.posn d, posn := c.posn + 1 } := by
  simp only [omacAbsorb, if_neg h]

theorem omacAbsorb_of_full (enc : Block → Block) {c : OmacCtx} (h : c.posn = 16) (d : Byte) :
    omacAbsorb enc c d = { c with acc := xorByteAt (enc c.acc) 0 d, posn := 1 } := by
  simp only [omacAbsorb, if_pos h]

theorem omacAbsorb_absorbed (enc : Block → Block) (M : List Byte) (d : Byte) :
    omacAbsorb enc (absorbed enc M) d = absorbed enc (M ++ [d]) := by
  obtain hroom | hfull := (length_lastBytes_le M).lt_or_eq
  · rw [omacAbsorb_of_room enc hroom.ne]
    simp only [absorbed, lastBytes_snoc_of_room hroom, chainValue_snoc_of_room enc hroom, xorByteAt_xor,
      xorByteAt_padBlock hroom, List.length_append, List.length_singleton]
  · rw [omacAbsorb_of_full enc hfull]
    simp only [absorbed, lastBytes_snoc_of_full hfull, chainValue_snoc_of_full enc hfull, padBlock_of_full hfull,
      xorByteAt_zero, List.length_singleton]

/-- INITFIRST and UPDATE leave the closed form (R163, R165). -/
theorem omacUpdate_omacInitFirst (enc : Block → Block) (M : List Byte) :
    omacUpdate enc (omacInitFirst enc) M = absorbed enc M := by
  induction M using List.reverseRecOn with
  | nil => exact (absorbed_of_short enc (M := []) (Nat.zero_le 16)).symm
  | append_singleton M d ih =>
    rw [omacUpdate_append, ih]
    exact omacAbsorb_absorbed enc M d

/-- FINALIZE of the closed form is CMAC: both choose between the full and the padded last block (R166). -/
theorem omacFinalize_absorbed (enc : Block → Block) (M : List Byte) :
    (omacFinalize enc (absorbed enc M)).acc = cmac enc M := by
  rw [cmac_eq]
  obtain hroom | hfull := (length_lastBytes_le M).lt_or_eq
  · simp only [omacFinalize, omacLastBlock, absorbed, if_neg hroom.ne, xorByteAt_xor, xorByteAt_padBlock hroom,
      padBlock_snoc, BitVec.xor_assoc]
  · simp only [omacFinalize, omacLastBlock, absorbed, if_pos hfull, padBlock_of_full hfull, BitVec.xor_assoc]

/-! ## The domain tag -/

theorem blockOfBytes_zeroBytes_append (n : Nat) (bs : List Byte) :
    blockOfBytes (zeroBytes n ++ bs) = blockOfBytes bs := by
  have hz : be (zeroBytes n) = 0 := by
    induction n with
    | zero => rfl
    | succ n ih => rw [zeroBytes, List.replicate_succ, be, ← zeroBytes, ih]; simp
  rw [blockOfBytes, be_append, hz, Nat.zero_mul, Nat.zero_add, blockOfBytes]

/-- INITNEXT's accumulator is the block `0^15 || t` (R164). -/
theorem blockOfBytes_tag (t : Byte) : blockOfBytes (zeroBytes 15 ++ [t]) = t.setWidth 128 := by
  rw [blockOfBytes_zeroBytes_append]
  simp [blockOfBytes, be]

/-- INITNEXT after INITFIRST leaves the context of the message `0^15 || t`. -/
theorem omacInitNext_omacInitFirst (enc : Block → Block) (t : Byte) :
    omacInitNext (omacInitFirst enc) t = absorbed enc (zeroBytes 15 ++ [t]) := by
  rw [absorbed_of_short enc (by simp), padBlock_of_full rfl, blockOfBytes_tag]
  rfl

/-- Settles O38: the context stays in closed form along the message, and INITNEXT is the message `0^15 || t`. -/
theorem omacComputesCmac : Obligations.OmacComputesCmac := by
  intro enc M t
  refine ⟨?_, ?_⟩
  · rw [omacUpdate_omacInitFirst, omacFinalize_absorbed]
  · rw [omacInitNext_omacInitFirst, ← omacUpdate_omacInitFirst, ← omacUpdate_append, omacUpdate_omacInitFirst,
      omacFinalize_absorbed, omacDomain]

end Sys2Proof.Proofs
end

section
/-! The OMAC commands (41_omac.md R169 to R172): each command's first error by its own checks, and the state a success
leaves. -/

namespace Sys2Proof.Proofs

open Sys2Proof.Machine Sys2Proof.Safety Sys2Proof.Laws

/-! ## OMAC.INITFIRST and OMAC.INITNEXT -/

theorem firstError_omacInitfirst (s : State) :
    firstError .omacInitfirst s = if s.c0.keyed = false then some .seq else none := by
  simp [firstError_eq_ite, errorHolds, outOfPhase, sourceRange, destinationRange]

theorem firstError_omacInitnext (t : Byte) (s : State) :
    firstError (.omacInitnext t) s = if s.omac.phase = .unset then some .seq else none := by
  simp [firstError_eq_ite, errorHolds, outOfPhase, sourceRange, destinationRange]

theorem opcode_omacInitnext (t : Byte) : (Instr.omacInitnext t).opcode = 0x21#8 := rfl

theorem exec_omacInitnext {s : State} (h : s.omac.phase ≠ .unset) (t : Byte) :
    exec (.omacInitnext t) s =
      .next { s with
        omac := { phase := .ready, ctx := { B := s.omac.ctx.B, acc := blockOfBytes (zeroBytes 15 ++ [t]), posn := 16 } }
        status := 0x00002100#32
        result := 0 } := by
  rw [exec_of_firstError_none ((firstError_omacInitnext t s).trans (if_neg h)), opcode_omacInitnext, blockOfBytes_tag]
  rfl

/-- Settles O39: each command's one check is its phase precondition, and INITNEXT's accumulator is `0^15 || t`. -/
theorem omacInitResults : Obligations.OmacInitResults := by
  refine ⟨decode_encode .omacInitfirst, fun s t => ⟨(specWordsDecode.2 t).2, fun hkeyed => ?_, fun hkeyed => ?_,
    fun hphase => ?_, fun hphase => exec_omacInitnext hphase t⟩⟩
  · exact exec_of_firstError_some ((firstError_omacInitfirst s).trans (if_pos hkeyed))
  · exact exec_of_firstError_none ((firstError_omacInitfirst s).trans (if_neg (by simp [hkeyed])))
  · rw [exec_of_firstError_some ((firstError_omacInitnext t s).trans (if_pos hphase)), opcode_omacInitnext]
    rfl

/-! ## OMAC.UPDATE -/

theorem firstError_omacUpdate (s : State) :
    firstError .omacUpdate s =
      if s.omac.phase ≠ .ready then some .seq
      else if rangeValid s.params s.src s.len.toNat = false then some .bus
      else none := by
  simp [firstError_eq_ite, errorHolds, outOfPhase, sourceRange, destinationRange]

theorem exec_omacUpdate {s : State} (hready : s.omac.phase = .ready)
    (hsrc : rangeValid s.params s.src s.len.toNat = true) :
    exec .omacUpdate s = .next { s with
      omac := { phase := .ready
                ctx := omacUpdate (blockEncrypt s.c0) s.omac.ctx (memRead s.mem s.src.toNat s.len.toNat) }
      status := 0x00002200#32
      result := 0 } := by
  have hnone : firstError .omacUpdate s = none := by
    rw [firstError_omacUpdate, if_neg (not_not.mpr hready), if_neg (by simp [hsrc])]
  rw [exec_of_firstError_none hnone, ← hready]
  rfl

/-- Settles O40: an empty range is valid, and absorbing no bytes leaves the context. -/
theorem omacUpdateResult : Obligations.OmacUpdateResult := by
  refine ⟨decode_encode .omacUpdate, fun s => ⟨fun hphase => ?_, fun hready hsrc => ?_, exec_omacUpdate,
    fun hready hlen => ?_⟩⟩
  · exact exec_of_firstError_some ((firstError_omacUpdate s).trans (if_pos hphase))
  · exact exec_of_firstError_some (by rw [firstError_omacUpdate, if_neg (not_not.mpr hready), if_pos hsrc])
  · rw [exec_omacUpdate hready (by rw [hlen]; rfl), hlen, ← hready]
    rfl

/-! ## OMAC.FINALIZE -/

theorem firstError_omacFinalize (s : State) :
    firstError .omacFinalize s =
      if s.omac.phase ≠ .ready then some .seq
      else if rangeValid s.params s.dst 16 = false then some .bus
      else none := by
  simp [firstError_eq_ite, errorHolds, outOfPhase, sourceRange, destinationRange]

/-- Settles O41: the tag is the encrypted last block of R166, stored at DST and left in the accumulator. -/
theorem omacFinalizeResult : Obligations.OmacFinalizeResult := by
  refine ⟨decode_encode .omacFinalize, fun s => ?_⟩
  intro c last tag
  refine ⟨fun hphase => ?_, fun hready hdst => ?_, fun hready hdst => ?_⟩
  · exact exec_of_firstError_some ((firstError_omacFinalize s).trans (if_pos hphase))
  · exact exec_of_firstError_some (by rw [firstError_omacFinalize, if_neg (not_not.mpr hready), if_pos hdst])
  · have hnone : firstError .omacFinalize s = none := by
      rw [firstError_omacFinalize, if_neg (not_not.mpr hready), if_neg (by simp [hdst])]
    exact ⟨_, exec_of_firstError_none hnone, storeDst_blockBytes s tag⟩

end Sys2Proof.Proofs
end

section
/-! The phases of the EAX unit (42_eax.md R190). -/

namespace Sys2Proof.Proofs

open Sys2Proof.Machine Sys2Proof.Safety Sys2Proof.Laws

/-- Where the EAX table has no entry, the command is out of phase, and no other error comes before ERR_SEQ. -/
theorem firstError_of_eaxNextPhase_eq_none {i : Instr} {s : State} (h : eaxNextPhase i s.eax.phase = none) :
    firstError i s = some .seq := by
  obtain ⟨hsupported, hphase⟩ : errorHolds .unsupported i s = false ∧ outOfPhase i s = true := by
    cases i
    case eaxSetiv | eaxAddauth | eaxEncrypt | eaxDecrypt | eaxComputetag | eaxChecktag =>
      refine ⟨rfl, ?_⟩
      cases hp : s.eax.phase <;> simp [eaxNextPhase, outOfPhase, hp] at h ⊢
    all_goals cases h
  exact firstError_of_outOfPhase hsupported hphase

/-- A success leaves the EAX unit in the phase of its table. -/
theorem effect_eax_phase {i : Instr} {s : State} (hn : firstError i s = none) {p : EaxPhase}
    (hp : eaxNextPhase i s.eax.phase = some p) : (effect i s).1.eax.phase = p := by
  cases i
  case eaxSetiv =>
    cases hs : s.eax.phase
    case uninit => simp [eaxNextPhase, hs] at hp
    all_goals simpa [eaxNextPhase, effect, hs] using hp
  case eaxAddauth =>
    have haad : s.eax.phase = .aad := by simpa [outOfPhase] using outOfPhase_eq_false hn
    simpa [eaxNextPhase, effect, haad] using hp
  case eaxEncrypt | eaxDecrypt =>
    have hin := inMessage_of_inPhase hn (by simp)
    have hend : (endAad (blockEncrypt s.e) s.eax).phase = .enc := endAad_phase _ (by simpa [inMessage] using hin)
    obtain hs | hs := hin <;> simpa [eaxNextPhase, effect, ctrXor_keeps, hend, hs] using hp
  case eaxComputetag | eaxChecktag =>
    obtain hs | hs := inMessage_of_inPhase hn (by simp) <;> simpa [eaxNextPhase, effect, hs] using hp
  all_goals exact Option.some.inj hp

/-- Settles O24: no entry of the table means ERR_SEQ as the first error, and a success goes where the table says. -/
theorem eaxPhaseTransitions : Obligations.EaxPhaseTransitions := by
  intro i s
  obtain ⟨t, ht⟩ := exec_next i s
  refine ⟨t, ht, fun hnone => ?_, fun p hp => ?_⟩
  · rw [exec_of_firstError_some (firstError_of_eaxNextPhase_eq_none hnone)] at ht
    exact (Host.Outcome.next.inj ht).symm
  · exact exec_phase (fun u => u.eax.phase) ht (fun _ _ _ _ => rfl) (fun hn _ => effect_eax_phase hn) p hp

end Sys2Proof.Proofs
end

section
/-! The counter and the keystream of CtrXor (42_eax.md R191, R192). -/

namespace Sys2Proof.Proofs

open Sys2Proof.Machine Sys2Proof.Safety Sys2Proof.Laws

/-! ## The counter -/

@[simp] theorem length_incBytes (bs : List Byte) : (incBytes bs).1.length = bs.length := by
  induction bs with
  | nil => rfl
  | cons b bs ih => simp [incBytes, ih]

/-- The bytes and the carry out of them are one more than the bytes before. -/
theorem be_incBytes (bs : List Byte) :
    be (incBytes bs).1 + (incBytes bs).2 * 256 ^ bs.length = be bs + 1 := by
  induction bs with
  | nil => rfl
  | cons b bs ih =>
    have hsplit := Nat.mod_add_div (b.toNat + (incBytes bs).2) 256
    simp only [incBytes, be, length_incBytes, List.length_cons, BitVec.toNat_ofNat, Nat.pow_succ]
    generalize (b.toNat + (incBytes bs).2) / 256 = carry at hsplit ⊢
    rw [Nat.mod_mod_of_dvd _ (by decide)]
    generalize (b.toNat + (incBytes bs).2) % 256 = digit at hsplit ⊢
    linear_combination ih + 256 ^ bs.length * hsplit

theorem be_blockBytes (b : Block) : be (blockBytes b) = b.toNat := by
  rw [blockBytes, be_toBE]
  exact Nat.mod_eq_of_lt b.isLt

/-- The carry out of byte 0 is a multiple of 2^128. -/
theorem ctrIncrement_eq_add_one (c : Block) : ctrIncrement c = c + 1 := by
  have hinc := be_incBytes (blockBytes c)
  rw [length_blockBytes, be_blockBytes] at hinc
  apply BitVec.eq_of_toNat_eq
  rw [ctrIncrement, blockOfBytes, BitVec.toNat_ofNat, BitVec.toNat_add, show BitVec.toNat (1 : Block) = 1 from rfl,
    ← hinc]
  exact (Nat.add_mul_mod_self_right _ _ _).symm

/-- Settles O42: the bytes are those of the integer that is one more, without the carry. -/
theorem counterIncrementsModulo : Obligations.CounterIncrementsModulo := by
  refine fun c => ⟨ctrIncrement_eq_add_one c, ?_⟩
  rw [ctrIncrement_eq_add_one, be_blockBytes, blockBytes, BitVec.toNat_add]
  rfl

/-! ## The keystream -/

/-- The unit `k` bytes into the keystream that starts at counter `N`: the position in the block last made, which is 16
between blocks; the counter of the next block; and, inside a block, the block itself (R192). -/
abbrev InKeystream (enc : Block → Block) (N : Block) (k : Nat) (x : Eax) : Prop :=
  x.encPosn = (if k % 16 = 0 then 16 else k % 16) ∧ x.ctr = N + BitVec.ofNat 128 ((k + 15) / 16) ∧
    (k % 16 ≠ 0 → x.stream = enc (N + BitVec.ofNat 128 (k / 16)))

section
variable {enc : Block → Block} {N : Block} {k : Nat} {x : Eax}

/-- Before a byte is used, the block it is in has been made. -/
theorem refillStream_of_inKeystream (h : InKeystream enc N k x) :
    (refillStream enc x).encPosn = k % 16 ∧ (refillStream enc x).stream = enc (N + BitVec.ofNat 128 (k / 16)) ∧
      (refillStream enc x).ctr = N + BitVec.ofNat 128 (k / 16 + 1) := by
  obtain ⟨hposn, hctr, hstream⟩ := h
  by_cases hk : k % 16 = 0
  · have hdiv : (k + 15) / 16 = k / 16 := by omega
    rw [if_pos hk] at hposn
    rw [hdiv] at hctr
    simp only [refillStream, if_pos hposn, ctrIncrement_eq_add_one, hctr, hk, BitVec.ofNat_add, BitVec.add_assoc,
      true_and]
    rfl
  · have hdiv : (k + 15) / 16 = k / 16 + 1 := by omega
    have hfull : x.encPosn ≠ 16 := by rw [hposn, if_neg hk]; omega
    rw [refillStream, if_neg hfull]
    exact ⟨hposn.trans (if_neg hk), hstream hk, hdiv ▸ hctr⟩

/-- One byte used. -/
theorem inKeystream_succ (h : InKeystream enc N k x) :
    InKeystream enc N (k + 1) { refillStream enc x with encPosn := (refillStream enc x).encPosn + 1 } := by
  obtain ⟨hposn, hstream, hctr⟩ := refillStream_of_inKeystream h
  refine ⟨?_, ?_, fun hk => ?_⟩
  · simp only [hposn]
    split <;> omega
  · rw [hctr, show (k + 1 + 15) / 16 = k / 16 + 1 by omega]
  · rw [hstream, show (k + 1) / 16 = k / 16 by omega]

/-- The byte used is byte `k` of the keystream. -/
theorem blockByte_refillStream (h : InKeystream enc N k x) :
    blockByte (refillStream enc x).stream (refillStream enc x).encPosn = keystreamByte enc N k := by
  obtain ⟨hposn, hstream, -⟩ := refillStream_of_inKeystream h
  rw [hposn, hstream, keystreamByte]

/-- CtrXor from any place in the keystream: the data under the keystream from there on, and the place behind it. -/
theorem ctrXor_of_inKeystream (h : InKeystream enc N k x) (d : List Byte) :
    (ctrXor enc x d).1 = (d.mapIdx fun i b => b ^^^ keystreamByte enc N (k + i)) ∧
      InKeystream enc N (k + d.length) (ctrXor enc x d).2 := by
  induction d generalizing k x with
  | nil => exact ⟨rfl, h⟩
  | cons b d ih =>
    obtain ⟨hbytes, hplace⟩ := ih (inKeystream_succ h)
    rw [Nat.add_right_comm] at hplace
    refine ⟨?_, hplace⟩
    simp only [ctrXor, blockByte_refillStream h, hbytes, List.mapIdx_cons, Nat.add_zero, Nat.add_assoc, Nat.add_comm 1]

/-- Position 16 is the start of the keystream of the counter. -/
theorem inKeystream_zero (enc : Block → Block) (h : x.encPosn = 16) : InKeystream enc x.ctr 0 x :=
  ⟨h, (BitVec.add_zero _).symm, fun h0 => absurd rfl h0⟩

theorem ctrXor_eq_ctrCrypt (enc : Block → Block) (h : x.encPosn = 16) (d : List Byte) :
    (ctrXor enc x d).1 = ctrCrypt enc x.ctr d := by
  simpa only [Nat.zero_add, ctrCrypt] using (ctrXor_of_inKeystream (inKeystream_zero enc h) d).1

end

/-- Settles O43: from position 16 the unit is at the start of its counter's keystream, and CtrXor goes through it byte
by byte. -/
theorem keystreamClosedForm : Obligations.KeystreamClosedForm := by
  intro enc x d hx
  obtain ⟨-, hposn, hctr, -⟩ := ctrXor_of_inKeystream (inKeystream_zero enc hx) d
  rw [Nat.zero_add] at hposn hctr
  refine ⟨ctrXor_eq_ctrCrypt enc hx d, hctr, fun hd => ?_⟩
  have hlen := List.length_pos_of_ne_nil hd
  rw [hposn]
  split <;> omega

end Sys2Proof.Proofs
end

section
/-! The EAX session in the spec's terms (42_eax.md R194 to R199): what each operation of the unit leaves, CtrXor undone
by itself, and the message of R203. -/

namespace Sys2Proof.Proofs

open Sys2Proof.Machine Sys2Proof.Safety Sys2Proof.Laws

/-! ## The unit after SETIV, CloseAAD and CloseTag -/

/-- OMAC^t from any context that holds the subkey of the cipher (R164, R167). -/
theorem omacFinalize_omacInitNext (enc : Block → Block) {c : OmacCtx} (h : c.B = dblBE (enc 0)) (t : Byte)
    (M : List Byte) : (omacFinalize enc (omacUpdate enc (omacInitNext c t) M)).acc = omacDomain enc t M := by
  have hnext : omacInitNext c t = omacInitNext (omacInitFirst enc) t := by simp only [omacInitNext, omacInitFirst, h]
  rw [hnext]
  exact (omacComputesCmac enc M t).2

theorem omacInitNext_eq (c : OmacCtx) (t : Byte) :
    omacInitNext c t = { B := c.B, acc := blockOfBytes (zeroBytes 15 ++ [t]), posn := 16 } := by
  rw [blockOfBytes_tag]
  rfl

/-- The session SETIV opens (R194). -/
theorem startMessage_eq (enc : Block → Block) (x : Eax) (iv : List Byte) :
    startMessage enc x iv =
      { phase := .aad, ctr := omacDomain enc 0 iv, stream := x.stream, tag := omacDomain enc 0 iv
        o := { B := dblBE (enc 0), acc := blockOfBytes (zeroBytes 15 ++ [0x01]), posn := 16 }
        encPosn := 16 } := by
  have hacc := omacFinalize_omacInitNext enc (c := omacInitFirst enc) rfl 0x00 iv
  simp only [startMessage, hacc, omacInitNext_eq _ 0x01, omacFinalize_B, omacUpdate_B, omacInitNext_B]
  rfl

/-- The associated data closed when it is open (R196). -/
theorem endAad_eq (enc : Block → Block) (x : Eax) :
    endAad enc x =
      if x.phase = .aad then
        { x with
          phase := .enc, tag := x.tag ^^^ (omacFinalize enc x.o).acc
          o := { B := x.o.B, acc := blockOfBytes (zeroBytes 15 ++ [0x02]), posn := 16 } }
      else x := by
  simp only [endAad, closeAad, omacInitNext_eq, omacFinalize_B]

theorem endAad_of_aad (enc : Block → Block) {x : Eax} (h : x.phase = .aad) : endAad enc x = closeAad enc x := if_pos h

theorem endAad_of_enc (enc : Block → Block) {x : Eax} (h : x.phase = .enc) : endAad enc x = x :=
  if_neg (by simp [h])

theorem closeTag_tag_of_enc (enc : Block → Block) {x : Eax} (h : x.phase = .enc) :
    (closeTag enc x).tag = x.tag ^^^ (omacFinalize enc x.o).acc := by
  rw [closeTag, endAad_of_enc enc h]

/-! ## CtrXor undone by itself -/

/-- CtrXor does not look at the OMAC context. -/
theorem ctrXor_withCtx (enc : Block → Block) (x : Eax) (c : OmacCtx) (d : List Byte) :
    ctrXor enc { x with o := c } d = ((ctrXor enc x d).1, { (ctrXor enc x d).2 with o := c }) := by
  induction d generalizing x with
  | nil => rfl
  | cons b d ih =>
    have hrefill : refillStream enc { x with o := c } = { refillStream enc x with o := c } := by
      unfold refillStream
      split <;> rfl
    simp only [ctrXor, hrefill]
    rw [ih { refillStream enc x with encPosn := (refillStream enc x).encPosn + 1 }]

/-- The same keystream again gives the data back, and its state does not depend on the data (R192). -/
theorem ctrXor_ctrXor (enc : Block → Block) (x : Eax) (d : List Byte) :
    ctrXor enc x (ctrXor enc x d).1 = (d, (ctrXor enc x d).2) := by
  induction d generalizing x with
  | nil => rfl
  | cons b d ih => simp only [ctrXor, ih, BitVec.xor_assoc, BitVec.xor_self, BitVec.xor_zero]

/-! ## The data commands as operations of the unit -/

/-- The unit after ADDAUTH of `A` (R195). -/
def addAuth (enc : Block → Block) (x : Eax) (A : List Byte) : Eax := { x with o := omacUpdate enc x.o A }

/-- What ENCRYPT of `M` writes and the unit it leaves: the ciphertext is absorbed (R197). -/
def encryptData (enc : Block → Block) (x : Eax) (M : List Byte) : List Byte × Eax :=
  let r := ctrXor enc (endAad enc x) M
  (r.1, addAuth enc r.2 r.1)

/-- What DECRYPT of `C` writes and the unit it leaves: the ciphertext is absorbed (R198). -/
def decryptData (enc : Block → Block) (x : Eax) (C : List Byte) : List Byte × Eax :=
  ctrXor enc (addAuth enc (endAad enc x) C) C

theorem effect_eaxAddauth (s : State) :
    effect .eaxAddauth s = (s.setEax (addAuth (blockEncrypt s.e) s.eax (s.srcBytes s.lenNat)), 0) := rfl

theorem effect_eaxEncrypt (s : State) :
    effect .eaxEncrypt s =
      ((s.storeDst (encryptData (blockEncrypt s.e) s.eax (s.srcBytes s.lenNat)).1).setEax
        (encryptData (blockEncrypt s.e) s.eax (s.srcBytes s.lenNat)).2, 0) := rfl

theorem effect_eaxDecrypt (s : State) :
    effect .eaxDecrypt s =
      ((s.storeDst (decryptData (blockEncrypt s.e) s.eax (s.srcBytes s.lenNat)).1).setEax
        (decryptData (blockEncrypt s.e) s.eax (s.srcBytes s.lenNat)).2, 0) := rfl

@[simp] theorem length_encryptData (enc : Block → Block) (x : Eax) (M : List Byte) :
    (encryptData enc x M).1.length = M.length := length_ctrXor enc _ M

@[simp] theorem length_decryptData (enc : Block → Block) (x : Eax) (C : List Byte) :
    (decryptData enc x C).1.length = C.length := length_ctrXor enc _ C

/-- The unit ENCRYPT leaves, with the context it absorbs into written out. -/
theorem encryptData_snd (enc : Block → Block) (x : Eax) (M : List Byte) :
    (encryptData enc x M).2 =
      { (ctrXor enc (endAad enc x) M).2 with
        o := omacUpdate enc (endAad enc x).o (ctrXor enc (endAad enc x) M).1 } := by
  simp only [encryptData, addAuth, ctrXor_keeps]

theorem encryptData_keeps (enc : Block → Block) (x : Eax) (M : List Byte) :
    (encryptData enc x M).2.phase = (endAad enc x).phase ∧ (encryptData enc x M).2.tag = (endAad enc x).tag ∧
      (encryptData enc x M).2.o = omacUpdate enc (endAad enc x).o (encryptData enc x M).1 := by
  obtain ⟨hphase, htag, ho⟩ := ctrXor_keeps enc (endAad enc x) M
  exact ⟨hphase, htag, congrArg (omacUpdate enc · (encryptData enc x M).1) ho⟩

/-- DECRYPT as CtrXor of the input and a context that absorbs it, one apart from the other. -/
theorem decryptData_eq (enc : Block → Block) (x : Eax) (C : List Byte) :
    decryptData enc x C =
      ((ctrXor enc (endAad enc x) C).1,
        { (ctrXor enc (endAad enc x) C).2 with o := omacUpdate enc (endAad enc x).o C }) :=
  ctrXor_withCtx enc (endAad enc x) _ C

/-- DECRYPT of what ENCRYPT wrote gives the data back and leaves the same unit. -/
theorem decryptData_encryptData (enc : Block → Block) (x : Eax) (M : List Byte) :
    decryptData enc x (encryptData enc x M).1 = (M, (encryptData enc x M).2) := by
  rw [encryptData_snd, decryptData_eq, encryptData, ctrXor_ctrXor]

/-! ## One message (R203) -/

section
variable (enc : Block → Block) (x : Eax) (iv A M : List Byte)

theorem startMessage_ctr : (startMessage enc x iv).ctr = omacDomain enc 0 iv :=
  omacFinalize_omacInitNext enc rfl 0x00 iv

theorem startMessage_tag : (startMessage enc x iv).tag = omacDomain enc 0 iv :=
  omacFinalize_omacInitNext enc rfl 0x00 iv

/-- The unit after SETIV of `iv` and ADDAUTH of `A`, with the associated data closed. -/
def messageOpened : Eax := closeAad enc (addAuth enc (startMessage enc x iv) A)

theorem endAad_addAuth_startMessage : endAad enc (addAuth enc (startMessage enc x iv) A) = messageOpened enc x iv A :=
  endAad_of_aad enc rfl

theorem messageOpened_ctr : (messageOpened enc x iv A).ctr = omacDomain enc 0 iv := startMessage_ctr enc x iv

theorem messageOpened_tag : (messageOpened enc x iv A).tag = omacDomain enc 0 iv ^^^ omacDomain enc 1 A :=
  congrArg₂ (· ^^^ ·) (startMessage_tag enc x iv) (omacFinalize_omacInitNext enc (startMessage_B enc x iv) 0x01 A)

theorem messageOpened_o : (messageOpened enc x iv A).o = omacInitNext (omacInitFirst enc) 0x02 := by
  have hB : (addAuth enc (startMessage enc x iv) A).o.B = dblBE (enc 0) :=
    (omacUpdate_B _ _ _).trans (startMessage_B enc x iv)
  simp only [messageOpened, closeAad, omacInitNext_eq, omacFinalize_B, hB]
  rfl

/-- The ciphertext of the message. -/
theorem encryptData_message :
    (encryptData enc (addAuth enc (startMessage enc x iv) A) M).1 = ctrCrypt enc (omacDomain enc 0 iv) M := by
  rw [encryptData, endAad_addAuth_startMessage, ← messageOpened_ctr enc x iv A]
  exact ctrXor_eq_ctrCrypt enc rfl M

/-- The tag of the message: ENCRYPT keeps the tag so far, and its context is that of domain 2 with the ciphertext. -/
theorem closeTag_message :
    (closeTag enc (encryptData enc (addAuth enc (startMessage enc x iv) A) M).2).tag =
      eaxTag enc iv A (ctrCrypt enc (omacDomain enc 0 iv) M) := by
  obtain ⟨hphase, htag, ho⟩ := encryptData_keeps enc (addAuth enc (startMessage enc x iv) A) M
  rw [endAad_addAuth_startMessage] at hphase htag ho
  rw [closeTag_tag_of_enc enc hphase, htag, ho, messageOpened_tag, messageOpened_o, encryptData_message,
    omacFinalize_omacInitNext enc rfl]
  rfl

end

/-! ## The commands of a session that end with OK -/

/-- A command that ends with OK met no error. -/
theorem exec_cases_ok {i : Instr} {s t : State} (h : exec i s = .next t) (hok : statusCode t.status = 0) :
    firstError i s = none ∧ t = (effect i s).1.finish i.opcode codeOk (effect i s).2 := by
  obtain ⟨c, -, rfl⟩ | hsuccess := exec_cases h
  · rw [State.failed_status, statusCode_statusWord] at hok
    exact absurd hok (errorCode_ne_zero c)
  · exact hsuccess

/-- Bytes stored at DST are read back there, and every byte outside their range is kept. -/
theorem storeDst_bytes (s : State) {v : List Byte} {n : Nat} (h : v.length = n) :
    memRead (s.storeDst v).mem s.dst.toNat n = v ∧ SameOutside s.mem (s.storeDst v).mem s.dst n := by
  subst h
  rw [State.storeDst_mem]
  exact ⟨memRead_memWrite s.mem s.dst.toNat v, fun _ ha => readByte_memWrite_outside ha⟩

/-- A tag of at most 16 bytes. -/
theorem length_take_blockBytes (b : Block) {n : Nat} (h : n ≤ 16) : ((blockBytes b).take n).length = n := by
  rw [List.length_take, length_blockBytes, min_eq_left h]

/-- ENCRYPT and DECRYPT write as many bytes as they read. -/
theorem length_encryptData_srcBytes (s : State) :
    (encryptData (blockEncrypt s.e) s.eax (s.srcBytes s.lenNat)).1.length = s.len.toNat := by
  rw [length_encryptData, State.srcBytes, length_memRead, State.lenNat]

theorem length_decryptData_srcBytes (s : State) :
    (decryptData (blockEncrypt s.e) s.eax (s.srcBytes s.lenNat)).1.length = s.len.toNat := by
  rw [length_decryptData, State.srcBytes, length_memRead, State.lenNat]

/-- Settles O51: DECRYPT reads the bytes ENCRYPT stored, and undoes it on the unit. -/
theorem eaxDecryptRecoversPlaintext : Obligations.EaxDecryptRecoversPlaintext := by
  intro s t s' t' h hok heax he hlen hsrc hmem h' hok'
  obtain ⟨-, rfl⟩ := exec_cases_ok h hok
  obtain ⟨-, rfl⟩ := exec_cases_ok h' hok'
  have hread : s'.srcBytes s'.lenNat = (encryptData (blockEncrypt s.e) s.eax (s.srcBytes s.lenNat)).1 := by
    rw [State.srcBytes, State.lenNat, hmem, hsrc, hlen]
    exact (storeDst_bytes s (length_encryptData_srcBytes s)).1
  have hundo : decryptData (blockEncrypt s'.e) s'.eax (s'.srcBytes s'.lenNat) =
      (s.srcBytes s.lenNat, (encryptData (blockEncrypt s.e) s.eax (s.srcBytes s.lenNat)).2) := by
    rw [he, heax, hread, decryptData_encryptData]
  exact ⟨(storeDst_bytes s' (length_decryptData_srcBytes s')).1.trans (congrArg Prod.fst hundo),
    congrArg Prod.snd hundo⟩

/-- Settles O52: the unit goes through the message as in `closeTag_message`, and slot E stays the same. -/
theorem eaxMessageClosedForm : Obligations.EaxMessageClosedForm := by
  intro s1 t1 s2 t2 s3 t3 s4 t4 h1 hok1 heax2 he2 h2 hok2 heax3 he3 h3 hok3 heax4 he4 h4 hok4 enc iv A M C
  obtain ⟨-, rfl⟩ := exec_cases_ok h1 hok1
  obtain ⟨-, rfl⟩ := exec_cases_ok h2 hok2
  obtain ⟨-, rfl⟩ := exec_cases_ok h3 hok3
  obtain ⟨hnone4, rfl⟩ := exec_cases_ok h4 hok4
  have hE2 : s2.e = s1.e := he2
  have hE3 : s3.e = s1.e := he3.trans hE2
  have hE4 : s4.e = s1.e := he4.trans hE3
  have hx3 : s3.eax = addAuth enc (startMessage enc s1.eax iv) A := by
    rw [heax3, State.finish_eax, effect_eaxAddauth, hE2, heax2]
    rfl
  have hx4 : s4.eax = (encryptData enc (addAuth enc (startMessage enc s1.eax iv) A) M).2 := by
    rw [heax4, State.finish_eax, effect_eaxEncrypt, hE3, hx3]
    rfl
  have hlen4 := length_take_blockBytes (closeTag (blockEncrypt s4.e) s4.eax).tag (lenNat_le_of_eaxComputetag hnone4)
  refine ⟨(storeDst_bytes s3 (length_encryptData_srcBytes s3)).1.trans ?_, (storeDst_bytes s4 hlen4).1.trans ?_⟩
  · rw [hE3, hx3]
    exact encryptData_message enc s1.eax iv A M
  · rw [hE4, hx4, ← closeTag_message enc s1.eax iv A M]
    rfl

end Sys2Proof.Proofs
end

section
/-! The EAX commands (42_eax.md R193 to R201): each command's first error by its own checks, and the state a success
leaves. -/

namespace Sys2Proof.Proofs

open Sys2Proof.Machine Sys2Proof.Safety Sys2Proof.Laws

/-! ## EAX.SETKEY -/

theorem firstError_eaxSetkey (s : State) :
    firstError .eaxSetkey s =
      if s.len.toNat ∉ [16, 24, 32] then some .keylen
      else if rangeValid s.params s.src s.len.toNat = false then some .bus
      else none := by
  simp [firstError_eq_ite, errorHolds, outOfPhase, sourceRange, destinationRange]

/-- Settles O44: the slot is `Slot.ofKey` of the key read. -/
theorem eaxSetkeyResult : Obligations.EaxSetkeyResult := by
  refine ⟨decode_encode .eaxSetkey, Slot.ofKey, fun key hkey => ⟨rfl, rfl, ?_⟩, fun s => ⟨fun hlen => ?_,
    fun hlen hsrc => ?_, fun hlen hsrc => ?_⟩⟩
  · exact subkeys_ofKey ((keyLenOk_iff _).mpr (by simpa using hkey))
  · exact exec_of_firstError_some ((firstError_eaxSetkey s).trans (if_pos hlen))
  · exact exec_of_firstError_some (by rw [firstError_eaxSetkey, if_neg (not_not.mpr hlen), if_pos hsrc])
  · have hnone : firstError .eaxSetkey s = none := by
      rw [firstError_eaxSetkey, if_neg (not_not.mpr hlen), if_neg (ne_false_of_eq_true hsrc)]
    exact exec_of_firstError_none hnone

/-! ## EAX.SETIV -/

theorem firstError_eaxSetiv (s : State) :
    firstError .eaxSetiv s =
      if s.eax.phase = .uninit then some .seq
      else if s.len.toNat = 0 ∨ 16 < s.len.toNat then some .len
      else if rangeValid s.params s.src s.len.toNat = false then some .bus
      else none := by
  simp [firstError_eq_ite, errorHolds, outOfPhase, sourceRange, destinationRange]

/-- Settles O45: the session opened is that of `startMessage_eq`. -/
theorem eaxSetivResult : Obligations.EaxSetivResult := by
  refine ⟨decode_encode .eaxSetiv, fun s => ⟨fun hphase => ?_, fun hphase hlen => ?_, fun hphase h1 h16 hsrc => ?_,
    fun hphase h1 h16 hsrc => ?_⟩⟩
  · exact exec_of_firstError_some ((firstError_eaxSetiv s).trans (if_pos hphase))
  all_goals have hfirst := (firstError_eaxSetiv s).trans (if_neg hphase)
  · exact exec_of_firstError_some (hfirst.trans (if_pos hlen))
  all_goals rw [if_neg (by omega)] at hfirst
  · exact exec_of_firstError_some (hfirst.trans (if_pos hsrc))
  · rw [exec_of_firstError_none (hfirst.trans (if_neg (ne_false_of_eq_true hsrc))), ← startMessage_eq]
    rfl

/-! ## EAX.ADDAUTH -/

theorem firstError_eaxAddauth (s : State) :
    firstError .eaxAddauth s =
      if s.eax.phase ≠ .aad then some .seq
      else if rangeValid s.params s.src s.len.toNat = false then some .bus
      else none := by
  simp [firstError_eq_ite, errorHolds, outOfPhase, sourceRange, destinationRange]

/-- Settles O46: a success is `addAuth` of the bytes read. -/
theorem eaxAddauthResult : Obligations.EaxAddauthResult := by
  refine ⟨decode_encode .eaxAddauth, fun s => ⟨fun hphase => ?_, fun haad hsrc => ?_, fun haad hsrc => ?_⟩⟩
  · exact exec_of_firstError_some ((firstError_eaxAddauth s).trans (if_pos hphase))
  · exact exec_of_firstError_some (by rw [firstError_eaxAddauth, if_neg (not_not.mpr haad), if_pos hsrc])
  · have hnone : firstError .eaxAddauth s = none := by
      rw [firstError_eaxAddauth, if_neg (not_not.mpr haad), if_neg (ne_false_of_eq_true hsrc)]
    exact exec_of_firstError_none hnone

/-! ## EAX.ENCRYPT and EAX.DECRYPT -/

/-- The first error of EAX.ENCRYPT and of EAX.DECRYPT: no message open, then ranges that overlap in part, then a range
that is not valid (R197, R198, 60_exceptions.md R274). -/
def dataError (s : State) : Option CmdError :=
  if ¬ (s.eax.phase = .aad ∨ s.eax.phase = .enc) then some .seq
  else if 0 < s.len.toNat ∧ s.src ≠ s.dst ∧ s.src.toNat < s.dst.toNat + s.len.toNat ∧
      s.dst.toNat < s.src.toNat + s.len.toNat then some .overlap
  else if rangeValid s.params s.src s.len.toNat = false ∨ rangeValid s.params s.dst s.len.toNat = false then some .bus
  else none

theorem firstError_eaxEncrypt (s : State) : firstError .eaxEncrypt s = dataError s := by
  simp [firstError_eq_ite, dataError, errorHolds, outOfPhase, sourceRange, destinationRange, partlyOverlap]

theorem firstError_eaxDecrypt (s : State) : firstError .eaxDecrypt s = dataError s := by
  simp [firstError_eq_ite, dataError, errorHolds, outOfPhase, sourceRange, destinationRange, partlyOverlap]

section
variable {s : State}

theorem dataError_of_outOfMessage (h : ¬ (s.eax.phase = .aad ∨ s.eax.phase = .enc)) : dataError s = some .seq :=
  if_pos h

variable (hin : s.eax.phase = .aad ∨ s.eax.phase = .enc)
include hin

theorem dataError_of_overlap (h : 0 < s.len.toNat ∧ s.src ≠ s.dst ∧ s.src.toNat < s.dst.toNat + s.len.toNat ∧
    s.dst.toNat < s.src.toNat + s.len.toNat) : dataError s = some .overlap := by
  rw [dataError, if_neg (not_not.mpr hin), if_pos h]

variable (hapart : ¬ (0 < s.len.toNat ∧ s.src ≠ s.dst ∧ s.src.toNat < s.dst.toNat + s.len.toNat ∧
  s.dst.toNat < s.src.toNat + s.len.toNat))
include hapart

theorem dataError_of_invalid
    (h : rangeValid s.params s.src s.len.toNat = false ∨ rangeValid s.params s.dst s.len.toNat = false) :
    dataError s = some .bus := by
  rw [dataError, if_neg (not_not.mpr hin), if_neg hapart, if_pos h]

theorem dataError_of_valid (hsrc : rangeValid s.params s.src s.len.toNat = true)
    (hdst : rangeValid s.params s.dst s.len.toNat = true) : dataError s = none := by
  rw [dataError, if_neg (not_not.mpr hin), if_neg hapart, if_neg (by simp [hsrc, hdst])]

end

/-- Settles O47: a success is `encryptData` of the bytes read, from the unit of `endAad_eq`. -/
theorem eaxEncryptResult : Obligations.EaxEncryptResult := by
  refine ⟨decode_encode .eaxEncrypt, fun s => ?_⟩
  have hfirst := firstError_eaxEncrypt s
  intro n enc H x inPhase overlap
  refine ⟨fun hout => ?_, fun hin hover => ?_, fun hin hapart hbus => ?_, fun hin hapart hsrc hdst => ?_⟩
  · exact exec_of_firstError_some (hfirst.trans (dataError_of_outOfMessage hout))
  · exact exec_of_firstError_some (hfirst.trans (dataError_of_overlap hin hover))
  · exact exec_of_firstError_some (hfirst.trans (dataError_of_invalid hin hapart hbus))
  · have hx : x = endAad enc s.eax := (endAad_eq enc s.eax).symm
    have hexec := exec_of_firstError_none (hfirst.trans (dataError_of_valid hin hapart hsrc hdst))
    rw [effect_eaxEncrypt, encryptData_snd] at hexec
    rw [hx]
    exact ⟨_, hexec, storeDst_bytes s (length_encryptData_srcBytes s)⟩

/-- Settles O48: as for EAX.ENCRYPT, with `decryptData`. -/
theorem eaxDecryptResult : Obligations.EaxDecryptResult := by
  refine ⟨decode_encode .eaxDecrypt, fun s => ?_⟩
  have hfirst := firstError_eaxDecrypt s
  have hlen := length_decryptData_srcBytes s
  intro n enc c H x inPhase overlap
  refine ⟨fun hout => ?_, fun hin hover => ?_, fun hin hapart hbus => ?_, fun hin hapart hsrc hdst => ?_⟩
  · exact exec_of_firstError_some (hfirst.trans (dataError_of_outOfMessage hout))
  · exact exec_of_firstError_some (hfirst.trans (dataError_of_overlap hin hover))
  · exact exec_of_firstError_some (hfirst.trans (dataError_of_invalid hin hapart hbus))
  · have hx : x = endAad enc s.eax := (endAad_eq enc s.eax).symm
    have hexec := exec_of_firstError_none (hfirst.trans (dataError_of_valid hin hapart hsrc hdst))
    rw [effect_eaxDecrypt, decryptData_eq] at hexec
    rw [decryptData_eq] at hlen
    rw [hx]
    exact ⟨_, hexec, storeDst_bytes s hlen⟩

/-! ## EAX.COMPUTETAG and EAX.CHECKTAG -/

/-- The unit after CloseTag, field by field (R199). -/
theorem closeTag_eq (enc : Block → Block) (x : Eax) :
    closeTag enc x =
      { endAad enc x with
        phase := .tagged, tag := (endAad enc x).tag ^^^ (omacFinalize enc (endAad enc x).o).acc
        o := { B := (endAad enc x).o.B, acc := (omacFinalize enc (endAad enc x).o).acc
               posn := (endAad enc x).o.posn } } := rfl

theorem firstError_eaxComputetag (s : State) :
    firstError .eaxComputetag s =
      if ¬ (s.eax.phase = .aad ∨ s.eax.phase = .enc) then some .seq
      else if 16 < s.len.toNat then some .len
      else if rangeValid s.params s.dst s.len.toNat = false then some .bus
      else none := by
  simp [firstError_eq_ite, errorHolds, outOfPhase, sourceRange, destinationRange]

theorem firstError_eaxChecktag (s : State) :
    firstError .eaxChecktag s =
      if ¬ (s.eax.phase = .aad ∨ s.eax.phase = .enc) then some .seq
      else if s.len.toNat = 0 ∨ 16 < s.len.toNat then some .len
      else if rangeValid s.params s.src s.len.toNat = false then some .bus
      else none := by
  simp [firstError_eq_ite, errorHolds, outOfPhase, sourceRange, destinationRange]

/-- Settles O49: the unit is that of `closeTag_eq` and `endAad_eq`, and the first bytes of its tag are stored at DST. -/
theorem eaxComputetagResult : Obligations.EaxComputetagResult := by
  refine ⟨decode_encode .eaxComputetag, fun s => ?_⟩
  have hfirst := firstError_eaxComputetag s
  intro n enc H y C x inPhase
  refine ⟨fun hout => exec_of_firstError_some (hfirst.trans (if_pos hout)), fun hin => ?_, fun hin => ?_, fun hin => ?_⟩
  all_goals rw [if_neg (not_not.mpr hin)] at hfirst
  · exact fun hlen => exec_of_firstError_some (hfirst.trans (if_pos hlen))
  all_goals intro hlen; rw [if_neg (not_lt.mpr hlen)] at hfirst
  · exact fun hdst => exec_of_firstError_some (hfirst.trans (if_pos hdst))
  · intro hdst
    have hx : x = closeTag enc s.eax := by rw [closeTag_eq, endAad_eq]
    rw [hx]
    exact ⟨_, exec_of_firstError_none (hfirst.trans (if_neg (ne_false_of_eq_true hdst))),
      storeDst_bytes s (length_take_blockBytes _ hlen)⟩

/-- The comparison of CHECKTAG finds no difference exactly in equal strings (R201). -/
theorem effect_eaxChecktag {s : State} (h : s.len.toNat ≤ 16) :
    effect .eaxChecktag s =
      (s.setEax (closeTag (blockEncrypt s.e) s.eax),
        if s.srcBytes s.lenNat = (blockBytes (closeTag (blockEncrypt s.e) s.eax).tag).take s.lenNat then 1 else 0) := by
  have hlen : ((blockBytes (closeTag (blockEncrypt s.e) s.eax).tag).take s.lenNat).length =
      (s.srcBytes s.lenNat).length := (length_take_blockBytes _ h).trans (length_memRead _ _ _).symm
  simp only [effect, tagDifference_eq_zero_iff hlen, eq_comm]

/-- Settles O50: the unit is that of EAX.COMPUTETAG, and RESULT is the verdict of `effect_eaxChecktag`. -/
theorem eaxChecktagResult : Obligations.EaxChecktagResult := by
  refine ⟨decode_encode .eaxChecktag, fun s => ?_⟩
  have hfirst := firstError_eaxChecktag s
  intro n enc H y C x inPhase
  refine ⟨fun hout => exec_of_firstError_some (hfirst.trans (if_pos hout)), fun hin => ?_, fun hin => ?_, fun hin => ?_⟩
  all_goals rw [if_neg (not_not.mpr hin)] at hfirst
  · exact fun hlen => exec_of_firstError_some (hfirst.trans (if_pos hlen))
  all_goals intro h1 h16; rw [if_neg (by omega)] at hfirst
  · exact fun hsrc => exec_of_firstError_some (hfirst.trans (if_pos hsrc))
  · intro hsrc
    have hx : x = closeTag enc s.eax := by rw [closeTag_eq, endAad_eq]
    rw [exec_of_firstError_none (hfirst.trans (if_neg (ne_false_of_eq_true hsrc))), effect_eaxChecktag h16, hx]
    rfl

end Sys2Proof.Proofs
end

section
/-! The phases of the XTS unit (43_xts.md R230). -/

namespace Sys2Proof.Proofs

open Sys2Proof.Machine Sys2Proof.Safety Sys2Proof.Laws

/-- Where the XTS table has no entry, the command is out of phase, and ERR_UNSUPPORTED is the one error that can come
before ERR_SEQ, for DECSECTOR alone (30_encoding.md R94, 60_exceptions.md R274). -/
theorem firstError_of_xtsNextPhase_eq_none {i : Instr} {s : State} (h : xtsNextPhase i s.xts.phase = none) :
    firstError i s = some (if i = .xtsDecsector ∧ s.params.varX1 = .tiny then .unsupported else .seq) := by
  obtain ⟨hunsupported, hphase⟩ :
      errorHolds .unsupported i s = decide (i = .xtsDecsector ∧ s.params.varX1 = .tiny) ∧ outOfPhase i s = true := by
    cases i
    case xtsSettweak | xtsEncsector | xtsDecsector =>
      refine ⟨by simp [errorHolds, beq_eq_decide], ?_⟩
      cases hp : s.xts.phase <;> simp [xtsNextPhase, outOfPhase, hp] at h ⊢
    all_goals cases h
  by_cases htiny : i = .xtsDecsector ∧ s.params.varX1 = .tiny
  · rw [if_pos htiny, firstError_eq_ite, if_pos (hunsupported.trans (decide_eq_true htiny))]
  · rw [if_neg htiny]
    exact firstError_of_outOfPhase (hunsupported.trans (decide_eq_false htiny)) hphase

/-- A success leaves the XTS unit in the phase of its table. -/
theorem effect_xts_phase {i : Instr} {s : State} (hn : firstError i s = none) {p : XtsPhase}
    (hp : xtsNextPhase i s.xts.phase = some p) : (effect i s).1.xts.phase = p := by
  have hphase := outOfPhase_eq_false hn
  cases i
  case xtsSettweak =>
    have hkeyed : s.xts.phase ≠ .unkeyed := by simpa [outOfPhase] using hphase
    simpa [xtsNextPhase, effect, hkeyed] using hp
  case xtsEncsector | xtsDecsector =>
    have htweaked : s.xts.phase = .tweaked := by simpa [outOfPhase] using hphase
    simpa [xtsNextPhase, effect, htweaked] using hp
  all_goals exact Option.some.inj hp

/-- Settles O25: no entry of the table means ERR_SEQ, or ERR_UNSUPPORTED before it, as the first error, and a success
goes where the table says. -/
theorem xtsPhaseTransitions : Obligations.XtsPhaseTransitions := by
  intro i s
  obtain ⟨t, ht⟩ := exec_next i s
  refine ⟨t, ht, fun hnone => ?_, fun p hp => ?_⟩
  · rw [exec_of_firstError_some (firstError_of_xtsNextPhase_eq_none hnone)] at ht
    rw [← Host.Outcome.next.inj ht]
    split <;> rfl
  · exact exec_phase (fun u => u.xts.phase) ht (fun _ _ _ _ => rfl) (fun hn _ => effect_xts_phase hn) p hp

end Sys2Proof.Proofs
end

section
/-! The sector transformations of XTS (43_xts.md R232 to R236): a sector cut into its blocks and its tail, the transform
of each cut, and their consequences for the geometry and the round trip. -/

namespace Sys2Proof.Proofs

open Sys2Proof.Machine Sys2Proof.Safety Sys2Proof.Laws

/-! ## Blocks and their bytes -/

@[simp] theorem blocksBytes_nil : blocksBytes [] = [] := rfl

@[simp] theorem blocksBytes_cons (b : Block) (bs : List Block) : blocksBytes (b :: bs) = blockBytes b ++ blocksBytes bs :=
  rfl

@[simp] theorem blocksBytes_append (as bs : List Block) : blocksBytes (as ++ bs) = blocksBytes as ++ blocksBytes bs :=
  List.flatMap_append

/-- Cutting blocks off their bytes gives the blocks. -/
theorem sectorBlocks_blocksBytes (bs : List Block) (d : List Byte) :
    sectorBlocks bs.length (blocksBytes bs ++ d) = bs := by
  induction bs with
  | nil => rfl
  | cons b bs ih =>
    rw [List.length_cons, sectorBlocks, blocksBytes_cons, List.append_assoc, List.take_left' (length_blockBytes b),
      List.drop_left' (length_blockBytes b), blockOfBytes_blockBytes, ih]

theorem sectorBlocks_blocksBytes_self (bs : List Block) : sectorBlocks bs.length (blocksBytes bs) = bs := by
  simpa using sectorBlocks_blocksBytes bs []

/-- The complete blocks of a byte string, and what follows them. -/
theorem blocksBytes_sectorBlocks_append {q : Nat} {d : List Byte} (h : 16 * q ≤ d.length) :
    blocksBytes (sectorBlocks q d) ++ d.drop (16 * q) = d := by
  induction q generalizing d with
  | zero => rfl
  | succ q ih =>
    have hlen : 16 * q ≤ (d.drop 16).length := by rw [List.length_drop]; omega
    have hblock : blockBytes (blockOfBytes (d.take 16)) = d.take 16 :=
      blockBytes_blockOfBytes (by rw [List.length_take]; omega)
    have hrest : d.drop (16 * (q + 1)) = (d.drop 16).drop (16 * q) := by
      rw [List.drop_drop, Nat.mul_succ, Nat.add_comm]
    rw [sectorBlocks, blocksBytes_cons, hblock, hrest, List.append_assoc, ih hlen, List.take_append_drop]

/-- Sixteen bytes at a block's offset are the block. -/
theorem take_drop_blocksBytes {bs : List Block} {j : Nat} (h : j < bs.length) (d : List Byte) :
    ((blocksBytes bs ++ d).drop (16 * j)).take 16 = blockBytes bs[j] := by
  induction bs generalizing j with
  | nil => simp at h
  | cons b bs ih =>
    cases j with
    | zero => simp [List.take_left' (length_blockBytes b)]
    | succ j =>
      have hoff : 16 * (j + 1) = 16 + 16 * j := by omega
      rw [hoff, ← List.drop_drop, blocksBytes_cons, List.append_assoc, List.drop_left' (length_blockBytes b)]
      exact ih (by simpa using h)

/-- Sixteen bytes at the last block's offset are the last block. -/
theorem take_drop_blocksBytes_concat {bs : List Block} {n : Nat} (h : bs.length = n) (b : Block) (d : List Byte) :
    ((blocksBytes (bs ++ [b]) ++ d).drop (16 * n)).take 16 = blockBytes b := by
  subst h
  rw [take_drop_blocksBytes (by simp), List.getElem_concat_length rfl]

/-- What follows the blocks. -/
theorem drop_blocksBytes {bs : List Block} {n : Nat} (h : bs.length = n) (d : List Byte) :
    (blocksBytes bs ++ d).drop (16 * n) = d := List.drop_left' (by rw [length_blocksBytes, h])

/-! ## Blocks under their tweaks (R232, R233) -/

theorem dblLEpow_zero (t : Block) : dblLEpow 0 t = t := rfl

/-- An equation between functions: at a block `t`, the kernel would first compare `t` with its double. -/
theorem dblLEpow_add_one (n : Nat) : dblLEpow (n + 1) = dblLEpow n ∘ dblLE := rfl

theorem dblLEpow_succ (n : Nat) (t : Block) : dblLEpow (n + 1) t = dblLEpow n (dblLE t) := by
  rw [dblLEpow_add_one, Function.comp_apply]

/-- The last of the doublings, for the first. -/
theorem dblLEpow_succ' (n : Nat) (t : Block) : dblLEpow (n + 1) t = dblLE (dblLEpow n t) := by
  induction n generalizing t with
  | zero => rw [dblLEpow_succ, dblLEpow_zero, dblLEpow_zero]
  | succ n ih => rw [dblLEpow_succ, ih, dblLEpow_succ]

theorem xexBlocks_append (f : Block → Block) (t : Block) (as bs : List Block) :
    xexBlocks f t (as ++ bs) = xexBlocks f t as ++ xexBlocks f (dblLEpow as.length t) bs := by
  induction as generalizing t with
  | nil => rw [List.nil_append, List.length_nil, dblLEpow_zero, xexBlocks, List.nil_append]
  | cons a as ih => rw [List.cons_append, xexBlocks, xexBlocks, ih, List.length_cons, dblLEpow_succ, List.cons_append]

theorem xexBlocks_concat (f : Block → Block) (t : Block) (bs : List Block) (b : Block) :
    xexBlocks f t (bs ++ [b]) = xexBlocks f t bs ++ [xex f b (dblLEpow bs.length t)] := by
  rw [xexBlocks_append, xexBlocks, xexBlocks]

/-- Block `j` stands under the tweak doubled `j` times (R233). -/
theorem getElem_xexBlocks (f : Block → Block) (t : Block) {bs : List Block} {j : Nat} (h : j < bs.length) :
    (xexBlocks f t bs)[j]'(by simpa using h) = xex f bs[j] (dblLEpow j t) := by
  induction bs generalizing t j with
  | nil => simp at h
  | cons b bs ih =>
    cases j with
    | zero => simp only [xexBlocks, List.getElem_cons_zero, dblLEpow_zero]
    | succ j => simpa only [xexBlocks, List.getElem_cons_succ, dblLEpow_succ] using ih (dblLE t) (by simpa using h)

section
variable {enc dec : Block → Block} (hinv : ∀ b, dec (enc b) = b)
include hinv

theorem xex_xex (b t : Block) : xex dec (xex enc b t) t = b := by
  simp [xex, hinv]

theorem xexBlocks_xexBlocks (t : Block) (bs : List Block) : xexBlocks dec t (xexBlocks enc t bs) = bs := by
  induction bs generalizing t with
  | nil => rfl
  | cons b bs ih => simp [xexBlocks, xex_xex hinv, ih]

end

/-! ## The last complete block and the tail (R233 to R235) -/

/-- A sector of complete blocks and a tail: `bs` are the blocks before the last complete one, `p` the last complete one
and the tail, which may be empty. -/
def sectorOf (bs : List Block) (p : Block × List Byte) : List Byte := blocksBytes (bs ++ [p.1]) ++ p.2

/-- Every sector of at least 16 bytes has this form, with a tail shorter than a block (R233). -/
theorem exists_eq_sectorOf {P : List Byte} (h : 16 ≤ P.length) : ∃ bs p, p.2.length < 16 ∧ P = sectorOf bs p := by
  have hq : P.length / 16 = P.length / 16 - 1 + 1 := by omega
  have hcut := blocksBytes_sectorBlocks_append (q := P.length / 16) (d := P) (by omega)
  rw [hq, sectorBlocks_succ] at hcut
  exact ⟨_, (_, _), by rw [List.length_drop]; omega, hcut.symm⟩

/-- Ciphertext stealing: the last complete block is transformed under `t`, gives its first bytes to the tail, and the old
tail with the rest of them is transformed under `u`. Encryption has `T_(q-1)` for `t` and `T_q` for `u`; decryption has
them the other way round. -/
def stealTail (f : Block → Block) (t u : Block) (p : Block × List Byte) : Block × List Byte :=
  (xex f (blockOfBytes (p.2 ++ (blockBytes (xex f p.1 t)).drop p.2.length)) u,
    (blockBytes (xex f p.1 t)).take p.2.length)

section
variable {p : Block × List Byte} (h16 : p.2.length < 16)
include h16

theorem length_stealTail (f : Block → Block) (t u : Block) : (stealTail f t u p).2.length = p.2.length :=
  length_take_blockBytes _ h16.le

/-- Stealing with the tweaks exchanged takes the tail back. -/
theorem stealTail_stealTail {enc dec : Block → Block} (hinv : ∀ b, dec (enc b) = b) (t u : Block) :
    stealTail dec u t (stealTail enc t u p) = p := by
  have hfull : (p.2 ++ (blockBytes (xex enc p.1 t)).drop p.2.length).length = 16 := by simp; omega
  rw [stealTail, length_stealTail h16]
  simp only [stealTail, xex_xex hinv, blockBytes_blockOfBytes hfull, List.drop_left, List.take_left,
    List.take_append_drop, blockOfBytes_blockBytes]

/-- How many complete blocks a sector has, and how long its tail is. -/
theorem length_sectorOf (bs : List Block) :
    (sectorOf bs p).length / 16 = bs.length + 1 ∧ (sectorOf bs p).length % 16 = p.2.length := by
  simp only [sectorOf, List.length_append, length_blocksBytes, List.length_singleton]
  omega

end

section
variable (f : Block → Block) (T : Block) (bs : List Block)

/-- With no tail, every block stands under its own tweak (R234). -/
theorem xtsEncrypt_blocksBytes : xtsEncrypt f T (blocksBytes bs) = blocksBytes (xexBlocks f T bs) := by
  simp [xtsEncrypt, sectorBlocks_blocksBytes_self]

/-- With no tail, decryption has the shape of encryption (R235). -/
theorem xtsDecrypt_blocksBytes : xtsDecrypt f T (blocksBytes bs) = blocksBytes (xexBlocks f T bs) := by
  simp [xtsDecrypt, sectorBlocks_blocksBytes_self]

variable {p : Block × List Byte} (h0 : 0 < p.2.length) (h16 : p.2.length < 16)
include h0 h16

/-- With a tail, encryption ends with stealing under `T_(q-1)` and then `T_q` (R234). -/
theorem xtsEncrypt_sectorOf :
    xtsEncrypt f T (sectorOf bs p) =
      sectorOf (xexBlocks f T bs) (stealTail f (dblLEpow bs.length T) (dblLEpow (bs.length + 1) T) p) := by
  obtain ⟨hq, hr⟩ := length_sectorOf h16 bs
  have hblocks : sectorBlocks (bs.length + 1) (sectorOf bs p) = bs ++ [p.1] := by
    simpa [sectorOf] using sectorBlocks_blocksBytes (bs ++ [p.1]) p.2
  have htail : (sectorOf bs p).drop (16 * (bs.length + 1)) = p.2 := drop_blocksBytes (by simp) _
  simp only [xtsEncrypt, hq, hr, if_neg h0.ne', hblocks, htail, xexBlocks_concat, List.getLastD_concat,
    List.dropLast_concat, stealTail]
  simp [sectorOf]

/-- With a tail, decryption ends with stealing under `T_q` and then `T_(q-1)` (R235). -/
theorem xtsDecrypt_sectorOf :
    xtsDecrypt f T (sectorOf bs p) =
      sectorOf (xexBlocks f T bs) (stealTail f (dblLEpow (bs.length + 1) T) (dblLEpow bs.length T) p) := by
  obtain ⟨hq, hr⟩ := length_sectorOf h16 bs
  have hblocks : sectorBlocks bs.length (sectorOf bs p) = bs := by
    simpa [sectorOf] using sectorBlocks_blocksBytes bs (blockBytes p.1 ++ p.2)
  have hlast : ((sectorOf bs p).drop (16 * bs.length)).take 16 = blockBytes p.1 := take_drop_blocksBytes_concat rfl _ _
  have htail : (sectorOf bs p).drop (16 * (bs.length + 1)) = p.2 := drop_blocksBytes (by simp) _
  simp only [xtsDecrypt, hq, hr, if_neg h0.ne', Nat.add_sub_cancel, hblocks, hlast, blockOfBytes_blockBytes, htail,
    ← dblLEpow_succ', stealTail]
  simp [sectorOf]

end

/-- Settles O53: block by block where there is no tail, and by `stealTail_stealTail` where there is one. -/
theorem xtsSectorRoundTrip : Obligations.XtsSectorRoundTrip := by
  intro x1 T P hP
  have hinv := blockDecrypt_blockEncrypt x1
  obtain ⟨bs, p, h16, rfl⟩ := exists_eq_sectorOf hP
  obtain h0 | h0 := p.2.length.eq_zero_or_pos
  · rw [sectorOf, List.eq_nil_of_length_eq_zero h0, List.append_nil, xtsEncrypt_blocksBytes, xtsDecrypt_blocksBytes,
      xexBlocks_xexBlocks hinv]
  · have hlen := length_stealTail h16 (blockEncrypt x1) (dblLEpow bs.length T) (dblLEpow (bs.length + 1) T)
    rw [xtsEncrypt_sectorOf _ _ _ h0 h16, xtsDecrypt_sectorOf _ _ _ (hlen ▸ h0) (hlen ▸ h16), length_xexBlocks,
      stealTail_stealTail h16 hinv, xexBlocks_xexBlocks hinv]

/-- Whether or not there is a tail, only the last complete block and the tail are touched by stealing. -/
theorem exists_xtsEncrypt_eq_append (f : Block → Block) (T : Block) (bs : List Block) {p : Block × List Byte}
    (h16 : p.2.length < 16) : ∃ D, xtsEncrypt f T (sectorOf bs p) = blocksBytes (xexBlocks f T bs) ++ D := by
  obtain h0 | h0 := p.2.length.eq_zero_or_pos
  · rw [sectorOf, List.eq_nil_of_length_eq_zero h0, List.append_nil, xtsEncrypt_blocksBytes, xexBlocks_concat,
      blocksBytes_append]
    exact ⟨_, rfl⟩
  · rw [xtsEncrypt_sectorOf _ _ _ h0 h16, sectorOf, blocksBytes_append, List.append_assoc]
    exact ⟨_, rfl⟩

/-- Settles O54: the blocks of `xtsEncrypt_blocksBytes` or `xtsEncrypt_sectorOf`, read at their offsets. -/
theorem xtsCiphertextGeometry : Obligations.XtsCiphertextGeometry := by
  intro x1 T P hP enc q r C slice xexAt CC
  refine ⟨length_xtsEncrypt enc T hP, ?_⟩
  obtain ⟨bs, p, h16, rfl⟩ := exists_eq_sectorOf hP
  obtain ⟨hq, hr⟩ : q = bs.length + 1 ∧ r = p.2.length := length_sectorOf h16 bs
  have hlast : slice (sectorOf bs p) (16 * bs.length) 16 = blockBytes p.1 := take_drop_blocksBytes_concat rfl _ _
  have htail : (sectorOf bs p).drop (16 * (bs.length + 1)) = p.2 := drop_blocksBytes (by simp) _
  have hCC : CC = blockBytes (xex enc p.1 (dblLEpow bs.length T)) := by
    simp only [CC, hq, Nat.add_sub_cancel, hlast, blockOfBytes_blockBytes]
    rfl
  rw [hCC, hq, hr, Nat.add_sub_cancel, htail]
  refine ⟨fun j hj => ?_, fun h0 => ?_, fun h0 => ?_⟩
  · have hplain : slice (sectorOf bs p) (16 * j) 16 = blockBytes bs[j] := by
      simpa [slice, sectorOf] using take_drop_blocksBytes hj (blockBytes p.1 ++ p.2)
    obtain ⟨D, hD⟩ := exists_xtsEncrypt_eq_append enc T bs h16
    have hcipher : slice C (16 * j) 16 = _ :=
      (congrArg (slice · (16 * j) 16) hD).trans (take_drop_blocksBytes (by simpa using hj) D)
    rw [hcipher, hplain, blockOfBytes_blockBytes, getElem_xexBlocks]
    rfl
  · have hC : C = blocksBytes (xexBlocks enc T bs ++ [xex enc p.1 (dblLEpow bs.length T)]) ++ [] := by
      simp only [C, sectorOf, List.eq_nil_of_length_eq_zero h0, List.append_nil, xtsEncrypt_blocksBytes, xexBlocks_concat]
    rw [hC]
    exact take_drop_blocksBytes_concat (by simp) _ _
  · have hC : C = sectorOf _ _ := xtsEncrypt_sectorOf enc T bs h0 h16
    rw [hC]
    exact ⟨drop_blocksBytes (by simp) _, take_drop_blocksBytes_concat (by simp) _ _⟩

end Sys2Proof.Proofs
end

section
/-! The XTS commands (43_xts.md R240 to R245): each command's first error by its own checks, and the state a success
leaves. -/

namespace Sys2Proof.Proofs

open Sys2Proof.Machine Sys2Proof.Safety Sys2Proof.Laws

/-! ## XTS.SETSECTORSIZE -/

theorem firstError_xtsSetsectorsize (s : State) :
    firstError .xtsSetsectorsize s = if s.len.toNat < 16 then some .len else none := by
  simp [firstError_eq_ite, errorHolds, outOfPhase, sourceRange, destinationRange]

/-- Settles O55: a success writes the sector size alone, which the window shows at SECTSIZE. -/
theorem xtsSetsectorsizeResult : Obligations.XtsSetsectorsizeResult := by
  refine ⟨decode_encode .xtsSetsectorsize, fun s => ⟨fun hshort => ?_, fun hlen => ?_⟩⟩
  · exact exec_of_firstError_some ((firstError_xtsSetsectorsize s).trans (if_pos hshort))
  · exact ⟨_, exec_of_firstError_none ((firstError_xtsSetsectorsize s).trans (if_neg (not_lt.mpr hlen))), rfl, rfl⟩

/-! ## XTS.SETKEY -/

/-- The key lengths of the two key bindings (R241). -/
abbrev XtsKeyLength (single : Bool) (n : Nat) : Prop :=
  (single = false ∧ n ∈ [32, 48, 64]) ∨ (single = true ∧ n ∈ [16, 24, 32])

theorem firstError_xtsSetkey (s : State) :
    firstError .xtsSetkey s =
      if ¬ XtsKeyLength s.params.xtsSingleKey s.len.toNat then some .keylen
      else if rangeValid s.params s.src s.len.toNat = false then some .bus
      else none := by
  cases h : s.params.xtsSingleKey <;>
    simp [firstError_eq_ite, errorHolds, outOfPhase, sourceRange, destinationRange, XtsKeyLength, h]

/-- X1 is keyed with the first part of the key, which in the single-key variant is the whole. -/
theorem xtsPayloadKey_eq_take (single : Bool) {key : List Byte} {n : Nat} (h : key.length = n) :
    xtsPayloadKey single key = key.take (if single then n else n / 2) := by
  subst h
  cases single
  · rfl
  · exact (List.take_length).symm

theorem xtsTweakKey_eq_drop (single : Bool) {key : List Byte} {n : Nat} (h : key.length = n) :
    xtsTweakKey single key = if single then key else key.drop (if single then n else n / 2) := by
  subst h
  cases single <;> rfl

/-- Settles O56: both slots are `Slot.ofKey` of their part of the key read. -/
theorem xtsSetkeyResult : Obligations.XtsSetkeyResult := by
  refine ⟨decode_encode .xtsSetkey, Slot.ofKey, fun key hkey => ⟨rfl, rfl, ?_⟩, fun s => ⟨fun hlen => ?_,
    fun hlen hsrc => ?_, fun hlen hsrc => ?_⟩⟩
  · exact subkeys_ofKey ((keyLenOk_iff _).mpr (by simpa using hkey))
  · exact exec_of_firstError_some ((firstError_xtsSetkey s).trans (if_pos hlen))
  all_goals have hfirst := (firstError_xtsSetkey s).trans (if_neg (not_not.mpr hlen))
  · exact exec_of_firstError_some (hfirst.trans (if_pos hsrc))
  · have hread : (s.srcBytes s.lenNat).length = s.len.toNat := length_memRead _ _ _
    rw [exec_of_firstError_none (hfirst.trans (if_neg (ne_false_of_eq_true hsrc)))]
    simp only [effect, xtsPayloadKey_eq_take _ hread, xtsTweakKey_eq_drop _ hread]
    rfl

/-! ## XTS.SETTWEAK -/

theorem firstError_xtsSettweak (s : State) :
    firstError .xtsSettweak s =
      if s.xts.phase = .unkeyed then some .seq
      else if 16 < s.len.toNat then some .len
      else if rangeValid s.params s.src s.len.toNat = false then some .bus
      else none := by
  simp [firstError_eq_ite, errorHolds, outOfPhase, sourceRange, destinationRange]

/-- Settles O57: a success writes the tweak and the phase of the XTS unit. -/
theorem xtsSettweakResult : Obligations.XtsSettweakResult := by
  refine ⟨decode_encode .xtsSettweak, fun s => ⟨fun hphase => ?_, fun hphase hlen => ?_, fun hphase hlen hsrc => ?_,
    fun hphase hlen hsrc => ?_⟩⟩
  · exact exec_of_firstError_some ((firstError_xtsSettweak s).trans (if_pos hphase))
  all_goals have hfirst := (firstError_xtsSettweak s).trans (if_neg hphase)
  · exact exec_of_firstError_some (hfirst.trans (if_pos hlen))
  all_goals rw [if_neg (not_lt.mpr hlen)] at hfirst
  · exact exec_of_firstError_some (hfirst.trans (if_pos hsrc))
  · exact exec_of_firstError_none (hfirst.trans (if_neg (ne_false_of_eq_true hsrc)))

/-! ## XTS.ENCSECTOR and XTS.DECSECTOR -/

/-- The sector ranges at SRC and DST overlap in part (20_memory.md R69). -/
abbrev SectorOverlap (s : State) : Prop :=
  0 < s.xts.sectSize.toNat ∧ s.src ≠ s.dst ∧ s.src.toNat < s.dst.toNat + s.xts.sectSize.toNat ∧
    s.dst.toNat < s.src.toNat + s.xts.sectSize.toNat

/-- The first error of XTS.ENCSECTOR, and of XTS.DECSECTOR where its variant has one: no tweak, then ranges that overlap
in part, then a range that is not valid (R243, R244, 60_exceptions.md R274). -/
def sectorError (s : State) : Option CmdError :=
  if s.xts.phase ≠ .tweaked then some .seq
  else if SectorOverlap s then some .overlap
  else if rangeValid s.params s.src s.xts.sectSize.toNat = false ∨
      rangeValid s.params s.dst s.xts.sectSize.toNat = false then some .bus
  else none

theorem firstError_xtsEncsector (s : State) : firstError .xtsEncsector s = sectorError s := by
  simp [firstError_eq_ite, sectorError, errorHolds, outOfPhase, sourceRange, destinationRange, partlyOverlap]

theorem firstError_xtsDecsector (s : State) :
    firstError .xtsDecsector s = if s.params.varX1 = .tiny then some .unsupported else sectorError s := by
  simp [firstError_eq_ite, sectorError, errorHolds, outOfPhase, sourceRange, destinationRange, partlyOverlap]

/-- A command whose first error is that of the sector commands, and whose success stores a sector `v` at DST. -/
theorem exec_of_sectorError {i : Instr} {s : State} {v : List Byte} (hfirst : firstError i s = sectorError s)
    (heffect : effect i s = (s.storeDst v, 0)) (hlen : v.length = s.xts.sectSize.toNat) :
    (s.xts.phase ≠ .tweaked → exec i s = .next (s.failed i.opcode .seq)) ∧
    (s.xts.phase = .tweaked → SectorOverlap s → exec i s = .next (s.failed i.opcode .overlap)) ∧
    (s.xts.phase = .tweaked → ¬ SectorOverlap s →
      rangeValid s.params s.src s.xts.sectSize.toNat = false ∨ rangeValid s.params s.dst s.xts.sectSize.toNat = false →
      exec i s = .next (s.failed i.opcode .bus)) ∧
    (s.xts.phase = .tweaked → ¬ SectorOverlap s → rangeValid s.params s.src s.xts.sectSize.toNat = true →
      rangeValid s.params s.dst s.xts.sectSize.toNat = true →
      ∃ m, exec i s = .next ((s.setMem m).finish i.opcode codeOk 0) ∧
        memRead m s.dst.toNat s.xts.sectSize.toNat = v ∧ SameOutside s.mem m s.dst s.xts.sectSize.toNat) := by
  rw [sectorError] at hfirst
  refine ⟨fun hphase => ?_, fun hphase hover => ?_, fun hphase hapart hbus => ?_, fun hphase hapart hsrc hdst => ?_⟩
  · exact exec_of_firstError_some (hfirst.trans (if_pos hphase))
  all_goals rw [if_neg (not_not.mpr hphase)] at hfirst
  · exact exec_of_firstError_some (hfirst.trans (if_pos hover))
  all_goals rw [if_neg hapart] at hfirst
  · exact exec_of_firstError_some (hfirst.trans (if_pos hbus))
  · have hexec := exec_of_firstError_none (hfirst.trans (if_neg (by simp [hsrc, hdst])))
    rw [heffect] at hexec
    exact ⟨_, hexec, storeDst_bytes s hlen⟩

theorem length_srcBytes_sectorNat (s : State) : (s.srcBytes s.sectorNat).length = s.xts.sectSize.toNat :=
  length_memRead _ _ _

section
variable {s : State} (hsize : 16 ≤ s.xts.sectSize.toNat)
include hsize

theorem le_length_srcBytes_sectorNat : 16 ≤ (s.srcBytes s.sectorNat).length := by rwa [length_srcBytes_sectorNat]

/-- ENCSECTOR and DECSECTOR write as many bytes as they read. -/
theorem length_xtsEncrypt_srcBytes (enc : Block → Block) (T : Block) :
    (xtsEncrypt enc T (s.srcBytes s.sectorNat)).length = s.xts.sectSize.toNat := by
  rw [length_xtsEncrypt _ _ (le_length_srcBytes_sectorNat hsize), length_srcBytes_sectorNat]

theorem length_xtsDecrypt_srcBytes (dec : Block → Block) (T : Block) :
    (xtsDecrypt dec T (s.srcBytes s.sectorNat)).length = s.xts.sectSize.toNat := by
  rw [length_xtsDecrypt _ _ (le_length_srcBytes_sectorNat hsize), length_srcBytes_sectorNat]

end

/-- Settles O58: the shared checks of the sector commands, and the sector that `xtsEncrypt` gives. -/
theorem xtsEncsectorResult : Obligations.XtsEncsectorResult :=
  ⟨decode_encode .xtsEncsector, fun s hsize =>
    exec_of_sectorError (firstError_xtsEncsector s) rfl (length_xtsEncrypt_srcBytes hsize _ _)⟩

/-- Settles O59: the check of the variant, then as for XTS.ENCSECTOR, with `xtsDecrypt`. -/
theorem xtsDecsectorResult : Obligations.XtsDecsectorResult := by
  refine ⟨decode_encode .xtsDecsector, fun s hsize => ?_⟩
  have hfirst := firstError_xtsDecsector s
  have hshared := fun hvar =>
    exec_of_sectorError (hfirst.trans (if_neg hvar)) rfl (length_xtsDecrypt_srcBytes hsize _ _)
  simp only [imp_and] at hshared
  exact ⟨fun htiny => exec_of_firstError_some (hfirst.trans (if_pos htiny)), hshared⟩

/-- Settles O60: DECSECTOR reads the sector ENCSECTOR stored, and the tweak kept lets `xtsSectorRoundTrip` undo it. -/
theorem xtsDecsectorRestoresSector : Obligations.XtsDecsectorRestoresSector := by
  intro s t s' t' hsize h hok hxts hx1 hsrc hmem h' hok'
  obtain ⟨-, rfl⟩ := exec_cases_ok h hok
  obtain ⟨-, rfl⟩ := exec_cases_ok h' hok'
  have hX : s'.xts = s.xts := hxts
  have hX1 : s'.x1 = s.x1 := hx1
  have hread : s'.srcBytes s'.sectorNat = xtsEncrypt (blockEncrypt s.x1) s.xts.T (s.srcBytes s.sectorNat) := by
    rw [State.srcBytes, State.sectorNat, hmem, hsrc, hX]
    exact (storeDst_bytes s (length_xtsEncrypt_srcBytes hsize _ _)).1
  have hundo : xtsDecrypt (blockDecrypt s'.x1) s'.xts.T (s'.srcBytes s'.sectorNat) = s.srcBytes s.sectorNat := by
    rw [hread, hX, hX1]
    exact xtsSectorRoundTrip s.x1 s.xts.T _ (le_length_srcBytes_sectorNat hsize)
  have hlen := (congrArg List.length hundo).trans (length_srcBytes_sectorNat s)
  exact (storeDst_bytes s' hlen).1.trans hundo

end Sys2Proof.Proofs
end

section
/-! How a command ends (60_exceptions.md R271 to R274), and what the host's other accesses do (R288). -/

namespace Sys2Proof.Proofs

open Sys2Proof.Machine Sys2Proof.Safety Sys2Proof.Laws

/-! ## How a command ends -/

/-- A word written to CMD fails, under its own opcode byte, or ends with OK. -/
theorem runCommand_cases {w : Word} {s t : State} (h : runCommand w s = .next t) :
    (∃ c, t = s.failed (opcField w) c) ∨ statusCode t.status = codeOk := by
  cases hd : decode w with
  | error e =>
    simp only [runCommand, hd] at h
    cases h
    exact .inl ⟨.illegal, rfl⟩
  | ok i =>
    rw [runCommand_of_decode_ok hd] at h
    obtain ⟨c, -, rfl⟩ | ⟨-, rfl⟩ := exec_cases h
    · exact .inl ⟨c, by rw [opcode_of_decode hd]⟩
    · exact .inr (statusCode_statusWord _ _)

/-- Settles O14: a word that does not end with OK fails, and `failed` writes STATUS and RESULT alone. -/
theorem failedCommandChangesNothing : Obligations.FailedCommandChangesNothing := by
  intro w s t h hne
  obtain ⟨c, rfl⟩ | hok := runCommand_cases h
  · rw [State.failed_status, statusCode_statusWord]
    rfl
  · exact absurd hok hne

theorem expectedCode_of_firstError_some {i : Instr} {s : State} {c : CmdError} (h : firstError i s = some c) :
    expectedCode i s = errorCode c := by
  rw [firstError] at h
  rw [expectedCode, h]

theorem expectedCode_of_firstError_none {i : Instr} {s : State} (h : firstError i s = none) :
    expectedCode i s = codeOk := by
  rw [firstError] at h
  rw [expectedCode, h]

/-- Settles O15: each command ends with its first error by the spec's tables (`exec_eq_complete`), or with OK. -/
theorem firstErrorInPriorityOrder : Obligations.FirstErrorInPriorityOrder := by
  intro i s
  obtain ⟨t, ht⟩ := exec_next i s
  refine ⟨t, ht, ?_⟩
  obtain ⟨c, hc, rfl⟩ | ⟨hn, rfl⟩ := exec_cases ht
  · rw [State.failed_status, statusCode_statusWord, expectedCode_of_firstError_some hc]
  · rw [State.finish_status, statusCode_statusWord, expectedCode_of_firstError_none hn]

/-! ## The host's accesses other than a write of CMD -/

/-- The nine registers of the window, each with what a read of it returns (10_state.md R21, R22). -/
abbrev registerValues (s : State) : List (Byte × Word) :=
  [(0x00#8, 0), (0x04#8, s.status), (0x08#8, s.src), (0x0C#8, s.dst), (0x10#8, s.len), (0x14#8, s.result),
    (0x18#8, stateWord s), (0x1C#8, s.xts.sectSize), (0x20#8, configWord s.params)]

theorem readWindow_of_mem_registerValues {s : State} {p : Byte × Word} (hp : p ∈ registerValues s) :
    p.1.toNat % 4 = 0 ∧ readWindow s p.1 = p.2 := by
  fin_cases hp <;> exact ⟨by simp, rfl⟩

/-- The addresses of buffer memory the host can name: those outside a mapped window (20_memory.md R61; log 19). -/
theorem hitsMappedWindow_eq_false {p : Params} {a : Nat}
    (h : p.windowMapped = true → a < p.base.toNat ∨ p.base.toNat + 256 ≤ a) : hitsMappedWindow p a 1 = false := by
  rw [← Bool.not_eq_true, hitsMappedWindow_byte]
  rintro ⟨hmapped, hlo, hhi⟩
  have := h hmapped
  omega

theorem hostAccess_loadByte {s : State} {a : Word} (h : hitsMappedWindow s.params a.toNat 1 = false) :
    hostAccess (.loadByte a) s = .next (s.record (.byte a (readByte s.mem a.toNat))) :=
  if_neg (ne_true_of_eq_false h)

theorem hostAccess_storeByte {s : State} {a : Word} (h : hitsMappedWindow s.params a.toNat 1 = false) (v : Byte) :
    hostAccess (.storeByte a v) s = .next (s.setMem (writeByte s.mem a.toNat v)) :=
  if_neg (ne_true_of_eq_false h)

/-- Settles O6: each access is carried out on the state past it, which differs from the one before in the host's program
alone. -/
theorem hostAccessEffects : Obligations.HostAccessEffects := by
  intro s rest s' outside
  have hwrite {o : Byte} (ha : o.toNat % 4 = 0) (hcmd : o ≠ 0x00#8) (v : Word)
      (h : s.pending = .writeReg o .word v :: rest) : step s = .next (writeArgument (s.advance rest) o v) :=
    (step_cons h).trans (hostAccess_writeReg ha hcmd v _)
  refine ⟨fun p hp h => ?_, hwrite (by decide) (by decide), hwrite (by decide) (by decide),
    hwrite (by decide) (by decide), fun a ha h => ?_, fun a v ha h => ?_⟩
  · obtain ⟨haligned, hread⟩ := readWindow_of_mem_registerValues (s := s.advance rest) hp
    rw [step_cons h, hostAccess_readReg haligned, hread]
    rfl
  · exact (step_cons h).trans (hostAccess_loadByte (s := s.advance rest) (hitsMappedWindow_eq_false ha))
  · refine ⟨writeByte s.mem a.toNat v,
      (step_cons h).trans (hostAccess_storeByte (s := s.advance rest) (hitsMappedWindow_eq_false ha) v), ?_, ?_⟩
    · rw [readByte_writeByte, if_pos rfl]
    · intro b hb
      rw [readByte_writeByte, if_neg hb]

end Sys2Proof.Proofs
end

section
/-! The platform's reset (70_reset_and_hazards.md R300, R301). -/

namespace Sys2Proof.Proofs

open Sys2Proof.Machine Sys2Proof.Safety Sys2Proof.Laws

theorem hostAccess_platformReset (s : State) : hostAccess .platformReset s = .next (platformReset s) := rfl

/-- State.reset is the platform's reset of itself, so that what holds after every reset holds of it (R301). -/
theorem platformReset_reset : platformReset State.reset = State.reset := rfl

/-- STATE reads 0 after reset: no slot is keyed and every phase is the first of its unit (10_state.md R27). -/
theorem readWindow_state_platformReset (s : State) : readWindow (platformReset s) 0x18 = 0 := rfl

/-- Settles O10: the access taken off is the reset, which overwrites all but the parameters, memory and the host's
program; so the reset tables hold of it from any state, and of State.reset as a case of that. -/
theorem platformResetState : Obligations.PlatformResetState := by
  unfold Obligations.PlatformResetState
  intro slot0 ctx0 atReset
  have hreset (s : State) : atReset (platformReset s) :=
    ⟨rfl, rfl, rfl, rfl, rfl, readWindow_state_platformReset s, rfl, rfl, rfl, rfl, rfl, rfl, rfl, rfl⟩
  refine ⟨platformReset_reset ▸ hreset State.reset, fun s rest h => ?_⟩
  have hstep : step s = .next (platformReset (s.advance rest)) := (step_cons h).trans (hostAccess_platformReset _)
  exact ⟨_, hstep, hreset _, rfl, rfl⟩

end Sys2Proof.Proofs
end
